-- ==== Sys2Proof/Word.lean ====
section
/-! DEFINITION. The word types of the HCC (spec/00_scope.md R4, R14): registers and bus data are 32 bits, a
symbol is a byte, a node index has 9 bits; a bit string is a list of bits in stream order, first bit first. -/

namespace Sys2Proof

/-- A register or bus datum (R14). -/
abbrev Word := BitVec 32

/-- A symbol (R4). -/
abbrev Byte := BitVec 8

/-- An arena index (R8, NODE_W = 9). -/
abbrev NodeIdx := BitVec 9

/-- A bit string in the order it is produced or consumed (R14). -/
abbrev BitString := List Bool

end Sys2Proof
end

