-- ==== Sys2Proof/Config.lean ====
section
/-! DEFINITION. What one implementation fixes (spec/00_scope.md R8) and the one value the spec leaves open
(spec/10_state.md R22). The parameters a model takes as arguments stand in `Params`, a field of State that no
step changes; the fixed parameters are constants. -/

namespace Sys2Proof

/-- The model's arguments (R8). -/
structure Params where
  /-- OUT_DEPTH, in words. -/
  outDepth : Nat
  /-- SYM_DEPTH, in bytes. -/
  symDepth : Nat
  /-- BASE, the bus address of the window (R60, OPEN). -/
  base : Nat
  deriving DecidableEq, Repr

/-- The ranges R8 gives. -/
abbrev Params.InRange (p : Params) : Prop :=
  33 ≤ p.outDepth ∧ p.outDepth ≤ 255 ∧ 32 ≤ p.symDepth ∧ p.symDepth ≤ 255

namespace Config

/-- NONE_IDX: "no node", "empty tree" (R8). -/
def noneIdx : NodeIdx := 511#9

/-- MAXLEN, the longest code word (R8). -/
def maxLen : Nat := 255

/-- The constant the ID register reads (spec/10_state.md R20). -/
def idWord : Word := 0x48554646#32

/-- PARAMS.REV (R21). -/
def rev : Byte := 0x01#8

/-- PARAMS.FREQ_W (R21): FREQ_W = 32. -/
def freqW : Byte := 0x20#8

/-- OUT_DEPTH and SYM_DEPTH at their defaults (R8); BASE is OPEN, and 0 is the model's choice.
DESIGN CHOICE, log 1 and 2, unsafe for a claim that reads the reset state's parameters. -/
def defaultParams : Params := { outDepth := 64, symDepth := 64, base := 0 }

/-- Bits [31:1] of the n-th STATUS read made while BUSY = 1: a draw (R22, spec/93 U1). A FREE VALUE: it has no
body, so nothing can be proved of it (log 4, safe). -/
opaque statusDraw : Nat → BitVec 31

end Config

end Sys2Proof
end

