-- ==== Sys2Proof/Syntax.lean ====
section
/-! DEFINITION. The commands of the HCC, one constructor per row of spec/opcode_table.json
(spec/30_encoding.md R96). Operand fields are kept as the encoding holds them: `nbMinus1` and `nbitsMinus1` are
the fields NB_MINUS_1 and NBITS_MINUS_1 of the table, and stand for one more than their value (R93, R94, R100). -/

namespace Sys2Proof

/-- A decoded command. -/
inductive Instr where
  /-- NOP (R230). -/
  | nop
  /-- CLEAR (R231). -/
  | clear
  /-- ERRCLR (R232). -/
  | errclr
  /-- CNT: count one symbol (R111). -/
  | cnt (sym : Byte)
  /-- CNTW: count `nbMinus1 + 1` symbols of ARG0 (R112). -/
  | cntw (nbMinus1 : BitVec 2)
  /-- BUILD (R141). -/
  | build
  /-- GENCODES (R170). -/
  | gencodes
  /-- GETCODE: read a code-table entry by symbol (R175). -/
  | getcode (sym : Byte)
  /-- GETENTRY: read a code-table entry by rank (R176). -/
  | getentry (rank : Byte)
  /-- ENC: encode one symbol (R192). -/
  | enc (sym : Byte)
  /-- ENCW: encode `nbMinus1 + 1` symbols of ARG0 (R194). -/
  | encw (nbMinus1 : BitVec 2)
  /-- FLUSH (R195). -/
  | flush
  /-- DEC: decode `nbitsMinus1 + 1` bits of ARG0 (R211). -/
  | dec (nbitsMinus1 : BitVec 5)
  /-- DECEND (R216). -/
  | decend
  /-- DECRST (R217). -/
  | decrst
  /-- NODERD: read one arena entry (R150). -/
  | noderd (idx : NodeIdx)
  /-- NODEWR: write one arena entry (R151). -/
  | nodewr (idx : NodeIdx)
  /-- SETROOT: check and install a tree; 511 is the empty tree (R153). -/
  | setroot (idx : NodeIdx)
  deriving DecidableEq, Repr

end Sys2Proof
end

