-- ==== Sys2Proof/WellFormed.lean ====
section
/-! DEFINITION. Which commands have an encoding (spec/30_encoding.md R95, R98(c)): NODERD and NODEWR take an
index 0 to 510; every other operand field is legal at every value of its width. -/

namespace Sys2Proof

/-- The command has a legal word. -/
def WellFormed : Instr → Bool
  | .noderd idx => idx != Config.noneIdx
  | .nodewr idx => idx != Config.noneIdx
  | .nop | .clear | .errclr | .cnt _ | .cntw _ | .build | .gencodes | .getcode _ | .getentry _
  | .enc _ | .encw _ | .flush | .dec _ | .decend | .decrst | .setroot _ => true

end Sys2Proof
end

