-- ==== Sys2Proof/Decode.lean ====
section
/-! DEFINITION. Command words: the decoder, total on every 32-bit word and refusing by name (spec/30_encoding.md
R90 to R100), then the encoder written from the same tables, and the opcode map itself (R96). -/

namespace Sys2Proof

/-- Why a word is ILLEGAL (R98). -/
inductive Illegal where
  /-- (a) an OP that no row lists. -/
  | unlistedOp
  /-- (b) a reserved bit of the format is nonzero. -/
  | reservedBits
  /-- (c) NODERD or NODEWR with IDX = 511. -/
  | index511
  deriving DecidableEq, Repr

/-- OP = w[31:24] (R90). -/
def opOf (w : Word) : Byte := w.extractLsb' 24 8

/-- Format N: w[23:0] must be 0 (R91). -/
def formatN (w : Word) (i : Instr) : Except Illegal Instr :=
  if w.extractLsb' 0 24 = 0#24 then .ok i else .error .reservedBits

/-- Format S: the operand is w[7:0], w[23:8] must be 0 (R92). -/
def formatS (w : Word) (mk : Byte → Instr) : Except Illegal Instr :=
  if w.extractLsb' 8 16 = 0#16 then .ok (mk (w.extractLsb' 0 8)) else .error .reservedBits

/-- Format W: the field is w[1:0], w[23:2] must be 0 (R93). -/
def formatW (w : Word) (mk : BitVec 2 → Instr) : Except Illegal Instr :=
  if w.extractLsb' 2 22 = 0#22 then .ok (mk (w.extractLsb' 0 2)) else .error .reservedBits

/-- Format B: the field is w[4:0], w[23:5] must be 0 (R94). -/
def formatB (w : Word) (mk : BitVec 5 → Instr) : Except Illegal Instr :=
  if w.extractLsb' 5 19 = 0#19 then .ok (mk (w.extractLsb' 0 5)) else .error .reservedBits

/-- Format I: the operand is w[8:0], w[23:9] must be 0 (R95). -/
def formatI (w : Word) (mk : NodeIdx → Instr) : Except Illegal Instr :=
  if w.extractLsb' 9 15 = 0#15 then .ok (mk (w.extractLsb' 0 9)) else .error .reservedBits

/-- Format I with the row's extra condition IDX ≠ 511 (R95, R96, R98(c)). -/
def formatI510 (w : Word) (mk : NodeIdx → Instr) : Except Illegal Instr :=
  if w.extractLsb' 9 15 = 0#15 then
    if w.extractLsb' 0 9 = Config.noneIdx then .error .index511 else .ok (mk (w.extractLsb' 0 9))
  else .error .reservedBits

/-- Decoding (R96, R97): a row of the opcode map, or the reason the word is ILLEGAL. -/
def decode (w : Word) : Except Illegal Instr :=
  match opOf w with
  | 0x00#8 => formatN w .nop
  | 0x01#8 => formatN w .clear
  | 0x02#8 => formatN w .errclr
  | 0x10#8 => formatS w .cnt
  | 0x11#8 => formatW w .cntw
  | 0x20#8 => formatN w .build
  | 0x30#8 => formatN w .gencodes
  | 0x31#8 => formatS w .getcode
  | 0x32#8 => formatS w .getentry
  | 0x40#8 => formatS w .enc
  | 0x41#8 => formatW w .encw
  | 0x42#8 => formatN w .flush
  | 0x50#8 => formatB w .dec
  | 0x51#8 => formatN w .decend
  | 0x52#8 => formatN w .decrst
  | 0x60#8 => formatI510 w .noderd
  | 0x61#8 => formatI510 w .nodewr
  | 0x62#8 => formatI w .setroot
  | _ => .error .unlistedOp

/-- The bytes of a stored command word. A command word has no byte order of its own (it crosses the bus as one
32-bit datum, R90); `nbits` low bits of `w` are kept, the rest are 0 (log 14). -/
def tableWord (nbits w : Nat) : Word := BitVec.ofNat 32 (w % 2 ^ nbits)

/-- The instruction the decoder reads from an instruction whose bits are `w`, numbered as the opcode table
numbers them. -/
def decodeTableWord (nbits w : Nat) : Option Instr :=
  match decode (tableWord nbits w) with
  | .ok i => some i
  | .error _ => none

/-- The word of a command (R91 to R96). -/
def encode : Instr → Word
  | .nop => 0x00#8 ++ 0#24
  | .clear => 0x01#8 ++ 0#24
  | .errclr => 0x02#8 ++ 0#24
  | .cnt sym => 0x10#8 ++ 0#16 ++ sym
  | .cntw nb => 0x11#8 ++ 0#22 ++ nb
  | .build => 0x20#8 ++ 0#24
  | .gencodes => 0x30#8 ++ 0#24
  | .getcode sym => 0x31#8 ++ 0#16 ++ sym
  | .getentry rank => 0x32#8 ++ 0#16 ++ rank
  | .enc sym => 0x40#8 ++ 0#16 ++ sym
  | .encw nb => 0x41#8 ++ 0#22 ++ nb
  | .flush => 0x42#8 ++ 0#24
  | .dec nbits => 0x50#8 ++ 0#19 ++ nbits
  | .decend => 0x51#8 ++ 0#24
  | .decrst => 0x52#8 ++ 0#24
  | .noderd idx => 0x60#8 ++ 0#15 ++ idx
  | .nodewr idx => 0x61#8 ++ 0#15 ++ idx
  | .setroot idx => 0x62#8 ++ 0#15 ++ idx

/-- A row of the opcode map (R96): a word w selects it when (w AND mask) = pattern and the extra condition
holds. -/
structure OpRow where
  mnemonic : String
  pattern : Word
  mask : Word
  /-- The extra condition IDX ≠ 511 applies. -/
  notIndex511 : Bool
  deriving DecidableEq, Repr

/-- The row of a command in the opcode map (R96). -/
def rowOf : Instr → OpRow
  | .nop => ⟨"NOP", 0x00000000#32, 0xFFFFFFFF#32, false⟩
  | .clear => ⟨"CLEAR", 0x01000000#32, 0xFFFFFFFF#32, false⟩
  | .errclr => ⟨"ERRCLR", 0x02000000#32, 0xFFFFFFFF#32, false⟩
  | .cnt _ => ⟨"CNT", 0x10000000#32, 0xFFFFFF00#32, false⟩
  | .cntw _ => ⟨"CNTW", 0x11000000#32, 0xFFFFFFFC#32, false⟩
  | .build => ⟨"BUILD", 0x20000000#32, 0xFFFFFFFF#32, false⟩
  | .gencodes => ⟨"GENCODES", 0x30000000#32, 0xFFFFFFFF#32, false⟩
  | .getcode _ => ⟨"GETCODE", 0x31000000#32, 0xFFFFFF00#32, false⟩
  | .getentry _ => ⟨"GETENTRY", 0x32000000#32, 0xFFFFFF00#32, false⟩
  | .enc _ => ⟨"ENC", 0x40000000#32, 0xFFFFFF00#32, false⟩
  | .encw _ => ⟨"ENCW", 0x41000000#32, 0xFFFFFFFC#32, false⟩
  | .flush => ⟨"FLUSH", 0x42000000#32, 0xFFFFFFFF#32, false⟩
  | .dec _ => ⟨"DEC", 0x50000000#32, 0xFFFFFFE0#32, false⟩
  | .decend => ⟨"DECEND", 0x51000000#32, 0xFFFFFFFF#32, false⟩
  | .decrst => ⟨"DECRST", 0x52000000#32, 0xFFFFFFFF#32, false⟩
  | .noderd _ => ⟨"NODERD", 0x60000000#32, 0xFFFFFE00#32, true⟩
  | .nodewr _ => ⟨"NODEWR", 0x61000000#32, 0xFFFFFE00#32, true⟩
  | .setroot _ => ⟨"SETROOT", 0x62000000#32, 0xFFFFFE00#32, false⟩

/-- One command of every row, in the table's order. -/
def rowSamples : List Instr :=
  [.nop, .clear, .errclr, .cnt 0, .cntw 0, .build, .gencodes, .getcode 0, .getentry 0, .enc 0, .encw 0, .flush,
    .dec 0, .decend, .decrst, .noderd 0, .nodewr 0, .setroot 0]

/-- The opcode map (R96). -/
def opcodeMap : List OpRow := rowSamples.map rowOf

/-- The word selects the row (R96). -/
def OpRow.selects (r : OpRow) (w : Word) : Bool :=
  (w &&& r.mask) == r.pattern && (!r.notIndex511 || w.extractLsb' 0 9 != Config.noneIdx)

end Sys2Proof
end

