-- ==== Sys2Proof/Machine/State.lean ====
section
/-! DEFINITION. The machine's state as plain data (spec/10_state.md): every element of R20 to R46 that has storage,
grouped by the unit it belongs to, the parameters of spec/00_scope.md R8, and the other side of the bus (what the
host and the environment do next, and what the host has been answered). Then the faults, the refusals and the
reset state (R45, spec/70_reset_and_hazards.md R270 to R272). -/

namespace Sys2Proof.Machine

/-- The error codes (spec/60_exceptions.md R240). `Machine.errBits` gives the 8-bit code. -/
inductive ErrCode where
  | none
  /-- Reserved for the source's kind; never raised (R241). -/
  | emptyInput
  | malformedBitstream
  | truncatedStream
  | lookupError
  | illegalCmd
  | sequence
  | outFull
  | symFull
  | countOverflow
  | badTree
  | readEmpty
  deriving DecidableEq, Repr

/-- KIND of an arena entry (R30); `reserved` is the value 3, which no command stores. -/
inductive Kind where
  | none
  | leaf
  | internal
  | reserved
  deriving DecidableEq, Repr

/-- An arena entry (R30). -/
structure Node where
  kind : Kind
  freq : Word
  left : NodeIdx
  right : NodeIdx
  value : Byte
  deriving DecidableEq, Repr

/-- The entry NONE: all fields 0 (R30). -/
def Node.blank : Node := { kind := .none, freq := 0, left := 0, right := 0, value := 0 }

/-- ARENA[0..510] (R30). -/
abbrev Arena := Vector Node 511

/-- A code-table entry (R33). LEN is the length of BITS, stored once (log 13). -/
structure CtEntry where
  freq : Word
  bits : BitString
  rank : Byte
  deriving DecidableEq, Repr

/-- "No entry": LEN 0, FREQ 0, BITS empty, RANK 0 (R33). -/
def CtEntry.blank : CtEntry := { freq := 0, bits := [], rank := 0 }

/-- The command port and the operand registers (R22 to R25). -/
structure Port where
  busy : Bool
  pending : Word
  err : ErrCode
  errcmd : Word
  arg0 : Word
  arg1 : Word
  deriving DecidableEq, Repr

/-- The result registers (R26, R27). -/
structure Results where
  res0 : Word
  res1 : Word
  res2 : Word
  codew : Vector Word 8
  deriving DecidableEq, Repr

/-- The frequency counter (R28). -/
structure Counter where
  hist : Vector Word 256
  total : Word
  deriving DecidableEq, Repr

/-- The arena and the tree registers (R30, R31). -/
structure Tree where
  arena : Arena
  root : NodeIdx
  nleaf : BitVec 9
  valid : Bool
  empty : Bool
  single : Bool
  deriving DecidableEq, Repr

/-- The code table (R33, R34). -/
structure Codes where
  ct : Vector CtEntry 256
  order : Vector Byte 256
  count : BitVec 9
  valid : Bool
  deriving DecidableEq, Repr

/-- The heap (R35). -/
structure Heap where
  cells : Vector NodeIdx 256
  count : BitVec 9
  deriving DecidableEq, Repr

/-- The bit packer and the OUT FIFO, head first (R36, R40). -/
structure Packer where
  pack : Word
  packcnt : BitVec 5
  bitcnt : BitVec 64
  out : List Word
  deriving DecidableEq, Repr

/-- The decoder and the SYM FIFO, head first (R37, R41). -/
structure Decoder where
  ptr : NodeIdx
  count : Word
  sym : List Byte
  deriving DecidableEq, Repr

/-- What a bus access asks for (spec/20_memory.md R61, R63, R64). The data of a write matters only when the access
has the accepted shape, so it is one word. -/
inductive BusOp where
  | read
  | write (v : Word)
  deriving DecidableEq, Repr

/-- One bus access of the host: a bus address and a size in bytes (R60, R61). -/
structure Access where
  addr : Nat
  size : Nat
  op : BusOp
  deriving DecidableEq, Repr

/-- What happens next outside the machine (spec/00_scope.md R10, R11). -/
inductive Event where
  /-- The host performs a bus access. -/
  | access (a : Access)
  /-- The environment resets the machine. -/
  | reset
  /-- Nothing: this step is left to the machine. -/
  | tick
  deriving DecidableEq, Repr

/-- The answer to a bus access (spec/00_scope.md R12, spec/20_memory.md R61). -/
inductive BusResponse where
  /-- OKAY, to a write. -/
  | writeOkay
  /-- OKAY, to a read, with its value. -/
  | readOkay (v : Word)
  /-- ERROR, to a write. -/
  | writeError
  /-- ERROR, to a read, with the value it returns. -/
  | readError (v : Word)
  /-- The platform's own answer, which the spec leaves open: an access outside the window (R60), or one that a
  reset abandoned (spec/70_reset_and_hazards.md R270). -/
  | byPlatform
  deriving DecidableEq, Repr

/-- The other side of the bus: the model's own fields, no storage of the HCC (log 3, 4). -/
structure Outside where
  /-- The events still to come, first first. -/
  inputs : List Event
  /-- The access that waits on the bus (R62), if one does. -/
  held : Option Access
  /-- The answers given so far, oldest first. -/
  responses : List BusResponse
  /-- The index of the next draw of `Config.statusDraw`. -/
  draws : Nat
  deriving DecidableEq, Repr

/-- The whole machine. -/
structure State where
  params : Params
  port : Port
  results : Results
  counter : Counter
  tree : Tree
  codes : Codes
  heap : Heap
  packer : Packer
  decoder : Decoder
  outside : Outside
  deriving DecidableEq, Repr

/-- The internal conditions the rules show unreachable (spec/00_scope.md R13, spec/93 section 4). The machine stops.
Every one is SAFE: the spec gives no state after it. -/
inductive Fault where
  /-- F1: pop_min with HCOUNT = 0 (raised by BUILD; R128). Safe. -/
  | popEmptyHeap
  /-- F2: push with HCOUNT = 256 (raised by BUILD; R126, R130). Safe. -/
  | pushFullHeap
  /-- F3: a merge sum of 2^32 or more (raised by BUILD; R144). Safe. -/
  | buildSumOverflow
  /-- F4: the code-table walk reaches a NONE entry or index 511 (raised by GENCODES; R171). Safe. -/
  | walkOffTree
  /-- F5: the decoder stands on, or reaches, an entry it cannot stand on (raised by DEC; R212, R260). Safe. -/
  | decodeOffTree
  /-- F6: an arena entry of KIND 3 is found (raised by NODERD, SETROOT, GENCODES, DEC; R152). Safe. -/
  | reservedKind
  /-- F7: a code word longer than 255 bits (raised by GENCODES; R9). Safe. -/
  | codeTooLong
  /-- F8: a completion must latch and finds ERR ≠ 0 (raised by every command that can fail; R245). Safe. -/
  | latchOverError
  /-- A HIST count of 2^32 - 1 would be incremented although TOTAL is smaller (raised by CNT and CNTW; breaks R29,
  R113). DEDUCED, log 6. Safe. -/
  | histOverflow
  /-- A 257th code-table entry would be recorded (raised by GENCODES; breaks R34). DEDUCED, log 6. Safe. -/
  | codeTableFull
  deriving DecidableEq, Repr

/-- Why the model has no meaning for an instruction. No meaning answers with one: every command is modelled. -/
inductive Refusal where
  /-- Raised by an arm of `exec` whose command has no meaning yet; no arm does. Safe. -/
  | notModelled (mnemonic : String)
  deriving DecidableEq, Repr

/-- The command word a reset leaves pending: CLEAR (spec/70_reset_and_hazards.md R272). -/
def resetPending : Word := 0x01000000#32

/-- The machine right after reset (R45, R270 to R272): every element at the value of R45, BUSY = 1 and CLEAR
pending. The parameters are the defaults (log 1, 2); no event is to come and nothing has been answered (log 3). -/
def State.reset : State where
  params := Config.defaultParams
  port := { busy := true, pending := resetPending, err := .none, errcmd := 0, arg0 := 0, arg1 := 0 }
  results := { res0 := 0, res1 := 0, res2 := 0, codew := Vector.replicate 8 0 }
  counter := { hist := Vector.replicate 256 0, total := 0 }
  tree := { arena := Vector.replicate 511 Node.blank, root := Config.noneIdx, nleaf := 0, valid := false,
            empty := false, single := false }
  codes := { ct := Vector.replicate 256 CtEntry.blank, order := Vector.replicate 256 0, count := 0, valid := false }
  heap := { cells := Vector.replicate 256 0, count := 0 }
  packer := { pack := 0, packcnt := 0, bitcnt := 0, out := [] }
  decoder := { ptr := Config.noneIdx, count := 0, sym := [] }
  outside := { inputs := [], held := none, responses := [], draws := 0 }

end Sys2Proof.Machine
end

