-- ==== Sys2Proof/Machine/Ops.lean ====
section
/-! DEFINITION. The shared operations of every command: what a command body can answer, loops over it, access to
the RAMs, command completion with the error latch (spec/60_exceptions.md R244, R245, R259), which is how this
machine takes an exception, and what CLEAR and a reset write (spec/10_state.md R45). -/

namespace Sys2Proof.Machine

/-- What a command body answers (spec/00_scope.md R15): it ran to its end, it raised an error and everything it
wrote is discarded, or it met a condition the rules show unreachable (R13). -/
inductive Body (α : Type) where
  | done (a : α)
  | raised (e : ErrCode)
  | broken (f : Fault)
  deriving DecidableEq, Repr

/-- One part of a body after another: the first `raise` or fault ends it. -/
def Body.andThen {α β : Type} (x : Body α) (f : α → Body β) : Body β :=
  match x with
  | .done a => f a
  | .raised e => .raised e
  | .broken g => .broken g

/-- `for x in xs`, in order. -/
def forEach {α β : Type} (f : β → α → Body α) : List β → α → Body α
  | [], a => .done a
  | x :: xs, a => (f x a).andThen (forEach f xs)

/-- ARENA[i]; nothing at index 511. -/
def nodeAt (a : Arena) (i : NodeIdx) : Option Node := a[i.toNat]?

/-- ARENA[i] where a rule needs a node: NONE and index 511 give the fault `off`, KIND 3 the fault F6
(spec/93 F4, F5, F6). -/
def liveNode (off : Fault) (a : Arena) (i : NodeIdx) : Body Node :=
  match nodeAt a i with
  | none => .broken off
  | some e =>
    match e.kind with
    | .none => .broken off
    | .reserved => .broken .reservedKind
    | .leaf | .internal => .done e

/-- BUSY <- 0, the end of every completion (R244). PENDING stays (log 10). -/
def clearBusy (s : State) : State := { s with port := { s.port with busy := false } }

/-- The state after a failed command: `latch(E, w)` with w = S.PENDING, then BUSY <- 0; nothing else (R244, R245;
log 12). -/
def latched (e : ErrCode) (s : State) : State :=
  { s with port := { s.port with err := e, errcmd := s.port.pending, busy := false } }

/-- A command fails (R245). A completion never finds an error latched; one that did would be the fault F8. -/
def latchError (e : ErrCode) (s : State) : Host.Outcome State Fault Refusal :=
  if s.port.err = .none then .next (latched e s) else .fault .latchOverError

/-- The end of a completion (R244): a body that ran leaves its state, one that raised leaves the state saved before
it, `s`, and latches. -/
def finish (s : State) : Body State → Host.Outcome State Fault Refusal
  | .done t => .next (clearBusy t)
  | .raised e => latchError e s
  | .broken f => .fault f

/-- Completion of a decoded command (R244): the precondition, else SEQUENCE (R259), then the body. -/
def complete (pre : Bool) (body : State → Body State) (s : State) : Host.Outcome State Fault Refusal :=
  if pre then finish s (body s) else latchError .sequence s

/-- Completion of an ILLEGAL word (R97, R244). -/
def completeIllegal (s : State) : Host.Outcome State Fault Refusal := latchError .illegalCmd s

/-- Every element of the table of R45 at its reset value; BUSY and PENDING are left to the caller, the parameters
and the other side of the bus stay. -/
def resetElements (s : State) : State :=
  { State.reset with
    params := s.params
    port := { State.reset.port with busy := s.port.busy, pending := s.port.pending }
    outside := s.outside }

/-- The reset step (spec/70_reset_and_hazards.md R270): R45, BUSY = 1 and CLEAR pending; an access in flight is
abandoned and answered by the platform. -/
def resetStep (s : State) : State :=
  { State.reset with
    params := s.params
    outside := { s.outside with
      held := none
      responses := match s.outside.held with
        | none => s.outside.responses
        | some _ => s.outside.responses ++ [.byPlatform] } }

end Sys2Proof.Machine
end

