-- ==== Sys2Proof/Machine/Flags.lean ====
section
/-! DEFINITION. Flags and status: the error codes as bits (spec/60_exceptions.md R240), the STATUS word
(spec/10_state.md R22) and the preconditions (R259). -/

namespace Sys2Proof.Machine

/-- The 8-bit code of an error (R240). -/
def errBits : ErrCode → Byte
  | .none => 0x00#8
  | .emptyInput => 0x01#8
  | .malformedBitstream => 0x02#8
  | .truncatedStream => 0x03#8
  | .lookupError => 0x04#8
  | .illegalCmd => 0x10#8
  | .sequence => 0x11#8
  | .outFull => 0x12#8
  | .symFull => 0x13#8
  | .countOverflow => 0x14#8
  | .badTree => 0x15#8
  | .readEmpty => 0x16#8

/-- STATUS.DEC_AT_ROOT: 1 iff TREE_VALID = 1 and DEC_PTR = ROOT (R22). -/
def decAtRoot (s : State) : Bool := s.tree.valid && s.decoder.ptr == s.tree.root

/-- STATUS while BUSY = 0 (R22). -/
def statusIdle (s : State) : Word :=
  BitVec.ofNat 8 s.decoder.sym.length ++ BitVec.ofNat 8 s.packer.out.length ++ errBits s.port.err ++ 0#2
    ++ BitVec.ofBool (decAtRoot s) ++ BitVec.ofBool s.codes.valid ++ BitVec.ofBool s.tree.single
    ++ BitVec.ofBool s.tree.empty ++ BitVec.ofBool s.tree.valid ++ 0#1

/-- The n-th STATUS read made while BUSY = 1: bit 0 reads 1, bits [31:1] are a draw (R22, spec/93 U1). -/
def statusBusy (n : Nat) : Word := Config.statusDraw n ++ 1#1

/-- The precondition of GENCODES, DEC, DECEND and DECRST (R259). -/
def needsTree (s : State) : Bool := s.tree.valid

/-- The precondition of GETCODE, GETENTRY, ENC and ENCW (R259). -/
def needsCodes (s : State) : Bool := s.codes.valid

end Sys2Proof.Machine
end

