-- ==== Sys2Proof/Machine/Operands.lean ====
section
/-! DEFINITION. Every operand form (spec/30_encoding.md R100): the byte lanes of ARG0 (spec/20_memory.md R74), its
bits MSB first (R75), and the node word of ARG1 (spec/10_state.md R42, spec/42_tree_builder.md R152). -/

namespace Sys2Proof.Machine

/-- Lane k of ARG0 (R74). -/
def lane (w : Word) (k : Nat) : Byte := w.extractLsb' (8 * k) 8

/-- Lanes 0 to NB - 1 in processing order, NB = field + 1 (R74, R93). -/
def lanes (w : Word) (nbMinus1 : BitVec 2) : List Byte := (List.range (nbMinus1.toNat + 1)).map (lane w)

/-- ARG0[31], ARG0[30], …, ARG0[32 - NBITS], NBITS = field + 1 (R75, R94). -/
def argBits (w : Word) (nbitsMinus1 : BitVec 5) : BitString :=
  (List.range (nbitsMinus1.toNat + 1)).map fun k => w.getLsbD (31 - k)

/-- The two KIND bits (R30). -/
def kindBits : Kind → BitVec 2
  | .none => 0#2
  | .leaf => 1#2
  | .internal => 2#2
  | .reserved => 3#2

/-- KIND from its two bits (R30, R42). -/
def kindOf (b : BitVec 2) : Kind :=
  match b with
  | 0#2 => .none
  | 1#2 => .leaf
  | 2#2 => .internal
  | _ => .reserved

/-- nodeword(e) (R42). -/
def nodeWord (e : Node) : Word := kindBits e.kind ++ 0#3 ++ e.left ++ e.right ++ 0#1 ++ e.value

/-- The entry a node word and a FREQ stand for (R42, R151). -/
def nodeOfWord (nw f : Word) : Node where
  kind := kindOf (nw.extractLsb' 30 2)
  freq := f
  left := nw.extractLsb' 18 9
  right := nw.extractLsb' 9 9
  value := nw.extractLsb' 0 8

/-- The fields a KIND does not use are 0, and the KIND is not 3 (R30). -/
def Node.canonical (e : Node) : Bool :=
  match e.kind with
  | .none => e.freq == 0 && e.left == 0 && e.right == 0 && e.value == 0
  | .leaf => e.left == 0 && e.right == 0
  | .internal => e.value == 0
  | .reserved => false

/-- legal_nodeword(nw, f) (R152). -/
def legalNodeWord (nw f : Word) : Bool :=
  nw.extractLsb' 27 3 == 0#3 && nw.extractLsb' 8 1 == 0#1 && (nodeOfWord nw f).canonical

/-- Bits p[0], p[1], … placed at bits 31 - j, 31 - (j + 1), … of a word. -/
def placeBits : Nat → BitString → Word
  | _, [] => 0#32
  | j, b :: bs => ((BitVec.setWidth 32 (BitVec.ofBool b)) <<< (31 - j)) ||| placeBits (j + 1) bs

/-- CODEWk of codew_layout(p): bits 32k to 32k + 31 of p, first bit in bit 31 (spec/43_code_table.md R178). -/
def codewWord (p : BitString) (k : Nat) : Word := placeBits 0 ((p.drop (32 * k)).take 32)

/-- codew_layout(p) (R178). -/
def codewLayout (p : BitString) : Vector Word 8 :=
  #v[codewWord p 0, codewWord p 1, codewWord p 2, codewWord p 3, codewWord p 4, codewWord p 5, codewWord p 6,
    codewWord p 7]

end Sys2Proof.Machine
end

