-- ==== Sys2Proof/Machine/CodeTable.lean ====
section
/-! DEFINITION. GENCODES, GETCODE and GETENTRY (spec/43_code_table.md). -/

namespace Sys2Proof.Machine

/-- LEN of an entry (R33): the length of its BITS. -/
def CtEntry.len (e : CtEntry) : Nat := e.bits.length

/-- The cleared code table GENCODES starts from (R170). -/
def Codes.cleared (c : Codes) : Codes :=
  { c with ct := Vector.replicate 256 CtEntry.blank, order := Vector.replicate 256 0, count := 0 }

/-- record(v, f, p) (R170). A code word over 255 bits is the fault F7; a 257th record is a fault (log 6). -/
def record (v : Byte) (f : Word) (p : BitString) (c : Codes) : Body Codes :=
  if Config.maxLen < p.length then .broken .codeTooLong
  else if 256 ≤ c.count.toNat then .broken .codeTableFull
  else
    .done { c with
      ct := c.ct.set v.toNat { freq := f, bits := p, rank := c.count.setWidth 8 }
      order := c.order.setIfInBounds c.count.toNat v
      count := c.count + 1#9 }

/-- walk(i, p) (R171): LEFT with bit 0, then RIGHT with bit 1. `fuel` bounds the depth: it starts at 256, so it runs
out exactly at a path of 256 bits, where every leaf would have a code word over 255 bits (F7; log 15). -/
def walk (a : Arena) : Nat → NodeIdx → BitString → Codes → Body Codes
  | 0, _, _, _ => .broken .codeTooLong
  | fuel + 1, i, p, c =>
    (liveNode .walkOffTree a i).andThen fun e =>
      if e.kind = .leaf then record e.value e.freq p c
      else (walk a fuel e.left (p ++ [false]) c).andThen fun c' => walk a fuel e.right (p ++ [true]) c'

/-- The new code table of GENCODES (R170, R172). -/
def genCodes (t : Tree) (c : Codes) : Body Codes :=
  if t.empty then .done c.cleared
  else if t.single then
    (liveNode .walkOffTree t.arena t.root).andThen fun e => record e.value e.freq [false] c.cleared
  else walk t.arena 256 t.root [] c.cleared

/-- The body of GENCODES (R170). -/
def gencodesBody (s : State) : Body State :=
  (genCodes s.tree s.codes).andThen fun c => .done { s with codes := { c with valid := true } }

/-- GENCODES (R170). -/
def execGencodes (s : State) : Host.Outcome State Fault Refusal := complete (needsTree s) gencodesBody s

/-- put_entry(valid, s, f, p, k) (R177). -/
def putEntry (valid : Bool) (sym : Byte) (f : Word) (p : BitString) (k : Byte) : Results where
  res0 := BitVec.ofBool valid ++ 0#15 ++ sym ++ BitVec.ofNat 8 p.length
  res1 := f
  res2 := k.setWidth 32
  codew := codewLayout p

/-- The results of GETCODE (R175); an absent entry reads VALID = 0. -/
def getcodeResults (c : Codes) (sym : Byte) : Results :=
  let e := c.ct[sym.toNat]
  if e.len = 0 then putEntry false sym 0 [] 0 else putEntry true sym e.freq e.bits e.rank

/-- GETCODE (R175). -/
def execGetcode (sym : Byte) (s : State) : Host.Outcome State Fault Refusal :=
  complete (needsCodes s) (fun s => .done { s with results := getcodeResults s.codes sym }) s

/-- The results of GETENTRY (R176); a rank past the table reads VALID = 0. -/
def getentryResults (c : Codes) (rank : Byte) : Results :=
  if c.count.toNat ≤ rank.toNat then
    { res0 := 0, res1 := 0, res2 := rank.setWidth 32, codew := Vector.replicate 8 0 }
  else
    let sym := c.order[rank.toNat]
    let e := c.ct[sym.toNat]
    putEntry true sym e.freq e.bits rank

/-- GETENTRY (R176). -/
def execGetentry (rank : Byte) (s : State) : Host.Outcome State Fault Refusal :=
  complete (needsCodes s) (fun s => .done { s with results := getentryResults s.codes rank }) s

end Sys2Proof.Machine
end

