-- ==== Sys2Proof/Machine/Control.lean ====
section
/-! DEFINITION. NOP, CLEAR and ERRCLR (spec/46_control.md). None has a precondition and none fails. -/

namespace Sys2Proof.Machine

/-- NOP (R230): the completion only clears BUSY. -/
def execNop (s : State) : Host.Outcome State Fault Refusal := complete true .done s

/-- CLEAR (R231): every element of R45 at its reset value. -/
def execClear (s : State) : Host.Outcome State Fault Refusal :=
  complete true (fun s => .done (resetElements s)) s

/-- ERRCLR (R232, spec/60_exceptions.md R250): the HCC's return from an error. -/
def execErrclr (s : State) : Host.Outcome State Fault Refusal :=
  complete true (fun s => .done { s with port := { s.port with err := .none, errcmd := 0 } }) s

end Sys2Proof.Machine
end

