-- ==== Sys2Proof/Machine/Counter.lean ====
section
/-! DEFINITION. CNT and CNTW (spec/40_frequency_counter.md). They touch the counter alone (R114). -/

namespace Sys2Proof.Machine

/-- Count one symbol (R111, R113). An increment of HIST[s] at 2^32 - 1 with a smaller TOTAL cannot happen (R29) and is
a fault (log 6). -/
def countOne (sym : Byte) (c : Counter) : Body Counter :=
  if c.total = 0xFFFFFFFF#32 then .raised .countOverflow
  else if c.hist[sym.toNat] = 0xFFFFFFFF#32 then .broken .histOverflow
  else .done { hist := c.hist.set sym.toNat (c.hist[sym.toNat] + 1#32), total := c.total + 1#32 }

/-- A body that counts the symbols in order (R111, R112). -/
def countBody (syms : List Byte) (s : State) : Body State :=
  (forEach countOne syms s.counter).andThen fun c => .done { s with counter := c }

/-- CNT (R111). -/
def execCnt (sym : Byte) (s : State) : Host.Outcome State Fault Refusal := complete true (countBody [sym]) s

/-- CNTW (R112). -/
def execCntw (nbMinus1 : BitVec 2) (s : State) : Host.Outcome State Fault Refusal :=
  complete true (countBody (lanes s.port.arg0 nbMinus1)) s

end Sys2Proof.Machine
end

