-- ==== Sys2Proof/Machine/DecoderUnit.lean ====
section
/-! DEFINITION. DEC, DECEND and DECRST (spec/45_decoder.md). The decoder reads KIND, LEFT, RIGHT and VALUE of arena
entries, ROOT and the tree flags, never FREQ (R220). -/

namespace Sys2Proof.Machine

/-- emit(v) (R215); a full SYM raises SYM_FULL. -/
def emit (depth : Nat) (v : Byte) (d : Decoder) : Body Decoder :=
  if d.sym.length = depth then .raised .symFull
  else .done { d with sym := d.sym ++ [v], count := d.count + 1#32 }

/-- decode_bit(b) on a tree of two or more leaves (R212). A DEC_PTR that names no INTERNAL entry, or a child that is
no node, is the fault F5. -/
def stepBit (depth : Nat) (t : Tree) (b : Bool) (d : Decoder) : Body Decoder :=
  (liveNode .decodeOffTree t.arena d.ptr).andThen fun e =>
    if e.kind = .leaf then .broken .decodeOffTree
    else
      (liveNode .decodeOffTree t.arena (if b then e.right else e.left)).andThen fun e' =>
        if e'.kind = .leaf then emit depth e'.value { d with ptr := t.root }
        else .done { d with ptr := if b then e.right else e.left }

/-- decode_bit(b) on a single-leaf tree (R213): a 1 bit is malformed, a 0 bit emits the leaf's symbol. -/
def singleBit (depth : Nat) (t : Tree) (b : Bool) (d : Decoder) : Body Decoder :=
  if b then .raised .malformedBitstream
  else (liveNode .decodeOffTree t.arena t.root).andThen fun e => emit depth e.value d

/-- decode_bit(b) (R212, R213, R214). -/
def decodeBit (depth : Nat) (t : Tree) (b : Bool) (d : Decoder) : Body Decoder :=
  if t.empty then .raised .malformedBitstream
  else if t.single then singleBit depth t b d
  else stepBit depth t b d

/-- A body that decodes the bits in order (R211). -/
def decodeBody (bits : BitString) (s : State) : Body State :=
  (forEach (decodeBit s.params.symDepth s.tree) bits s.decoder).andThen fun d => .done { s with decoder := d }

/-- DEC (R211). -/
def execDec (nbitsMinus1 : BitVec 5) (s : State) : Host.Outcome State Fault Refusal :=
  complete (needsTree s) (decodeBody (argBits s.port.arg0 nbitsMinus1)) s

/-- The body of DECEND (R216). -/
def decendBody (s : State) : Body State :=
  if !s.tree.empty && !s.tree.single && s.decoder.ptr != s.tree.root then .raised .truncatedStream else .done s

/-- DECEND (R216). -/
def execDecend (s : State) : Host.Outcome State Fault Refusal := complete (needsTree s) decendBody s

/-- DECRST (R217). -/
def execDecrst (s : State) : Host.Outcome State Fault Refusal :=
  complete (needsTree s) (fun s => .done { s with decoder := { s.decoder with ptr := s.tree.root, count := 0 } }) s

end Sys2Proof.Machine
end

