-- ==== Sys2Proof/Machine/Encoder.lean ====
section
/-! DEFINITION. ENC, ENCW, FLUSH and the bit packer (spec/44_encoder.md). -/

namespace Sys2Proof.Machine

/-- PACK with bit j set to b. -/
def assignBit (w : Word) (j : Nat) (b : Bool) : Word :=
  if b then w ||| BitVec.twoPow 32 j else w &&& ~~~(BitVec.twoPow 32 j)

/-- append_bit(b) (R190); a word that completes into a full OUT raises OUT_FULL. -/
def appendBit (depth : Nat) (b : Bool) (p : Packer) : Body Packer :=
  let w := assignBit p.pack (31 - p.packcnt.toNat) b
  if p.packcnt.toNat + 1 = 32 then
    if p.out.length = depth then .raised .outFull
    else .done { pack := 0, packcnt := 0, bitcnt := p.bitcnt + 1#64, out := p.out ++ [w] }
  else .done { p with pack := w, packcnt := p.packcnt + 1#5, bitcnt := p.bitcnt + 1#64 }

/-- encode_symbol(s) (R191); a symbol with no entry raises LOOKUP_ERROR. -/
def encodeSymbol (depth : Nat) (c : Codes) (sym : Byte) (p : Packer) : Body Packer :=
  let e := c.ct[sym.toNat]
  if e.len = 0 then .raised .lookupError else forEach (appendBit depth) e.bits p

/-- A body that encodes the symbols in order (R192, R194). -/
def encodeBody (syms : List Byte) (s : State) : Body State :=
  (forEach (encodeSymbol s.params.outDepth s.codes) syms s.packer).andThen fun p => .done { s with packer := p }

/-- ENC (R192). -/
def execEnc (sym : Byte) (s : State) : Host.Outcome State Fault Refusal :=
  complete (needsCodes s) (encodeBody [sym]) s

/-- ENCW (R194). -/
def execEncw (nbMinus1 : BitVec 2) (s : State) : Host.Outcome State Fault Refusal :=
  complete (needsCodes s) (encodeBody (lanes s.port.arg0 nbMinus1)) s

/-- The body of FLUSH (R195): push the partial word, zero-padded. -/
def flushBody (s : State) : Body State :=
  if s.packer.packcnt = 0#5 then .done s
  else if s.packer.out.length = s.params.outDepth then .raised .outFull
  else .done { s with packer := { s.packer with
    pack := 0, packcnt := 0, out := s.packer.out ++ [s.packer.pack] } }

/-- FLUSH (R195). -/
def execFlush (s : State) : Host.Outcome State Fault Refusal := complete true flushBody s

end Sys2Proof.Machine
end

