-- ==== Sys2Proof/Machine/PriorityQueue.lean ====
section
/-! DEFINITION. The priority queue (spec/41_priority_queue.md): a binary array-heap of arena indices ordered by
(FREQ, index). Its operations are micro-operations of BUILD. The arrangement of HEAP is not observable (R129); the
model follows the procedures of R123 to R127. -/

namespace Sys2Proof.Machine

/-- HEAP[0..255] (R35). -/
abbrev HeapCells := Vector NodeIdx 256

/-- ARENA[i].FREQ. BUILD puts only indices of entries it has written into the heap, and so asks it only for indices
below 511. -/
def freqAt (a : Arena) (i : NodeIdx) : Word :=
  match nodeAt a i with
  | some e => e.freq
  | none => 0#32

/-- less(i, j) (R120). -/
def less (a : Arena) (i j : NodeIdx) : Bool :=
  decide (freqAt a i < freqAt a j) || (freqAt a i == freqAt a j && decide (i < j))

/-- HEAP[j]; j is below 256 wherever a rule reads it. -/
def cell (cells : HeapCells) (j : Nat) : NodeIdx := (cells[j]?).getD Config.noneIdx

/-- Exchange HEAP[p] and HEAP[m]. -/
def swapCells (c : HeapCells) (p m : Nat) : HeapCells :=
  (c.setIfInBounds p (cell c m)).setIfInBounds m (cell c p)

/-- The position sift_down moves to from p, or p itself (the body of the loop of R123); `n` is HCOUNT. -/
def smallestChild (a : Arena) (n : Nat) (c : HeapCells) (p : Nat) : Nat :=
  let m := if 2 * p + 1 < n && less a (cell c (2 * p + 1)) (cell c p) then 2 * p + 1 else p
  if 2 * p + 2 < n && less a (cell c (2 * p + 2)) (cell c m) then 2 * p + 2 else m

/-- sift_down(p) (R123); `n` is HCOUNT. The position grows on every turn, so 256 turns are more than the loop
can take (log 15). -/
def siftDown (a : Arena) (n : Nat) : Nat → Nat → HeapCells → HeapCells
  | 0, _, c => c
  | fuel + 1, p, c =>
    if smallestChild a n c p = p then c
    else siftDown a n fuel (smallestChild a n c p) (swapCells c p (smallestChild a n c p))

/-- sift_up(c) (R124); the position shrinks on every turn. -/
def siftUp (a : Arena) : Nat → Nat → HeapCells → HeapCells
  | 0, _, c => c
  | fuel + 1, p, c =>
    if p = 0 then c
    else if less a (cell c p) (cell c ((p - 1) / 2)) then siftUp a fuel ((p - 1) / 2) (swapCells c p ((p - 1) / 2))
    else c

/-- HEAP[j], HEAP[j + 1], … <- the list. -/
def fillCells : Nat → List NodeIdx → HeapCells → HeapCells
  | _, [], c => c
  | j, i :: is, c => fillCells (j + 1) is (c.setIfInBounds j i)

/-- `for p in k - 1 down to 0: sift_down(p)`. -/
def siftAll (a : Arena) (n : Nat) : Nat → HeapCells → HeapCells
  | 0, c => c
  | k + 1, c => siftAll a n k (siftDown a n 256 k c)

/-- heapify(list) (R125). -/
def heapify (a : Arena) (is : List NodeIdx) (h : Heap) : Heap where
  cells := siftAll a is.length (is.length / 2) (fillCells 0 is h.cells)
  count := BitVec.ofNat 9 is.length

/-- push(i) (R126); a push at HCOUNT = 256 is the fault F2. -/
def push (a : Arena) (i : NodeIdx) (h : Heap) : Body Heap :=
  if h.count.toNat < 256 then
    .done { cells := siftUp a 256 h.count.toNat (h.cells.setIfInBounds h.count.toNat i), count := h.count + 1#9 }
  else .broken .pushFullHeap

/-- pop_min() (R127): the least element and the heap without it; on an empty heap the fault F1 (R128). -/
def popMin (a : Arena) (h : Heap) : Body (NodeIdx × Heap) :=
  if h.count = 0#9 then .broken .popEmptyHeap
  else if h.count = 1#9 then .done (cell h.cells 0, { h with count := 0#9 })
  else
    .done (cell h.cells 0,
      { cells := siftDown a (h.count - 1#9).toNat 256 0
          (h.cells.setIfInBounds 0 (cell h.cells (h.count - 1#9).toNat))
        count := h.count - 1#9 })

end Sys2Proof.Machine
end

