-- ==== Sys2Proof/Machine/TreeBuilder.lean ====
section
/-! DEFINITION. BUILD, NODERD, NODEWR and SETROOT (spec/42_tree_builder.md). LEFT is the child reached by bit 0 and
RIGHT the one reached by bit 1 (R149). -/

namespace Sys2Proof.Machine

/-- An entry of KIND LEAF (R140). -/
def Node.mkLeaf (f : Word) (v : Byte) : Node := { kind := .leaf, freq := f, left := 0, right := 0, value := v }

/-- An entry of KIND INTERNAL (R140). -/
def Node.mkInternal (f : Word) (l r : NodeIdx) : Node := { kind := .internal, freq := f, left := l, right := r, value := 0 }

/-- The loop of build_leaves() (R142) over HIST[s], HIST[s + 1], …: one leaf per counted symbol at the next free
index `n`. Answers the arena and the number of leaves. -/
def layLeaves : List Word → Nat → Nat → Arena → Arena × Nat
  | [], _, n, a => (a, n)
  | f :: fs, s, n, a =>
    if f = 0#32 then layLeaves fs (s + 1) n a
    else layLeaves fs (s + 1) (n + 1) (a.setIfInBounds n (Node.mkLeaf f (BitVec.ofNat 8 s)))

/-- build_leaves() (R142), on a cleared arena (R146). -/
def buildLeaves (hist : Vector Word 256) : Arena × Nat :=
  layLeaves hist.toList 0 0 (Vector.replicate 511 Node.blank)

/-- One turn of the merge loop (R143): pop a, pop b, write INTERNAL{a + b, LEFT b, RIGHT a} at `next`, push it. A sum
of 2^32 or more is the fault F3 (R144). -/
def mergeOnce (next : Nat) (a : Arena) (h : Heap) : Body (Arena × Heap) :=
  (popMin a h).andThen fun x =>
  (popMin a x.2).andThen fun y =>
  if 2 ^ 32 ≤ (freqAt a x.1).toNat + (freqAt a y.1).toNat then .broken .buildSumOverflow
  else
    let a' : Arena := a.setIfInBounds next (Node.mkInternal (freqAt a x.1 + freqAt a y.1) y.1 x.1)
    (push a' (BitVec.ofNat 9 next) y.2).andThen fun h' => .done (a', h')

/-- The merge loop (R143). Every turn lowers HCOUNT by one (R130), so HCOUNT turns are enough (log 15). -/
def mergeLoop : Nat → Nat → Arena → Heap → Body (Arena × Heap)
  | 0, _, a, h => .done (a, h)
  | fuel + 1, next, a, h =>
    if h.count.toNat ≤ 1 then .done (a, h)
    else (mergeOnce next a h).andThen fun x => mergeLoop fuel (next + 1) x.1 x.2

/-- merge() on n ≥ 2 leaves (R143): the arena, the heap left empty, and the root. -/
def mergeLeaves (n : Nat) (a : Arena) (h : Heap) : Body (Arena × Heap × NodeIdx) :=
  (mergeLoop n n a (heapify a ((List.range n).map (BitVec.ofNat 9)) h)).andThen fun x =>
  (popMin x.1 x.2).andThen fun r => .done (x.1, r.2, r.1)

/-- The state writes of R147. -/
def installBuilt (n : Nat) (root : NodeIdx) (a : Arena) (h : Heap) (s : State) : State :=
  { s with
    tree := { arena := a, root := root, nleaf := BitVec.ofNat 9 n, valid := true, empty := n == 0, single := n == 1 }
    codes := { s.codes with valid := false }
    heap := h
    decoder := { s.decoder with ptr := root, count := 0 } }

/-- The body of BUILD (R141, R147, R148). -/
def buildBody (s : State) : Body State :=
  let b := buildLeaves s.counter.hist
  if b.2 = 0 then .done (installBuilt 0 Config.noneIdx b.1 s.heap s)
  else if b.2 = 1 then .done (installBuilt 1 0#9 b.1 s.heap s)
  else (mergeLeaves b.2 b.1 s.heap).andThen fun x => .done (installBuilt b.2 x.2.2 x.1 x.2.1 s)

/-- BUILD (R141). -/
def execBuild (s : State) : Host.Outcome State Fault Refusal := complete true buildBody s

/-- The body of NODERD (R150). Index 511 has no word (R98(c)); the rule's error for it is ILLEGAL_CMD (log 16). An entry of
KIND 3 is the fault F6. -/
def noderdBody (idx : NodeIdx) (s : State) : Body State :=
  match nodeAt s.tree.arena idx with
  | none => .raised .illegalCmd
  | some e =>
    if e.kind = .reserved then .broken .reservedKind
    else .done { s with results := { s.results with
      res0 := nodeWord e, res1 := e.freq, res2 := idx.setWidth 32 } }

/-- NODERD (R150). -/
def execNoderd (idx : NodeIdx) (s : State) : Host.Outcome State Fault Refusal := complete true (noderdBody idx) s

/-- The body of NODEWR (R151): the operands must be a legal node word, else ILLEGAL_CMD (R152); a write clears the
tree and code flags. -/
def nodewrBody (idx : NodeIdx) (s : State) : Body State :=
  if idx = Config.noneIdx then .raised .illegalCmd
  else if legalNodeWord s.port.arg1 s.port.arg0 then
    .done { s with
      tree := { s.tree with
        arena := s.tree.arena.setIfInBounds idx.toNat (nodeOfWord s.port.arg1 s.port.arg0)
        valid := false, empty := false, single := false }
      codes := { s.codes with valid := false } }
  else .raised .illegalCmd

/-- NODEWR (R151). -/
def execNodewr (idx : NodeIdx) (s : State) : Host.Outcome State Fault Refusal := complete true (nodewrBody idx) s

/-- The work of tree_ok (R154): the indices visited, the leaf values met, and the indices still to visit. -/
structure TreeWork where
  visited : List NodeIdx
  values : List Byte
  work : List NodeIdx
  deriving DecidableEq, Repr

/-- What one turn of tree_ok says: go on, or the tree is not valid. -/
def treeTurn (a : Arena) (i : NodeIdx) (w : TreeWork) : Body (Option TreeWork) :=
  if i ∈ w.visited then .done none
  else
    match nodeAt a i with
    | none => .done none
    | some e =>
      match e.kind with
      | .none => .done none
      | .reserved => .broken .reservedKind
      | .leaf =>
        if e.freq = 0#32 || e.value ∈ w.values then .done none
        else .done (some { w with visited := i :: w.visited, values := e.value :: w.values })
      | .internal =>
        match nodeAt a e.left, nodeAt a e.right with
        | some l, some r =>
          if l.freq.toNat + r.freq.toNat = e.freq.toNat then
            .done (some { w with visited := i :: w.visited, work := w.work ++ [e.left, e.right] })
          else .done none
        | _, _ => .done none

/-- The loop of tree_ok (R154): the number of leaves, or none. `visited` grows on every turn that goes on, so after
511 turns a further index is 511 or visited and the answer is none (log 15). -/
def treeLoop (a : Arena) : Nat → TreeWork → Body (Option Nat)
  | 0, w => .done (if w.work = [] then some w.values.length else none)
  | fuel + 1, w =>
    match w.work with
    | [] => .done (some w.values.length)
    | i :: rest =>
      (treeTurn a i { w with work := rest }).andThen fun x =>
        match x with
        | none => .done none
        | some w' => treeLoop a fuel w'

/-- tree_ok(r) (R154): the number of leaves of a valid tree. -/
def treeOk (a : Arena) (r : NodeIdx) : Body (Option Nat) :=
  treeLoop a 511 { visited := [], values := [], work := [r] }

/-- install_empty() (R155). -/
def installEmpty (s : State) : State :=
  { s with
    tree := { s.tree with root := Config.noneIdx, nleaf := 0, valid := true, empty := true, single := false }
    codes := { s.codes with valid := false }
    decoder := { s.decoder with ptr := Config.noneIdx, count := 0 } }

/-- install(r, leaves) (R156). -/
def installTree (r : NodeIdx) (leaves : Nat) (s : State) : State :=
  { s with
    tree := { s.tree with
      root := r, nleaf := BitVec.ofNat 9 leaves, valid := true, empty := false
      single := ((nodeAt s.tree.arena r).map Node.kind) == some .leaf }
    codes := { s.codes with valid := false }
    decoder := { s.decoder with ptr := r, count := 0 } }

/-- The body of SETROOT (R153). -/
def setrootBody (idx : NodeIdx) (s : State) : Body State :=
  if idx = Config.noneIdx then .done (installEmpty s)
  else
    (treeOk s.tree.arena idx).andThen fun x =>
      match x with
      | none => .raised .badTree
      | some leaves => .done (installTree idx leaves s)

/-- SETROOT (R153). -/
def execSetroot (idx : NodeIdx) (s : State) : Host.Outcome State Fault Refusal := complete true (setrootBody idx) s

end Sys2Proof.Machine
end

