-- ==== Sys2Proof/Machine/Dispatch.lean ====
section
/-! DEFINITION. One arm per command: the completion of a decoded command (spec/60_exceptions.md R244). -/

namespace Sys2Proof.Machine

def exec (i : Instr) (s : State) : Host.Outcome State Fault Refusal :=
  match i with
  | .nop => Sys2Proof.Machine.execNop s
  | .clear => Sys2Proof.Machine.execClear s
  | .errclr => Sys2Proof.Machine.execErrclr s
  | .cnt sym => Sys2Proof.Machine.execCnt sym s
  | .cntw nb => Sys2Proof.Machine.execCntw nb s
  | .build => Sys2Proof.Machine.execBuild s
  | .gencodes => Sys2Proof.Machine.execGencodes s
  | .getcode sym => Sys2Proof.Machine.execGetcode sym s
  | .getentry rank => Sys2Proof.Machine.execGetentry rank s
  | .enc sym => Sys2Proof.Machine.execEnc sym s
  | .encw nb => Sys2Proof.Machine.execEncw nb s
  | .flush => Sys2Proof.Machine.execFlush s
  | .dec nbits => Sys2Proof.Machine.execDec nbits s
  | .decend => Sys2Proof.Machine.execDecend s
  | .decrst => Sys2Proof.Machine.execDecrst s
  | .noderd idx => Sys2Proof.Machine.execNoderd idx s
  | .nodewr idx => Sys2Proof.Machine.execNodewr idx s
  | .setroot idx => Sys2Proof.Machine.execSetroot idx s

end Sys2Proof.Machine
end

