-- ==== Sys2Proof/Machine/Bus.lean ====
section
/-! DEFINITION. The register window (spec/20_memory.md): the map, what a read returns and does, what a write does,
which accesses BUSY holds, and the answer the bus gives. -/

namespace Sys2Proof.Machine

/-- The words of the window (R65). -/
inductive Reg where
  | id | params | status | errcmd | cmd | arg0 | arg1 | res0 | res1 | res2
  | codew (k : Nat)
  | outData | symData | total | bitcntLo | bitcntHi | decCount | pack | packcnt | treeinfo | decstat | codeinfo
  | hist (sym : Byte)
  | reserved
  deriving DecidableEq, Repr

/-- The register map (R65, R66): the word at a byte offset that is a multiple of 4 below 0x800. -/
def regAt (off : Nat) : Reg :=
  if off = 0x000 then .id
  else if off = 0x004 then .params
  else if off = 0x008 then .status
  else if off = 0x00C then .errcmd
  else if off = 0x010 then .cmd
  else if off = 0x014 then .arg0
  else if off = 0x018 then .arg1
  else if off = 0x020 then .res0
  else if off = 0x024 then .res1
  else if off = 0x028 then .res2
  else if 0x030 ≤ off ∧ off < 0x050 then .codew ((off - 0x030) / 4)
  else if off = 0x050 then .outData
  else if off = 0x054 then .symData
  else if off = 0x058 then .total
  else if off = 0x05C then .bitcntLo
  else if off = 0x060 then .bitcntHi
  else if off = 0x064 then .decCount
  else if off = 0x068 then .pack
  else if off = 0x06C then .packcnt
  else if off = 0x070 then .treeinfo
  else if off = 0x074 then .decstat
  else if off = 0x078 then .codeinfo
  else if 0x400 ≤ off then .hist (BitVec.ofNat 8 ((off - 0x400) / 4))
  else .reserved

/-- PARAMS (spec/10_state.md R21). -/
def paramsWord (p : Params) : Word :=
  Config.rev ++ Config.freqW ++ BitVec.ofNat 8 p.symDepth ++ BitVec.ofNat 8 p.outDepth

/-- TREEINFO (R43): ROOT in [8:0], NLEAF in [24:16]. -/
def treeinfoWord (t : Tree) : Word := 0#7 ++ t.nleaf ++ 0#7 ++ t.root

/-- Latch READ_EMPTY with the offset read, unless an error is latched (R70, R71, spec/60_exceptions.md R246, R247). -/
def latchRead (off : Word) (s : State) : State :=
  if s.port.err = .none then { s with port := { s.port with err := .readEmpty, errcmd := off } } else s

/-- A read of OUT_DATA (R70): the value and the state after. -/
def readOut (s : State) : Word × State :=
  match s.packer.out with
  | w :: ws => (w, { s with packer := { s.packer with out := ws } })
  | [] => (0#32, latchRead 0x050#32 s)

/-- A read of SYM_DATA (R71). -/
def readSym (s : State) : Word × State :=
  match s.decoder.sym with
  | b :: bs => (b.setWidth 32, { s with decoder := { s.decoder with sym := bs } })
  | [] => (0#32, latchRead 0x054#32 s)

/-- A read of STATUS (spec/10_state.md R22): exact while BUSY = 0, a fresh draw in bits [31:1] while BUSY = 1. -/
def readStatus (s : State) : Word × State :=
  if s.port.busy then
    (statusBusy s.outside.draws, { s with outside := { s.outside with draws := s.outside.draws + 1 } })
  else (statusIdle s, s)

/-- An accepted read of a word of the window: the value and the state after (R63, R65, R72). -/
def readReg (s : State) : Reg → Word × State
  | .id => (Config.idWord, s)
  | .params => (paramsWord s.params, s)
  | .status => readStatus s
  | .errcmd => (s.port.errcmd, s)
  | .cmd => (0#32, s)
  | .arg0 => (s.port.arg0, s)
  | .arg1 => (s.port.arg1, s)
  | .res0 => (s.results.res0, s)
  | .res1 => (s.results.res1, s)
  | .res2 => (s.results.res2, s)
  | .codew k => ((s.results.codew[k]?).getD 0#32, s)
  | .outData => readOut s
  | .symData => readSym s
  | .total => (s.counter.total, s)
  | .bitcntLo => (s.packer.bitcnt.extractLsb' 0 32, s)
  | .bitcntHi => (s.packer.bitcnt.extractLsb' 32 32, s)
  | .decCount => (s.decoder.count, s)
  | .pack => (s.packer.pack, s)
  | .packcnt => (s.packer.packcnt.setWidth 32, s)
  | .treeinfo => (treeinfoWord s.tree, s)
  | .decstat => (s.decoder.ptr.setWidth 32, s)
  | .codeinfo => (s.codes.count.setWidth 32, s)
  | .hist sym => (s.counter.hist[sym.toNat], s)
  | .reserved => (0#32, s)

/-- The words accepted while an error is latched: CLEAR and ERRCLR (R68, spec/46_control.md R233). -/
def acceptedInError (w : Word) : Bool := w == 0x01000000#32 || w == 0x02000000#32

/-- A write to CMD (R68). -/
def writeCmd (w : Word) (s : State) : State :=
  if s.port.err ≠ .none ∧ acceptedInError w = false then s
  else { s with port := { s.port with pending := w, busy := true } }

/-- An accepted write (R64, R66, R67): CMD, ARG0 and ARG1 take it, every other word ignores it. -/
def writeReg (s : State) (v : Word) : Reg → State
  | .cmd => writeCmd v s
  | .arg0 => { s with port := { s.port with arg0 := v } }
  | .arg1 => { s with port := { s.port with arg1 := v } }
  | .id | .params | .status | .errcmd | .res0 | .res1 | .res2 | .codew _ | .outData | .symData | .total
  | .bitcntLo | .bitcntHi | .decCount | .pack | .packcnt | .treeinfo | .decstat | .codeinfo | .hist _
  | .reserved => s

/-- The access reaches the HCC (R60): its first address is in the 2 KiB window (log 8). -/
def inWindow (p : Params) (a : Access) : Bool := decide (p.base ≤ a.addr) && decide (a.addr < p.base + 0x800)

/-- The byte offset of an access in the window (R60). -/
def offsetOf (p : Params) (a : Access) : Nat := a.addr - p.base

/-- The one accepted shape (R61): 4 bytes at an offset that is a multiple of 4. -/
def goodShape (p : Params) (a : Access) : Bool := a.size == 4 && offsetOf p a % 4 == 0

/-- An aligned 4-byte read of ID, PARAMS or STATUS, which BUSY never holds (R62). -/
def neverHeld (p : Params) (a : Access) : Bool :=
  goodShape p a && a.op == .read && decide (offsetOf p a ≤ 8)

/-- BUSY holds this access (R62). -/
def isHeld (s : State) (a : Access) : Bool := s.port.busy && inWindow s.params a && !neverHeld s.params a

/-- Record the answer to an access. -/
def answer (r : BusResponse) (s : State) : State :=
  { s with outside := { s.outside with responses := s.outside.responses ++ [r] } }

/-- The answer to an access of a refused shape (R61): ERROR, and a read returns 0. -/
def errorResponse : BusOp → BusResponse
  | .read => .readError 0#32
  | .write _ => .writeError

/-- A host access step (spec/00_scope.md R11(a)), for an access that nothing holds. -/
def serveAccess (a : Access) (s : State) : State :=
  if inWindow s.params a then
    if goodShape s.params a then
      match a.op with
      | .read => answer (.readOkay (readReg s (regAt (offsetOf s.params a))).1)
          (readReg s (regAt (offsetOf s.params a))).2
      | .write v => answer .writeOkay (writeReg s v (regAt (offsetOf s.params a)))
    else answer (errorResponse a.op) s
  else answer .byPlatform s

end Sys2Proof.Machine
end

