-- ==== Sys2Proof/Machine/Schedule.lean ====
section
/-! DEFINITION. Who moves next (spec/00_scope.md R10, R11): the environment's reset, the host's access or the core,
chosen by plain data in State, and where a command word is put so that the next step completes it. -/

namespace Sys2Proof.Machine

/-- One move of the machine. -/
inductive Move where
  /-- The environment resets the machine (R11(c)). -/
  | reset
  /-- The host issues an access that BUSY holds: it waits on the bus (spec/20_memory.md R62). -/
  | hold (a : Access)
  /-- The host's access is served (R11(a)); an access that was held is served when BUSY = 0. -/
  | serve (a : Access)
  /-- The core completes the pending command (R11(b)). -/
  | complete
  /-- Nothing happens: BUSY = 0, no access (spec/60_exceptions.md R257, spec/70_reset_and_hazards.md R288;
  log 11). -/
  | idle
  deriving DecidableEq, Repr

/-- The core's own move: it completes when BUSY = 1, and has none otherwise (R11(b)). -/
def coreMove (s : State) : Move := if s.port.busy then .complete else .idle

/-- The move when no reset comes first. A held access occupies the one bus port (R77): the core completes, then the
access is served. Otherwise the host's next access is served, or held; without one the core moves. -/
def quietMove (s : State) : Move :=
  match s.outside.held with
  | some a => if s.port.busy then .complete else .serve a
  | none =>
    match s.outside.inputs with
    | .access a :: _ => if isHeld s a then .hold a else .serve a
    | _ => coreMove s

/-- The next move. A reset may come at any time (spec/70_reset_and_hazards.md R270). -/
def nextMove (s : State) : Move :=
  match s.outside.inputs with
  | .reset :: _ => .reset
  | _ => quietMove s

/-- The events left after this move: a reset and a tick are used up; an access is, unless another waits before it. -/
def inputsLeft (o : Outside) : List Event :=
  match o.inputs with
  | [] => []
  | .reset :: es => es
  | .tick :: es => es
  | .access a :: es => if o.held.isSome then .access a :: es else es

/-- The state the move starts from: its event is taken. -/
def takeInput (s : State) : State := { s with outside := { s.outside with inputs := inputsLeft s.outside } }

/-- The access waits on the bus. -/
def holdAccess (a : Access) (s : State) : State := { s with outside := { s.outside with held := some a } }

/-- The access leaves the bus and is served. -/
def serveMove (a : Access) (s : State) : State :=
  serveAccess a { s with outside := { s.outside with held := none } }

/-- The command the core completes: decode(S.PENDING) (spec/60_exceptions.md R244). -/
def fetch (s : State) : Except Illegal Instr := decode s.port.pending

/-- `s` with the command word accepted and pending, and this step left to the core. -/
def putPending (w : Word) (s : State) : State :=
  { s with
    port := { s.port with busy := true, pending := w }
    outside := { s.outside with inputs := .tick :: s.outside.inputs } }

end Sys2Proof.Machine
end

