-- ==== Sys2Proof/Machine/Step.lean ====
section
/-! DEFINITION. One step of the machine (spec/00_scope.md R11): a reset, an access, or the completion of the pending
command, as `nextMove` says. Everything it does is done by the operations it calls. -/

namespace Sys2Proof.Machine

/-- The core completion step (spec/60_exceptions.md R244). -/
def completeStep (s : State) : Host.Outcome State Fault Refusal :=
  match fetch s with
  | .ok i => exec i s
  | .error _ => completeIllegal s

/-- One step. -/
def step (s : State) : Host.Outcome State Fault Refusal :=
  match nextMove s with
  | .reset => .next (resetStep (takeInput s))
  | .hold a => .next (holdAccess a (takeInput s))
  | .serve a => .next (serveMove a (takeInput s))
  | .complete => completeStep (takeInput s)
  | .idle => .next (takeInput s)

/-- `s` with an instruction placed so that the next step runs it: the word is pending, BUSY = 1, and this step is the
core's (log 3). -/
def State.withFetchWord (s : State) (nbits w : Nat) : State := putPending (tableWord nbits w) s

end Sys2Proof.Machine
end

