-- ==== Sys2Proof/Machine/Program.lean ====
section
/-! DEFINITION. The host's side of the window as text: the assembler's operands (spec/30_encoding.md R101), the lines
of a host program (R102) and the pseudo-instructions with a fixed expansion (R103). A program becomes the list of
events State holds; the machine itself never reads this file. -/

namespace Sys2Proof.Machine

/-- An operand as it is written (R101). -/
inductive AsmOperand where
  | absent
  | number (n : Nat)
  | quoted (c : Char)
  | noneWord
  deriving DecidableEq, Repr

/-- A byte operand: a number 0 to 255, or a quoted character's ASCII code (R101). The rule gives no byte for a quoted
character from 0x80 on, which has no ASCII code; the assembler refuses it. DESIGN CHOICE, log 17, safe. -/
def asmByte : AsmOperand → Option Byte
  | .number n => if n < 256 then some (BitVec.ofNat 8 n) else none
  | .quoted c => if c.toNat < 128 then some (BitVec.ofNat 8 c.toNat) else none
  | .absent | .noneWord => none

/-- A rank: a number 0 to 255 (R101). -/
def asmRank : AsmOperand → Option Byte
  | .number n => if n < 256 then some (BitVec.ofNat 8 n) else none
  | .absent | .quoted _ | .noneWord => none

/-- A count 1 to 2^w, encoded as one less (R101). -/
def asmCount (w : Nat) : AsmOperand → Option (BitVec w)
  | .number n => if 1 ≤ n ∧ n ≤ 2 ^ w then some (BitVec.ofNat w (n - 1)) else none
  | .absent | .quoted _ | .noneWord => none

/-- A node index 0 to 510 (R101). -/
def asmIndex : AsmOperand → Option NodeIdx
  | .number n => if n ≤ 510 then some (BitVec.ofNat 9 n) else none
  | .absent | .quoted _ | .noneWord => none

/-- SETROOT's operand: an index 0 to 510, or `none` for 511 (R101). -/
def asmRoot : AsmOperand → Option NodeIdx
  | .noneWord => some Config.noneIdx
  | .number n => asmIndex (.number n)
  | .absent | .quoted _ => none

/-- No operand (R101). -/
def asmPlain (i : Instr) : AsmOperand → Option Instr
  | .absent => some i
  | .number _ | .quoted _ | .noneWord => none

/-- The assembler (R101): it refuses an unknown mnemonic and an operand outside its range. -/
def assemble (mnemonic : String) (o : AsmOperand) : Option Instr :=
  match mnemonic with
  | "NOP" => asmPlain .nop o
  | "CLEAR" => asmPlain .clear o
  | "ERRCLR" => asmPlain .errclr o
  | "CNT" => (asmByte o).map .cnt
  | "CNTW" => (asmCount 2 o).map .cntw
  | "BUILD" => asmPlain .build o
  | "GENCODES" => asmPlain .gencodes o
  | "GETCODE" => (asmByte o).map .getcode
  | "GETENTRY" => (asmRank o).map .getentry
  | "ENC" => (asmByte o).map .enc
  | "ENCW" => (asmCount 2 o).map .encw
  | "FLUSH" => asmPlain .flush o
  | "DEC" => (asmCount 5 o).map .dec
  | "DECEND" => asmPlain .decend o
  | "DECRST" => asmPlain .decrst o
  | "NODERD" => (asmIndex o).map .noderd
  | "NODEWR" => (asmIndex o).map .nodewr
  | "SETROOT" => (asmRoot o).map .setroot
  | _ => none

/-- `WR off, v` (R102). -/
def wr (base off : Nat) (v : Word) : Event := .access { addr := base + off, size := 4, op := .write v }

/-- `RD off` (R102). -/
def rd (base off : Nat) : Event := .access { addr := base + off, size := 4, op := .read }

/-- `CMD <command>` (R102). -/
def cmd (base : Nat) (i : Instr) : Event := wr base 0x010 (encode i)

/-- `CMD 0x<hex>` (R102). -/
def cmdRaw (base : Nat) (w : Word) : Event := wr base 0x010 w

/-- `POLL` (R103) in a run in which `k` of its STATUS reads see BUSY = 1 before the command completes. -/
def poll (base k : Nat) : List Event := List.replicate k (rd base 0x008) ++ [.tick, rd base 0x008]

/-- `CNTW.n v` (R103). -/
def cntwLine (base : Nat) (nbMinus1 : BitVec 2) (v : Word) : List Event := [wr base 0x014 v, cmd base (.cntw nbMinus1)]

/-- `ENCW.n v` (R103). -/
def encwLine (base : Nat) (nbMinus1 : BitVec 2) (v : Word) : List Event := [wr base 0x014 v, cmd base (.encw nbMinus1)]

/-- `DECW.n v` (R103). -/
def decwLine (base : Nat) (nbitsMinus1 : BitVec 5) (v : Word) : List Event :=
  [wr base 0x014 v, cmd base (.dec nbitsMinus1)]

/-- `LDNODE i, f, nw` (R103). -/
def ldnode (base : Nat) (idx : NodeIdx) (f nw : Word) : List Event :=
  [wr base 0x014 f, wr base 0x018 nw, cmd base (.nodewr idx)]

/-- `LEAF(v)` (R103). -/
def leafWord (v : Byte) : Word := 0x40000000#32 ||| v.setWidth 32

/-- `INODE(l, r)` (R103). -/
def inodeWord (l r : NodeIdx) : Word := 0x80000000#32 ||| (l.setWidth 32 <<< 18) ||| (r.setWidth 32 <<< 9)

end Sys2Proof.Machine
end

