-- ==== Sys2Proof/Safety.lean ====
section
/-! DEFINITION. What a good state is: the invariants the spec states (spec/10_state.md R23, R29, R30, R32 to R36, R40, R41,
spec/45_decoder.md R210, spec/60_exceptions.md R240, R245, R259), and the notions claims are written with: valid trees and
their code tables, the encoder's stream, the heap's order, the queue as a set, runs of several commands. -/

namespace Sys2Proof.Machine

/-! ### The counter and the arena -/

/-- TOTAL = Σ HIST[s] exactly (R29). -/
abbrev CounterExact (c : Counter) : Prop := c.total.toNat = (c.hist.toList.map BitVec.toNat).sum

/-- Every arena entry is canonical: unused fields 0, no KIND 3 (R30). -/
abbrev ArenaCanonical (a : Arena) : Prop := a.toList.all Node.canonical = true

/-- How many symbols have been counted at least once: |P(x)| (spec/40_frequency_counter.md R110). -/
def countedSymbols (hist : Vector Word 256) : Nat := hist.toList.countP (· != 0#32)

/-- The leaves build_leaves() lays out, in order: one per symbol with HIST[s] ≥ 1, in increasing s
(spec/42_tree_builder.md R142). -/
def countedLeaves (hist : Vector Word 256) : List Node :=
  (List.range 256).filterMap fun s =>
    if (hist[s]?).getD 0#32 = 0#32 then none
    else some { kind := .leaf, freq := (hist[s]?).getD 0#32, left := 0, right := 0, value := BitVec.ofNat 8 s }

/-! ### Trees -/

/-- The indices met when the entries below one index are followed along LEFT and RIGHT. -/
inductive IdxTree where
  | leaf (i : NodeIdx)
  | node (i : NodeIdx) (l r : IdxTree)
  deriving DecidableEq, Repr

/-- The index the tree hangs from. -/
def IdxTree.root : IdxTree → NodeIdx
  | .leaf i => i
  | .node i _ _ => i

/-- Every index reached, once per path. -/
def IdxTree.indices : IdxTree → List NodeIdx
  | .leaf i => [i]
  | .node i l r => i :: (l.indices ++ r.indices)

/-- The leaves' indices, left before right. -/
def IdxTree.leaves : IdxTree → List NodeIdx
  | .leaf i => [i]
  | .node _ l r => l.leaves ++ r.leaves

/-- The indices of the INTERNAL entries. -/
def IdxTree.inner : IdxTree → List NodeIdx
  | .leaf _ => []
  | .node i l r => i :: (l.inner ++ r.inner)

/-- The longest path from the root to a leaf, in edges. -/
def IdxTree.depth : IdxTree → Nat
  | .leaf _ => 0
  | .node _ l r => max l.depth r.depth + 1

/-- VALUE of an entry, 0 where there is none. -/
def valueAt (a : Arena) (i : NodeIdx) : Byte := ((nodeAt a i).map Node.value).getD 0#8

/-- The arena holds this tree: leaves are LEAF entries with FREQ ≥ 1, inner nodes are INTERNAL entries with these
children and FREQ equal to the children's exact sum (conditions (a), (c) first half and (d) of R154). -/
def IdxTree.fits (a : Arena) : IdxTree → Bool
  | .leaf i =>
    match nodeAt a i with
    | some e => e.kind == .leaf && e.freq != 0#32
    | none => false
  | .node i l r =>
    match nodeAt a i, nodeAt a l.root, nodeAt a r.root with
    | some e, some el, some er =>
      e.kind == .internal && e.left == l.root && e.right == r.root
        && e.freq.toNat == el.freq.toNat + er.freq.toNat && l.fits a && r.fits a
    | _, _, _ => false

/-- `T` is the valid tree at `r` (R154): it hangs from r and fits the arena, no index is reached twice (condition
(b)), and no two leaves have the same VALUE (condition (c), second half). -/
abbrev IsTree (a : Arena) (r : NodeIdx) (T : IdxTree) : Prop :=
  T.root = r ∧ T.fits a = true ∧ T.indices.Nodup ∧ (T.leaves.map (valueAt a)).Nodup

/-- The entries reachable from r are a valid tree with n leaves (R154). -/
def ValidTree (a : Arena) (r : NodeIdx) (n : Nat) : Prop := ∃ T, IsTree a r T ∧ T.leaves.length = n

/-- KIND of an entry; NONE where there is no entry. -/
def kindAt (a : Arena) (i : NodeIdx) : Kind := ((nodeAt a i).map Node.kind).getD .none

/-- The tree registers describe the arena (R32). -/
def TreeConsistent (t : Tree) : Prop :=
  if t.valid then
    (t.empty = true ∧ t.single = false ∧ t.root = Config.noneIdx ∧ t.nleaf = 0#9)
    ∨ (t.empty = false ∧ t.single = true ∧ kindAt t.arena t.root = .leaf ∧ t.nleaf = 1#9)
    ∨ (t.empty = false ∧ t.single = false ∧ kindAt t.arena t.root = .internal
        ∧ ValidTree t.arena t.root t.nleaf.toNat ∧ 2 ≤ t.nleaf.toNat)
  else t.empty = false ∧ t.single = false

/-- DEC_PTR stands where R210 says. -/
def DecoderOnTree (t : Tree) (d : Decoder) : Prop :=
  t.valid = true →
    (t.empty = true → d.ptr = Config.noneIdx)
    ∧ (t.single = true → d.ptr = t.root)
    ∧ (t.empty = false → t.single = false → ∃ T, IsTree t.arena t.root T ∧ d.ptr ∈ T.inner)

/-! ### Code tables -/

/-- The triples (VALUE, FREQ, path) of the leaves, left before right, for a tree at path p (R171). -/
def IdxTree.table (a : Arena) : IdxTree → BitString → List (Byte × Word × BitString)
  | .leaf i, p => [(valueAt a i, freqAt a i, p)]
  | .node _ l r, p => l.table a (p ++ [false]) ++ r.table a (p ++ [true])

/-- CT, CT_ORDER and CT_COUNT hold exactly these triples in this order, and are blank elsewhere (R33, R34, R170). -/
def Codes.Holds (c : Codes) (es : List (Byte × Word × BitString)) : Prop :=
  c.count.toNat = es.length
  ∧ (∀ k, (h : k < es.length) →
      c.order[k]? = some es[k].1
      ∧ c.ct[es[k].1.toNat] = { freq := es[k].2.1, bits := es[k].2.2, rank := BitVec.ofNat 8 k })
  ∧ (∀ k, es.length ≤ k → k < 256 → c.order[k]? = some 0#8)
  ∧ (∀ v : Byte, v ∉ es.map Prod.fst → c.ct[v.toNat] = CtEntry.blank)

/-- While CODES_VALID = 1 the code table is what GENCODES makes of the current tree (R34, R179). -/
def CodesOfTree (t : Tree) (c : Codes) : Prop :=
  c.valid = true → ∃ c', genCodes t c = .done c' ∧ c'.ct = c.ct ∧ c'.order = c.order ∧ c'.count = c.count

/-! ### The encoder's stream -/

/-- The first n bits of a word, bit 31 first (spec/20_memory.md R75). -/
def wordBits (n : Nat) (w : Word) : BitString := (List.range n).map fun k => w.getLsbD (31 - k)

/-- The stream bits the packer holds: the words of OUT, then the filled part of PACK. -/
def streamOf (p : Packer) : BitString := p.out.flatMap (wordBits 32) ++ wordBits p.packcnt.toNat p.pack

/-- Bits of PACK below the fill point are 0 (R36). -/
abbrev PackClean (p : Packer) : Prop := ∀ j, j < 32 - p.packcnt.toNat → p.pack.getLsbD j = false

/-! ### The heap -/

/-- The elements of the heap, in array order. -/
def heapElems (h : Heap) : List NodeIdx := h.cells.toList.take h.count.toNat

/-- The heap invariant (spec/41_priority_queue.md R122). -/
abbrev HeapOrdered (a : Arena) (h : Heap) : Prop :=
  h.count.toNat ≤ 256 ∧ ∀ j, 1 ≤ j → j < h.count.toNat → less a (cell h.cells j) (cell h.cells ((j - 1) / 2)) = false

/-- The least element of a list under `less` (R120, R127). -/
def leastOf (a : Arena) : NodeIdx → List NodeIdx → NodeIdx
  | i, [] => i
  | i, j :: js => leastOf a (if less a j i then j else i) js

/-- The merge loop with the queue kept as a set of indices (R129): remove the least twice, write the node, add it. -/
def setMerge : Nat → Nat → Arena → List NodeIdx → Option (Arena × NodeIdx)
  | _, _, _, [] => none
  | _, _, a, [r] => some (a, r)
  | 0, _, _, _ => none
  | fuel + 1, next, a, i :: j :: js =>
    let x := leastOf a i (j :: js)
    let rest := (i :: j :: js).erase x
    match rest with
    | [] => none
    | k :: ks =>
      let y := leastOf a k ks
      setMerge fuel (next + 1)
        (a.setIfInBounds next
          { kind := .internal, freq := freqAt a x + freqAt a y, left := y, right := x, value := 0 })
        (BitVec.ofNat 9 next :: (k :: ks).erase y)

/-! ### Bus accesses -/

/-- The host's next event is this access, and no other access waits on the bus. -/
abbrev Next (s : State) (a : Access) (rest : List Event) : Prop :=
  s.outside.inputs = .access a :: rest ∧ s.outside.held = none

/-- A 4-byte read at a byte offset of the window. -/
def readAt (s : State) (off : Nat) : Access := { addr := s.params.base + off, size := 4, op := .read }

/-- A 4-byte write at a byte offset of the window. -/
def writeAt (s : State) (off : Nat) (v : Word) : Access := { addr := s.params.base + off, size := 4, op := .write v }

/-- The access is answered, and the machine is otherwise as `t` is. -/
def answered (t : State) (rest : List Event) (r : BusResponse) : State :=
  { t with outside := { t.outside with inputs := rest, responses := t.outside.responses ++ [r] } }

/-! ### Illegal words -/

/-- The word is ILLEGAL, and completing it latches ILLEGAL_CMD and changes nothing else (spec/30_encoding.md R98). -/
def Rejects (w : Word) : Prop :=
  (∃ e, decode w = .error e)
  ∧ ∀ s : State, s.port.pending = w → s.port.err = .none → completeStep s = .next (latched .illegalCmd s)

/-! ### Runs -/

/-- Several commands, each completed after the one before it. -/
def execAll : List Instr → State → Host.Outcome State Fault Refusal
  | [], s => .next s
  | i :: is, s =>
    match exec i s with
    | .next t => execAll is t
    | .fault f => .fault f
    | .refused r => .refused r

/-! ### Good states -/

/-- The bounds and small invariants of the units: FIFO levels (R40, R41), PACK (R36), CT_COUNT, CT_ORDER and LEN (R33,
R34), the heap at rest (R35), CODES_VALID (R259), the error latch (R23, R240), and a pending command that an error
lets through (R245). -/
structure UnitsGood (s : State) : Prop where
  outLevel : s.packer.out.length ≤ s.params.outDepth
  symLevel : s.decoder.sym.length ≤ s.params.symDepth
  packClean : PackClean s.packer
  ctCount : s.codes.count.toNat ≤ 256
  ctOrder : ∀ k, s.codes.count.toNat ≤ k → k < 256 → s.codes.order[k]? = some 0#8
  ctLen : ∀ v : Byte, (s.codes.ct[v.toNat]).bits.length ≤ 255
  heapAtRest : s.heap.count = 0#9
  codesNeedTree : s.codes.valid = true → s.tree.valid = true
  noErrorNoCmd : s.port.err = .none → s.port.errcmd = 0#32
  neverEmptyInput : s.port.err ≠ .emptyInput
  pendingInError : s.port.busy = true → s.port.err ≠ .none → acceptedInError s.port.pending = true

/-- A good state: every invariant above. -/
structure Good (s : State) : Prop where
  units : UnitsGood s
  counter : CounterExact s.counter
  arena : ArenaCanonical s.tree.arena
  tree : TreeConsistent s.tree
  decoder : DecoderOnTree s.tree s.decoder
  codes : CodesOfTree s.tree s.codes

end Sys2Proof.Machine
end

