-- ==== Sys2Proof/Certificates/Slice0/Obligations.lean ====
section
/-! DEFINITION. The statements about the model, each after a rule of the spec. `clearBusy t` is t with BUSY = 0, the
end of every completion; `latched e s` is s with ERR = e, ERRCMD = PENDING and BUSY = 0 and nothing else changed (spec/
60_exceptions.md R244, R245); `Rejects w` says that completing w latches ILLEGAL_CMD. -/

open Sys2Proof Sys2Proof.Machine

/-! ### Encoding -/

/-- Decoding the word of a well-formed command gives the command back (R91 to R97). -/
def Obligations.DecodeOfEncode : Prop :=
  ∀ i : Instr, WellFormed i = true → decode (encode i) = .ok i

/-- A word that decodes is the word of what it decodes to: every bit is either the row's or a field's. -/
def Obligations.EncodeOfDecode : Prop :=
  ∀ (w : Word) (i : Instr), decode w = .ok i → encode i = w ∧ WellFormed i = true

/-- R97: a word decodes to the row it selects, rows are disjoint, a word that selects none is ILLEGAL and raises
ILLEGAL_CMD at completion before any other check. -/
def Obligations.DecodeSelectsRow : Prop :=
  (∀ (w : Word) (i : Instr), decode w = .ok i → rowOf i ∈ opcodeMap ∧ (rowOf i).selects w = true)
  ∧ (∀ (w : Word) (r : OpRow), r ∈ opcodeMap → r.selects w = true → ∃ i, decode w = .ok i ∧ rowOf i = r)
  ∧ (∀ (w : Word) (r r' : OpRow), r ∈ opcodeMap → r' ∈ opcodeMap → r.selects w = true → r'.selects w = true → r = r')
  ∧ (∀ s : State, (∀ r ∈ opcodeMap, r.selects s.port.pending = false) → s.port.err = .none →
      completeStep s = .next (latched .illegalCmd s))

/-- R98: the three kinds of illegal word, what accepting one does, what completing one does, and NODEWR's operand check
as its own. -/
def Obligations.IllegalWordLatches : Prop :=
  (∀ w : Word, (opOf w).toNat ∉ [0x00, 0x01, 0x02, 0x10, 0x11, 0x20, 0x30, 0x31, 0x32, 0x40, 0x41, 0x42, 0x50, 0x51, 0x52,
      0x60, 0x61, 0x62] → decode w = .error .unlistedOp)
  ∧ (∀ (w : Word) (r : OpRow), r ∈ opcodeMap → opOf w = opOf r.pattern → w &&& r.mask ≠ r.pattern →
      decode w = .error .reservedBits)
  ∧ decode 0x600001FF#32 = .error .index511 ∧ decode 0x610001FF#32 = .error .index511
  ∧ (∀ (s : State) (w : Word), s.port.err = .none →
      writeCmd w s = { s with port := { s.port with pending := w, busy := true } })
  ∧ (∀ (s : State) (e : Illegal), decode s.port.pending = .error e → s.port.err = .none →
      completeStep s = .next (latched .illegalCmd s))
  ∧ (∀ (s : State) (idx : NodeIdx), legalNodeWord s.port.arg1 s.port.arg0 = false → s.port.err = .none →
      exec (.nodewr idx) s = .next (latched .illegalCmd s))

/-- R104, with the text of each command read by the assembler, both ways. -/
def Obligations.WorkedEncodings : Prop :=
  ((assemble "CNT" (.quoted 'a')).map encode = some 0x10000061#32
  ∧ (assemble "CNTW" (.number 4)).map encode = some 0x11000003#32
  ∧ (assemble "ENC" (.quoted 'b')).map encode = some 0x40000062#32
  ∧ (assemble "DEC" (.number 5)).map encode = some 0x50000004#32
  ∧ (assemble "DEC" (.number 32)).map encode = some 0x5000001F#32
  ∧ (assemble "NODEWR" (.number 2)).map encode = some 0x61000002#32
  ∧ (assemble "SETROOT" .noneWord).map encode = some 0x620001FF#32
  ∧ (assemble "GETENTRY" (.number 1)).map encode = some 0x32000001#32)
  ∧ (decode 0x10000061#32 = .ok (.cnt 0x61#8) ∧ decode 0x11000003#32 = .ok (.cntw 3#2)
  ∧ decode 0x40000062#32 = .ok (.enc 0x62#8) ∧ decode 0x50000004#32 = .ok (.dec 4#5)
  ∧ decode 0x5000001F#32 = .ok (.dec 31#5) ∧ decode 0x61000002#32 = .ok (.nodewr 2#9)
  ∧ decode 0x620001FF#32 = .ok (.setroot 511#9) ∧ decode 0x32000001#32 = .ok (.getentry 1#8))
  ∧ decode 0x10000161#32 = .error .reservedBits ∧ decode 0x600001FF#32 = .error .index511
  ∧ decode 0x03000000#32 = .error .unlistedOp

/-- A completion step is exec of the decoded pending command (R244), on the state less the event the step takes: none
left, a tick, or an access that another access keeps waiting. `withFetchWord` places a word so that the next step
completes it. The events and their order are the model's choice, log 3. -/
def Obligations.StepRunsDecodedCommand : Prop :=
  (∀ (s : State) (i : Instr), s.port.busy = true → decode s.port.pending = .ok i → WellFormed i = true →
    (s.outside.inputs = [] → step s = exec i s)
    ∧ (∀ rest, s.outside.inputs = .tick :: rest →
        step s = exec i { s with outside := { s.outside with inputs := rest } })
    ∧ (∀ a rest, s.outside.inputs = .access a :: rest → s.outside.held.isSome = true → step s = exec i s))
  ∧ (∀ (s : State) (nbits w : Nat) (i : Instr), decodeTableWord nbits w = some i →
    step (s.withFetchWord nbits w)
      = exec i { s with port := { s.port with busy := true, pending := tableWord nbits w } })

/-! ### Control -/

/-- R230: NOP only clears BUSY; a word of OP 0x00 with a reserved bit set is ILLEGAL; while ERR ≠ 0 a NOP write is
ignored. -/
def Obligations.NopDoesNothing : Prop :=
  (∀ s : State, exec .nop s = .next (clearBusy s))
  ∧ (∀ w : Word, opOf w = 0x00#8 → w ≠ 0x00000000#32 → Rejects w)
  ∧ (∀ s : State, s.port.err ≠ .none → writeCmd 0x00000000#32 s = s)

/-- R231: CLEAR sets every element of R45 to its reset value and BUSY to 0; it is accepted while ERR ≠ 0; a word of OP
0x01 with a reserved bit set is not CLEAR. -/
def Obligations.ClearResetsEverything : Prop :=
  (∀ s : State, ∃ t, exec .clear s = .next t
    ∧ (∀ v : Byte, t.counter.hist[v.toNat] = 0#32) ∧ t.counter.total = 0#32
    ∧ (∀ i : NodeIdx, i ≠ 511#9 → nodeAt t.tree.arena i = some Node.blank)
    ∧ t.tree.root = 511#9 ∧ t.tree.nleaf = 0#9
    ∧ t.tree.valid = false ∧ t.tree.empty = false ∧ t.tree.single = false
    ∧ (∀ v : Byte, t.codes.ct[v.toNat] = CtEntry.blank) ∧ (∀ k : Byte, t.codes.order[k.toNat] = 0#8)
    ∧ t.codes.count = 0#9 ∧ t.codes.valid = false
    ∧ (∀ k : Byte, t.heap.cells[k.toNat] = 0#9) ∧ t.heap.count = 0#9
    ∧ t.packer = { pack := 0#32, packcnt := 0#5, bitcnt := 0#64, out := [] }
    ∧ t.decoder = { ptr := 511#9, count := 0#32, sym := [] }
    ∧ t.port = { busy := false, pending := s.port.pending, err := .none, errcmd := 0#32, arg0 := 0#32, arg1 := 0#32 }
    ∧ t.results.res0 = 0#32 ∧ t.results.res1 = 0#32 ∧ t.results.res2 = 0#32
    ∧ (∀ k : BitVec 3, t.results.codew[k.toNat] = 0#32)
    ∧ t.params = s.params ∧ t.outside = s.outside)
  ∧ (∀ s : State, writeCmd 0x01000000#32 s = { s with port := { s.port with pending := 0x01000000#32, busy := true } })
  ∧ (∀ w : Word, opOf w = 0x01#8 → w ≠ 0x01000000#32 →
      Rejects w ∧ ∀ s : State, s.port.err ≠ .none → writeCmd w s = s)

/-- R232: ERRCLR clears ERR and ERRCMD and changes nothing else; it is accepted while ERR ≠ 0; a word of OP 0x02 with a
reserved bit set is not ERRCLR. -/
def Obligations.ErrclrAcknowledges : Prop :=
  (∀ s : State, exec .errclr s = .next
      { s with port := { s.port with err := .none, errcmd := 0#32, busy := false } })
  ∧ (∀ s : State, writeCmd 0x02000000#32 s = { s with port := { s.port with pending := 0x02000000#32, busy := true } })
  ∧ (∀ w : Word, opOf w = 0x02#8 → w ≠ 0x02000000#32 →
      Rejects w ∧ ∀ s : State, s.port.err ≠ .none → writeCmd w s = s)

/-! ### Frequency counter -/

/-- R111: CNT adds 1 to HIST[s] and TOTAL, exactly; at TOTAL = 2^32 - 1 it raises COUNT_OVERFLOW; its encoding. The
premise is the invariant of R29. -/
def Obligations.CntCountsOneSymbol : Prop :=
  (∀ (s : State) (sym : Byte), CounterExact s.counter →
    (s.counter.total ≠ 0xFFFFFFFF#32 →
      s.counter.hist[sym.toNat] ≠ 0xFFFFFFFF#32
      ∧ exec (.cnt sym) s = .next (clearBusy { s with counter :=
          { hist := s.counter.hist.set sym.toNat (s.counter.hist[sym.toNat] + 1#32)
            total := s.counter.total + 1#32 } }))
    ∧ (s.counter.total = 0xFFFFFFFF#32 → s.port.err = .none →
      exec (.cnt sym) s = .next (latched .countOverflow s)))
  ∧ (∀ w : Word, opOf w = 0x10#8 →
      if w.extractLsb' 8 16 = 0#16 then decode w = .ok (.cnt (w.extractLsb' 0 8)) else Rejects w)

/-- R112: CNTW counts lanes 0 to NB - 1 of ARG0, all or none, as the same CNTs would; its encoding. -/
def Obligations.CntwCountsLanes : Prop :=
  (∀ (s : State) (nb : BitVec 2), CounterExact s.counter →
    (s.counter.total.toNat + nb.toNat + 1 ≤ 2 ^ 32 - 1 →
      (∃ c, exec (.cntw nb) s = .next (clearBusy { s with counter := c })
        ∧ c.total.toNat = s.counter.total.toNat + nb.toNat + 1
        ∧ ∀ v : Byte, (c.hist[v.toNat]).toNat = (s.counter.hist[v.toNat]).toNat
            + ((List.range (nb.toNat + 1)).map fun k => s.port.arg0.extractLsb' (8 * k) 8).count v)
      ∧ execAll ((lanes s.port.arg0 nb).map .cnt) s = exec (.cntw nb) s)
    ∧ (2 ^ 32 - 1 < s.counter.total.toNat + nb.toNat + 1 → s.port.err = .none →
      exec (.cntw nb) s = .next (latched .countOverflow s)))
  ∧ (∀ w : Word, opOf w = 0x11#8 →
      if w.extractLsb' 2 22 = 0#22 then decode w = .ok (.cntw (w.extractLsb' 0 2)) else Rejects w)

/-! ### Priority queue and BUILD -/

/-- R125, R126: heapify and push keep the heap invariant (R122) and hold exactly the given elements; a push at HCOUNT
= 256 is a fault. -/
def Obligations.HeapifyAndPushKeepOrder : Prop :=
  (∀ (a : Arena) (is : List NodeIdx) (h : Heap), is.length ≤ 256 → is.Nodup →
    HeapOrdered a (heapify a is h) ∧ List.Perm (heapElems (heapify a is h)) is)
  ∧ (∀ (a : Arena) (i : NodeIdx) (h : Heap), HeapOrdered a h → i ∉ heapElems h →
    (h.count.toNat < 256 → ∃ h', push a i h = .done h' ∧ HeapOrdered a h' ∧ List.Perm (heapElems h') (i :: heapElems h))
    ∧ (h.count.toNat = 256 → push a i h = .broken .pushFullHeap))

/-- R127, R128: pop_min answers the least element under `less` and removes exactly it; on an empty heap it is a
fault. -/
def Obligations.PopMinIsLeast : Prop :=
  ∀ (a : Arena) (h : Heap), HeapOrdered a h → (heapElems h).Nodup →
    (h.count = 0#9 → popMin a h = .broken .popEmptyHeap)
    ∧ (h.count ≠ 0#9 → ∃ i h', popMin a h = .done (i, h') ∧ i ∈ heapElems h
        ∧ (∀ j ∈ heapElems h, j ≠ i → less a i j = true)
        ∧ HeapOrdered a h' ∧ List.Perm (heapElems h') ((heapElems h).erase i))

/-- R129: the array heap can be replaced by a finite set of indices with "remove the least": BUILD's merge gives the
same arena and root. -/
def Obligations.BuildRefinesSetQueue : Prop :=
  ∀ (n : Nat) (a a' : Arena) (h h' : Heap) (r : NodeIdx), 2 ≤ n → n ≤ 256 →
    mergeLeaves n a h = .done (a', h', r) → setMerge n n a ((List.range n).map (BitVec.ofNat 9)) = some (a', r)

/-- R142: build_leaves() clears the arena and lays out one leaf per counted symbol in increasing symbol order; the
leaves stand in the arena after BUILD. -/
def Obligations.BuildLaysLeavesInOrder : Prop :=
  (∀ hist : Vector Word 256,
    (buildLeaves hist).2 = countedSymbols hist
    ∧ (buildLeaves hist).1.toList
        = countedLeaves hist ++ List.replicate (511 - countedSymbols hist) Node.blank)
  ∧ (∀ s t : State, exec .build s = .next t →
    t.tree.arena.toList.take (countedSymbols s.counter.hist) = countedLeaves s.counter.hist)

/-- R147: the registers BUILD writes and the ones it leaves. -/
def Obligations.BuildWritesState : Prop :=
  ∀ s t : State, exec .build s = .next t →
    (countedSymbols s.counter.hist = 0 → t.tree.root = 511#9 ∧ t.tree.empty = true ∧ t.tree.single = false)
    ∧ (countedSymbols s.counter.hist = 1 → t.tree.root = 0#9 ∧ t.tree.empty = false ∧ t.tree.single = true)
    ∧ (2 ≤ countedSymbols s.counter.hist →
        t.tree.root.toNat = 2 * countedSymbols s.counter.hist - 2 ∧ t.tree.empty = false ∧ t.tree.single = false)
    ∧ t.tree.nleaf.toNat = countedSymbols s.counter.hist ∧ t.tree.valid = true ∧ t.codes.valid = false
    ∧ t.decoder.ptr = t.tree.root ∧ t.decoder.count = 0#32
    ∧ t.counter = s.counter ∧ t.codes.ct = s.codes.ct ∧ t.codes.order = s.codes.order ∧ t.codes.count = s.codes.count
    ∧ t.packer = s.packer ∧ t.decoder.sym = s.decoder.sym ∧ t.port.arg0 = s.port.arg0 ∧ t.port.arg1 = s.port.arg1
    ∧ t.results = s.results

/-- R148: BUILD on one counted symbol leaves a bare leaf, on none the empty tree. -/
def Obligations.BuildDegenerateCases : Prop :=
  (∀ (s : State) (v : Byte), s.counter.hist[v.toNat] ≠ 0#32 → (∀ u : Byte, u ≠ v → s.counter.hist[u.toNat] = 0#32) →
    exec .build s = .next (clearBusy { s with
      tree := { arena := (Vector.replicate 511 Node.blank).set 0
                  { kind := .leaf, freq := s.counter.hist[v.toNat], left := 0, right := 0, value := v }
                root := 0#9, nleaf := 1#9, valid := true, empty := false, single := true }
      codes := { s.codes with valid := false }
      decoder := { s.decoder with ptr := 0#9, count := 0#32 } }))
  ∧ (∀ s : State, (∀ u : Byte, s.counter.hist[u.toNat] = 0#32) →
    exec .build s = .next (clearBusy { s with
      tree := { arena := Vector.replicate 511 Node.blank, root := 511#9, nleaf := 0#9, valid := true, empty := true
                single := false }
      codes := { s.codes with valid := false }
      decoder := { s.decoder with ptr := 511#9, count := 0#32 } }))

/-- R141, R144 to R146: on every histogram whose counts add up to TOTAL, BUILD completes; with n ≥ 1 counted symbols the
tree at ROOT is valid with n leaves and ROOT's FREQ is TOTAL; entries from 2n - 1 on are NONE. -/
def Obligations.BuildMakesValidTree : Prop :=
  ∀ s : State, CounterExact s.counter →
    ∃ t, exec .build s = .next t
      ∧ t.tree.valid = true ∧ t.port.busy = false ∧ t.port.err = s.port.err
      ∧ (s.heap.count = 0#9 → t.heap.count = 0#9)
      ∧ (1 ≤ countedSymbols s.counter.hist →
          ValidTree t.tree.arena t.tree.root (countedSymbols s.counter.hist)
          ∧ t.tree.root.toNat = 2 * countedSymbols s.counter.hist - 2
          ∧ freqAt t.tree.arena t.tree.root = s.counter.total)
      ∧ (∀ i : NodeIdx, i ≠ 511#9 → 2 * countedSymbols s.counter.hist - 1 ≤ i.toNat →
          nodeAt t.tree.arena i = some Node.blank)

/-! ### Arena access -/

/-- R150: NODERD reads an entry into RES0 to RES2 and leaves CODEW; its encoding. A KIND 3 entry, which no command
stores, is kept out by the premise (spec/93 F6). -/
def Obligations.NoderdReadsEntry : Prop :=
  (∀ (s : State) (idx : NodeIdx) (e : Node), nodeAt s.tree.arena idx = some e → e.kind ≠ .reserved →
    exec (.noderd idx) s = .next (clearBusy { s with results := { s.results with
      res0 := kindBits e.kind ++ 0#3 ++ e.left ++ e.right ++ 0#1 ++ e.value
      res1 := e.freq
      res2 := idx.setWidth 32 } }))
  ∧ (∀ w : Word, opOf w = 0x60#8 →
      if w.extractLsb' 9 15 = 0#15 ∧ w.extractLsb' 0 9 ≠ 511#9 then decode w = .ok (.noderd (w.extractLsb' 0 9))
      else Rejects w)

/-- R151: NODEWR writes a legal node word and clears the four flags; an illegal one raises ILLEGAL_CMD and writes
nothing; its encoding. -/
def Obligations.NodewrWritesEntry : Prop :=
  (∀ (s : State) (idx : NodeIdx), idx ≠ 511#9 →
    (legalNodeWord s.port.arg1 s.port.arg0 = true →
      exec (.nodewr idx) s = .next (clearBusy { s with
        tree := { s.tree with
          arena := s.tree.arena.setIfInBounds idx.toNat
            { kind := kindOf (s.port.arg1.extractLsb' 30 2), freq := s.port.arg0
              left := s.port.arg1.extractLsb' 18 9, right := s.port.arg1.extractLsb' 9 9
              value := s.port.arg1.extractLsb' 0 8 }
          valid := false, empty := false, single := false }
        codes := { s.codes with valid := false } }))
    ∧ (legalNodeWord s.port.arg1 s.port.arg0 = false → s.port.err = .none →
      exec (.nodewr idx) s = .next (latched .illegalCmd s)))
  ∧ (∀ w : Word, opOf w = 0x61#8 →
      if w.extractLsb' 9 15 = 0#15 ∧ w.extractLsb' 0 9 ≠ 511#9 then decode w = .ok (.nodewr (w.extractLsb' 0 9))
      else Rejects w)

/-- R152: legal_nodeword, condition by condition; what a legal word stores has its unused fields 0. -/
def Obligations.NodeWordLegality : Prop :=
  ∀ nw f : Word,
    (legalNodeWord nw f = true ↔
      nw.extractLsb' 30 2 ≠ 3#2 ∧ nw.extractLsb' 27 3 = 0#3 ∧ nw.extractLsb' 8 1 = 0#1
      ∧ (nw.extractLsb' 30 2 = 0#2 →
          nw.extractLsb' 18 9 = 0#9 ∧ nw.extractLsb' 9 9 = 0#9 ∧ nw.extractLsb' 0 8 = 0#8 ∧ f = 0#32)
      ∧ (nw.extractLsb' 30 2 = 1#2 → nw.extractLsb' 18 9 = 0#9 ∧ nw.extractLsb' 9 9 = 0#9)
      ∧ (nw.extractLsb' 30 2 = 2#2 → nw.extractLsb' 0 8 = 0#8))
    ∧ (legalNodeWord nw f = true → (nodeOfWord nw f).canonical = true)

/-- R154: the loop of tree_ok answers (true, n) exactly when the entries reachable from r are a valid tree with n leaves,
and (false, -) otherwise; the bounds of a valid tree. The premise is the invariant of R30. -/
def Obligations.TreeOkDecidesValidity : Prop :=
  (∀ (a : Arena) (r : NodeIdx), ArenaCanonical a →
    (∀ n, treeOk a r = .done (some n) ↔ ValidTree a r n)
    ∧ (treeOk a r = .done none ↔ ¬ ∃ n, ValidTree a r n))
  ∧ (∀ (a : Arena) (r : NodeIdx) (T : IdxTree), IsTree a r T →
    T.leaves.length ≤ 256 ∧ T.indices.length ≤ 511 ∧ T.depth ≤ T.leaves.length - 1)

/-- R155, R156, and R153's choice between them: what SETROOT installs, BAD_TREE when tree_ok fails, and its
encoding. -/
def Obligations.SetrootInstalls : Prop :=
  (∀ s : State, exec (.setroot 511#9) s = .next (clearBusy { s with
      tree := { s.tree with root := 511#9, nleaf := 0#9, valid := true, empty := true, single := false }
      codes := { s.codes with valid := false }
      decoder := { s.decoder with ptr := 511#9, count := 0#32 } }))
  ∧ (∀ (s : State) (r : NodeIdx) (n : Nat), r ≠ 511#9 → treeOk s.tree.arena r = .done (some n) →
    exec (.setroot r) s = .next (clearBusy { s with
      tree := { s.tree with
        root := r, nleaf := BitVec.ofNat 9 n, valid := true, empty := false, single := kindAt s.tree.arena r == .leaf }
      codes := { s.codes with valid := false }
      decoder := { s.decoder with ptr := r, count := 0#32 } }))
  ∧ (∀ (s : State) (r : NodeIdx), r ≠ 511#9 → treeOk s.tree.arena r = .done none → s.port.err = .none →
    exec (.setroot r) s = .next (latched .badTree s))
  ∧ (∀ w : Word, opOf w = 0x62#8 →
      if w.extractLsb' 9 15 = 0#15 then decode w = .ok (.setroot (w.extractLsb' 0 9)) else Rejects w)

/-! ### Code table -/

/-- R170, R171, R174: on a valid tree of two or more leaves GENCODES completes, and CT, CT_ORDER and CT_COUNT hold
exactly the leaves' triples, LEFT (0) before RIGHT (1). -/
def Obligations.GencodesWalksTree : Prop :=
  ∀ (s : State) (T : IdxTree), s.tree.valid = true → s.tree.empty = false → s.tree.single = false →
    IsTree s.tree.arena s.tree.root T →
    ∃ c, exec .gencodes s = .next (clearBusy { s with codes := c })
      ∧ c.valid = true ∧ c.Holds (T.table s.tree.arena [])

/-- R172 and the empty tree of R170: one leaf gets the code "0", the empty tree an empty table; without a tree SEQUENCE;
the encoding. -/
def Obligations.GencodesSpecialTrees : Prop :=
  (∀ s : State, s.tree.valid = true → s.tree.empty = false → s.tree.single = true →
    kindAt s.tree.arena s.tree.root = .leaf →
    ∃ c, exec .gencodes s = .next (clearBusy { s with codes := c }) ∧ c.valid = true
      ∧ c.Holds [(valueAt s.tree.arena s.tree.root, freqAt s.tree.arena s.tree.root, [false])])
  ∧ (∀ s : State, s.tree.valid = true → s.tree.empty = true →
    ∃ c, exec .gencodes s = .next (clearBusy { s with codes := c }) ∧ c.valid = true ∧ c.Holds [])
  ∧ (∀ s : State, s.tree.valid = false → s.port.err = .none → exec .gencodes s = .next (latched .sequence s))
  ∧ (∀ w : Word, opOf w = 0x30#8 → if w.extractLsb' 0 24 = 0#24 then decode w = .ok .gencodes else Rejects w)

/-- R173: the five code-table invariants, after GENCODES on any tree that satisfies R32. -/
def Obligations.GencodesPrefixFree : Prop :=
  ∀ s : State, s.tree.valid = true → TreeConsistent s.tree →
    ∃ c, exec .gencodes s = .next (clearBusy { s with codes := c })
      ∧ c.count = s.tree.nleaf
      ∧ (s.tree.empty = true → ∀ v : Byte, (c.ct[v.toNat]).bits = [])
      ∧ (∀ T, IsTree s.tree.arena s.tree.root T →
          ∀ v : Byte, (c.ct[v.toNat]).bits ≠ [] ↔ v ∈ T.leaves.map (valueAt s.tree.arena))
      ∧ (∀ v : Byte, (c.ct[v.toNat]).bits.length ≤ 255)
      ∧ (∀ u v : Byte, u ≠ v → (c.ct[u.toNat]).bits ≠ [] → (c.ct[v.toNat]).bits ≠ [] →
          ¬ (c.ct[u.toNat]).bits <+: (c.ct[v.toNat]).bits)
      ∧ (∀ T, IsTree s.tree.arena s.tree.root T →
          ∀ i ∈ T.leaves, (c.ct[(valueAt s.tree.arena i).toNat]).freq = freqAt s.tree.arena i)

/-- R175 with R177: GETCODE on a present symbol, on an absent one, and without a code table; its encoding. -/
def Obligations.GetcodeReadsEntry : Prop :=
  (∀ (s : State) (sym : Byte), s.codes.valid = true →
    ((s.codes.ct[sym.toNat]).bits ≠ [] → exec (.getcode sym) s = .next (clearBusy { s with results :=
      { res0 := 1#1 ++ 0#15 ++ sym ++ BitVec.ofNat 8 (s.codes.ct[sym.toNat]).bits.length
        res1 := (s.codes.ct[sym.toNat]).freq
        res2 := (s.codes.ct[sym.toNat]).rank.setWidth 32
        codew := codewLayout (s.codes.ct[sym.toNat]).bits } }))
    ∧ ((s.codes.ct[sym.toNat]).bits = [] → exec (.getcode sym) s = .next (clearBusy { s with results :=
      { res0 := 0#1 ++ 0#15 ++ sym ++ 0#8, res1 := 0#32, res2 := 0#32, codew := Vector.replicate 8 0#32 } })))
  ∧ (∀ (s : State) (sym : Byte), s.codes.valid = false → s.port.err = .none →
      exec (.getcode sym) s = .next (latched .sequence s))
  ∧ (∀ w : Word, opOf w = 0x31#8 →
      if w.extractLsb' 8 16 = 0#16 then decode w = .ok (.getcode (w.extractLsb' 0 8)) else Rejects w)

/-- R176 with R177: GETENTRY on a rank of the table, on one past it, and without a code table; its encoding. -/
def Obligations.GetentryReadsRank : Prop :=
  (∀ (s : State) (rank : Byte), s.codes.valid = true →
    (rank.toNat < s.codes.count.toNat → exec (.getentry rank) s = .next (clearBusy { s with results :=
      { res0 := 1#1 ++ 0#15 ++ s.codes.order[rank.toNat]
          ++ BitVec.ofNat 8 (s.codes.ct[(s.codes.order[rank.toNat]).toNat]).bits.length
        res1 := (s.codes.ct[(s.codes.order[rank.toNat]).toNat]).freq
        res2 := rank.setWidth 32
        codew := codewLayout (s.codes.ct[(s.codes.order[rank.toNat]).toNat]).bits } }))
    ∧ (s.codes.count.toNat ≤ rank.toNat → exec (.getentry rank) s = .next (clearBusy { s with results :=
      { res0 := 0#32, res1 := 0#32, res2 := rank.setWidth 32, codew := Vector.replicate 8 0#32 } })))
  ∧ (∀ (s : State) (rank : Byte), s.codes.valid = false → s.port.err = .none →
      exec (.getentry rank) s = .next (latched .sequence s))
  ∧ (∀ w : Word, opOf w = 0x32#8 →
      if w.extractLsb' 8 16 = 0#16 then decode w = .ok (.getentry (w.extractLsb' 0 8)) else Rejects w)

/-- R178: bit p[32k + j] stands at CODEWk bit 31 - j; every other bit is 0. -/
def Obligations.CodewLayoutBits : Prop :=
  ∀ (p : BitString) (k : BitVec 3) (j : Nat), p.length ≤ 256 → j < 32 →
    ((codewLayout p)[k.toNat]).getLsbD (31 - j) = (p[32 * k.toNat + j]?).getD false

/-! ### Encoder -/

/-- R190: append_bit sets bit 31 - PACKCNT, counts the bit, pushes a completed word or raises OUT_FULL; so it appends the
bit to the stream and keeps the bits below the fill point 0. -/
def Obligations.AppendBitPacks : Prop :=
  ∀ (depth : Nat) (b : Bool) (p : Packer), ∃ w : Word,
    (∀ j, j < 32 → w.getLsbD j = if j = 31 - p.packcnt.toNat then b else p.pack.getLsbD j)
    ∧ (p.packcnt.toNat = 31 → p.out.length = depth → appendBit depth b p = .raised .outFull)
    ∧ (p.packcnt.toNat = 31 → p.out.length ≠ depth → appendBit depth b p =
        .done { pack := 0#32, packcnt := 0#5, bitcnt := p.bitcnt + 1#64, out := p.out ++ [w] })
    ∧ (p.packcnt.toNat ≠ 31 → appendBit depth b p =
        .done { pack := w, packcnt := p.packcnt + 1#5, bitcnt := p.bitcnt + 1#64, out := p.out })
    ∧ (∀ p', appendBit depth b p = .done p' →
        streamOf p' = streamOf p ++ [b] ∧ (PackClean p → PackClean p'))

/-- R192 with R191, R193, R197: ENC of a present symbol appends its code word when the completed words fit; otherwise it
raises OUT_FULL, LOOKUP_ERROR or SEQUENCE and changes nothing else; its encoding. -/
def Obligations.EncAppendsCodeWord : Prop :=
  (∀ (s : State) (sym : Byte), s.codes.valid = true → (s.codes.ct[sym.toNat]).bits ≠ [] →
    s.packer.out.length ≤ s.params.outDepth →
    ((s.packer.packcnt.toNat + (s.codes.ct[sym.toNat]).bits.length) / 32 + s.packer.out.length ≤ s.params.outDepth →
      ∃ p, exec (.enc sym) s = .next (clearBusy { s with packer := p })
        ∧ streamOf p = streamOf s.packer ++ (s.codes.ct[sym.toNat]).bits
        ∧ p.bitcnt = s.packer.bitcnt + BitVec.ofNat 64 (s.codes.ct[sym.toNat]).bits.length
        ∧ p.packcnt.toNat = (s.packer.packcnt.toNat + (s.codes.ct[sym.toNat]).bits.length) % 32
        ∧ p.out.length = s.packer.out.length + (s.packer.packcnt.toNat + (s.codes.ct[sym.toNat]).bits.length) / 32
        ∧ s.packer.out <+: p.out ∧ (PackClean s.packer → PackClean p))
    ∧ (s.params.outDepth < (s.packer.packcnt.toNat + (s.codes.ct[sym.toNat]).bits.length) / 32 + s.packer.out.length →
      s.port.err = .none → exec (.enc sym) s = .next (latched .outFull s)))
  ∧ (∀ (s : State) (sym : Byte), s.codes.valid = true → (s.codes.ct[sym.toNat]).bits = [] → s.port.err = .none →
      exec (.enc sym) s = .next (latched .lookupError s))
  ∧ (∀ (s : State) (sym : Byte), s.codes.valid = false → s.port.err = .none →
      exec (.enc sym) s = .next (latched .sequence s))
  ∧ (∀ w : Word, opOf w = 0x40#8 →
      if w.extractLsb' 8 16 = 0#16 then decode w = .ok (.enc (w.extractLsb' 0 8)) else Rejects w)

/-- R194 with R248: ENCW appends the code words of its lanes, lane 0 first, as the same ENCs would; the first lane that
fails decides the error, LOOKUP_ERROR before OUT_FULL, and nothing is appended; its encoding. -/
def Obligations.EncwAppendsLanes : Prop :=
  (∀ (w : Word) (nb : BitVec 2),
    lanes w nb = (List.range (nb.toNat + 1)).map fun k => w.extractLsb' (8 * k) 8)
  ∧ (∀ (s : State) (nb : BitVec 2), s.codes.valid = true → s.packer.out.length ≤ s.params.outDepth →
    ((∀ x ∈ lanes s.port.arg0 nb, (s.codes.ct[x.toNat]).bits ≠ []) →
      (s.packer.packcnt.toNat + ((lanes s.port.arg0 nb).flatMap fun x => (s.codes.ct[x.toNat]).bits).length) / 32
        + s.packer.out.length ≤ s.params.outDepth →
      (∃ p, exec (.encw nb) s = .next (clearBusy { s with packer := p })
        ∧ streamOf p = streamOf s.packer ++ ((lanes s.port.arg0 nb).flatMap fun x => (s.codes.ct[x.toNat]).bits)
        ∧ p.bitcnt = s.packer.bitcnt
            + BitVec.ofNat 64 ((lanes s.port.arg0 nb).flatMap fun x => (s.codes.ct[x.toNat]).bits).length
        ∧ p.out.length = s.packer.out.length + (s.packer.packcnt.toNat
            + ((lanes s.port.arg0 nb).flatMap fun x => (s.codes.ct[x.toNat]).bits).length) / 32
        ∧ s.packer.out <+: p.out ∧ (PackClean s.packer → PackClean p))
      ∧ execAll ((lanes s.port.arg0 nb).map .enc) s = exec (.encw nb) s)
    ∧ (∀ pre x post, lanes s.port.arg0 nb = pre ++ x :: post →
      (∀ y ∈ pre, (s.codes.ct[y.toNat]).bits ≠ []) →
      (s.packer.packcnt.toNat + (pre.flatMap fun y => (s.codes.ct[y.toNat]).bits).length) / 32
        + s.packer.out.length ≤ s.params.outDepth →
      s.port.err = .none →
      ((s.codes.ct[x.toNat]).bits = [] → exec (.encw nb) s = .next (latched .lookupError s))
      ∧ ((s.codes.ct[x.toNat]).bits ≠ [] →
        s.params.outDepth < (s.packer.packcnt.toNat
          + ((pre ++ [x]).flatMap fun y => (s.codes.ct[y.toNat]).bits).length) / 32 + s.packer.out.length →
        exec (.encw nb) s = .next (latched .outFull s))))
  ∧ (∀ (s : State) (nb : BitVec 2), s.codes.valid = false → s.port.err = .none →
      exec (.encw nb) s = .next (latched .sequence s))
  ∧ (∀ w : Word, opOf w = 0x41#8 →
      if w.extractLsb' 2 22 = 0#22 then decode w = .ok (.encw (w.extractLsb' 0 2)) else Rejects w)

/-- R195: FLUSH pushes the partial word and leaves BITCNT, does nothing without one, and raises OUT_FULL on a full OUT;
its encoding. -/
def Obligations.FlushPushesPartialWord : Prop :=
  (∀ s : State,
    (s.packer.packcnt = 0#5 → exec .flush s = .next (clearBusy s))
    ∧ (s.packer.packcnt ≠ 0#5 → s.packer.out.length ≠ s.params.outDepth →
      exec .flush s = .next (clearBusy { s with packer :=
        { s.packer with pack := 0#32, packcnt := 0#5, out := s.packer.out ++ [s.packer.pack] } }))
    ∧ (s.packer.packcnt ≠ 0#5 → s.packer.out.length = s.params.outDepth → s.port.err = .none →
      exec .flush s = .next (latched .outFull s)))
  ∧ (∀ w : Word, opOf w = 0x42#8 → if w.extractLsb' 0 24 = 0#24 then decode w = .ok .flush else Rejects w)

/-! ### Decoder -/

/-- R212, R213, R214, R215: one decode_bit on each of the three kinds of tree, and emit. -/
def Obligations.DecodeBitWalks : Prop :=
  (∀ (depth : Nat) (t : Tree) (b : Bool) (d : Decoder), t.empty = true →
    decodeBit depth t b d = .raised .malformedBitstream)
  ∧ (∀ (depth : Nat) (t : Tree) (d : Decoder), t.empty = false → t.single = true →
    decodeBit depth t true d = .raised .malformedBitstream
    ∧ (kindAt t.arena t.root = .leaf → decodeBit depth t false d = emit depth (valueAt t.arena t.root) d))
  ∧ (∀ (depth : Nat) (t : Tree) (b : Bool) (d : Decoder) (e : Node), t.empty = false → t.single = false →
    nodeAt t.arena d.ptr = some e →
    (e.kind = .internal →
      (kindAt t.arena (if b then e.right else e.left) = .leaf →
        decodeBit depth t b d
          = emit depth (valueAt t.arena (if b then e.right else e.left)) { d with ptr := t.root })
      ∧ (kindAt t.arena (if b then e.right else e.left) = .internal →
        decodeBit depth t b d = .done { d with ptr := if b then e.right else e.left }))
    ∧ (e.kind = .none → decodeBit depth t b d = .broken .decodeOffTree))
  ∧ (∀ (depth : Nat) (v : Byte) (d : Decoder),
    (d.sym.length = depth → emit depth v d = .raised .symFull)
    ∧ (d.sym.length ≠ depth → emit depth v d = .done { d with sym := d.sym ++ [v], count := d.count + 1#32 }))

/-- R211: on a valid tree DEC consumes ARG0[31], ARG0[30], … and completes when SYM has room for a symbol per bit (on a
single leaf the bits must be 0); the first failing bit discards the whole command; its encoding. -/
def Obligations.DecRunsBits : Prop :=
  (∀ (s : State) (nb : BitVec 5), s.tree.valid = true → TreeConsistent s.tree → DecoderOnTree s.tree s.decoder →
    s.tree.empty = false → (s.tree.single = true → ∀ k, k ≤ nb.toNat → s.port.arg0.getLsbD (31 - k) = false) →
    s.decoder.sym.length + nb.toNat + 1 ≤ s.params.symDepth →
    ∃ d new, exec (.dec nb) s = .next (clearBusy { s with decoder := d })
      ∧ forEach (decodeBit s.params.symDepth s.tree)
          ((List.range (nb.toNat + 1)).map fun k => s.port.arg0.getLsbD (31 - k)) s.decoder = .done d
      ∧ d.sym = s.decoder.sym ++ new ∧ new.length ≤ nb.toNat + 1
      ∧ d.count = s.decoder.count + BitVec.ofNat 32 new.length)
  ∧ (∀ (s : State) (nb : BitVec 5) (d : Decoder), s.tree.valid = true →
    forEach (decodeBit s.params.symDepth s.tree)
      ((List.range (nb.toNat + 1)).map fun k => s.port.arg0.getLsbD (31 - k)) s.decoder = .done d →
    exec (.dec nb) s = .next (clearBusy { s with decoder := d }))
  ∧ (∀ (s : State) (nb : BitVec 5) (e : ErrCode), s.tree.valid = true → s.port.err = .none →
    forEach (decodeBit s.params.symDepth s.tree)
      ((List.range (nb.toNat + 1)).map fun k => s.port.arg0.getLsbD (31 - k)) s.decoder = .raised e →
    exec (.dec nb) s = .next (latched e s))
  ∧ (∀ (s : State) (nb : BitVec 5), s.tree.valid = false → s.port.err = .none →
      exec (.dec nb) s = .next (latched .sequence s))
  ∧ (∀ w : Word, opOf w = 0x50#8 →
      if w.extractLsb' 5 19 = 0#19 then decode w = .ok (.dec (w.extractLsb' 0 5)) else Rejects w)

/-- R216: DECEND changes nothing when it succeeds, and raises TRUNCATED_STREAM inside a tree of two or more leaves; its
encoding. -/
def Obligations.DecendChecksEnd : Prop :=
  (∀ s : State, s.tree.valid = true →
    (s.tree.empty = false → s.tree.single = false → s.decoder.ptr ≠ s.tree.root → s.port.err = .none →
      exec .decend s = .next (latched .truncatedStream s))
    ∧ (s.tree.empty = true ∨ s.tree.single = true ∨ s.decoder.ptr = s.tree.root →
      exec .decend s = .next (clearBusy s)))
  ∧ (∀ s : State, s.tree.valid = false → s.port.err = .none → exec .decend s = .next (latched .sequence s))
  ∧ (∀ w : Word, opOf w = 0x51#8 → if w.extractLsb' 0 24 = 0#24 then decode w = .ok .decend else Rejects w)

/-- R217: DECRST puts the walk back to ROOT, clears DEC_COUNT and keeps SYM; its encoding. -/
def Obligations.DecrstRestartsWalk : Prop :=
  (∀ s : State, s.tree.valid = true → exec .decrst s = .next (clearBusy
      { s with decoder := { ptr := s.tree.root, count := 0#32, sym := s.decoder.sym } }))
  ∧ (∀ s : State, s.tree.valid = false → s.port.err = .none → exec .decrst s = .next (latched .sequence s))
  ∧ (∀ w : Word, opOf w = 0x52#8 → if w.extractLsb' 0 24 = 0#24 then decode w = .ok .decrst else Rejects w)

/-- The core of R219: after GENCODES on a consistent non-empty tree, decoding the concatenated code words of any symbols of
the table, from ROOT and with room in SYM, emits exactly these symbols in order and returns to ROOT. -/
def Obligations.DecodeInvertsEncode : Prop :=
  ∀ (s t : State) (xs : List Byte) (d : Decoder), s.tree.valid = true → s.tree.empty = false → TreeConsistent s.tree →
    exec .gencodes s = .next t → (∀ x ∈ xs, (t.codes.ct[x.toNat]).bits ≠ []) →
    d.ptr = t.tree.root → d.sym.length + xs.length ≤ t.params.symDepth →
    forEach (decodeBit t.params.symDepth t.tree) (xs.flatMap fun x => (t.codes.ct[x.toNat]).bits) d
      = .done { ptr := t.tree.root, count := d.count + BitVec.ofNat 32 xs.length, sym := d.sym ++ xs }

/-! ### Errors -/

/-- R244, R249: a completion that latches an error changes nothing but ERR, ERRCMD and BUSY. -/
def Obligations.FailedCommandHasNoEffect : Prop :=
  ∀ (i : Instr) (s t : State), s.port.err = .none → exec i s = .next t → t.port.err ≠ .none → t = latched t.port.err s

/-- R259: the preconditions, the commands that have none, and CODES_VALID = 1 implies TREE_VALID = 1 kept by every
step. -/
def Obligations.PreconditionsRaiseSequence : Prop :=
  (∀ (s : State) (i : Instr), (i = .gencodes ∨ (∃ nb, i = .dec nb) ∨ i = .decend ∨ i = .decrst) →
    s.tree.valid = false → s.port.err = .none → exec i s = .next (latched .sequence s))
  ∧ (∀ (s : State) (i : Instr), ((∃ x, i = .getcode x) ∨ (∃ x, i = .getentry x) ∨ (∃ x, i = .enc x) ∨ ∃ nb, i = .encw nb) →
    s.codes.valid = false → s.port.err = .none → exec i s = .next (latched .sequence s))
  ∧ (∀ (s t : State) (i : Instr), (i = .nop ∨ i = .clear ∨ i = .errclr ∨ (∃ x, i = .cnt x) ∨ (∃ nb, i = .cntw nb)
      ∨ i = .build ∨ i = .flush ∨ (∃ x, i = .noderd x) ∨ (∃ x, i = .nodewr x) ∨ ∃ x, i = .setroot x) →
    s.port.err = .none → exec i s = .next t → t.port.err ≠ .sequence)
  ∧ (∀ s t : State, (s.codes.valid = true → s.tree.valid = true) → step s = .next t →
    (t.codes.valid = true → t.tree.valid = true))

/-- R246: once ERR ≠ 0, ERR and ERRCMD stay over every step but a reset and the completion of CLEAR or ERRCLR; other CMD
writes are ignored, and an empty FIFO read does not overwrite. -/
def Obligations.ErrorIsSticky : Prop :=
  (∀ s t : State, s.port.err ≠ .none → step s = .next t →
    (t.port.err = s.port.err ∧ t.port.errcmd = s.port.errcmd)
    ∨ nextMove s = .reset
    ∨ (nextMove s = .complete ∧ (decode s.port.pending = .ok .clear ∨ decode s.port.pending = .ok .errclr)))
  ∧ (∀ (s : State) (w : Word), s.port.err ≠ .none → w ≠ 0x01000000#32 → w ≠ 0x02000000#32 → writeCmd w s = s)
  ∧ (∀ s : State, s.port.err ≠ .none →
    (s.packer.out = [] → readOut s = (0#32, s)) ∧ (s.decoder.sym = [] → readSym s = (0#32, s)))

/-! ### The window -/

/-- R68: a write to CMD while BUSY = 0; an accepted word need not be legal, and one that is not latches ILLEGAL_CMD when it
completes. -/
def Obligations.CmdWriteAcceptance : Prop :=
  (∀ (s : State) (w : Word) (rest : List Event), s.port.busy = false → Next s (writeAt s 0x010 w) rest →
    (s.port.err ≠ .none ∧ w ≠ 0x01000000#32 ∧ w ≠ 0x02000000#32 → step s = .next (answered s rest .writeOkay))
    ∧ (s.port.err = .none ∨ w = 0x01000000#32 ∨ w = 0x02000000#32 →
      step s = .next (answered { s with port := { s.port with pending := w, busy := true } } rest .writeOkay)))
  ∧ (∀ (s : State) (e : Illegal), s.port.err = .none → decode s.port.pending = .error e →
      completeStep s = .next (latched .illegalCmd s))

/-- R62: while BUSY = 1 an access in the window waits with no effect, unless it is an aligned 4-byte read of ID, PARAMS or
STATUS; the core completes first; then the access is served. The order of moves is the model's choice, log 3. -/
def Obligations.BusyHoldsAccesses : Prop :=
  (∀ (s : State) (a : Access) (rest : List Event), s.port.busy = true → Next s a rest →
    s.params.base ≤ a.addr → a.addr < s.params.base + 0x800 →
    ¬ (a.op = .read ∧ a.size = 4 ∧ (a.addr = s.params.base ∨ a.addr = s.params.base + 4 ∨ a.addr = s.params.base + 8)) →
    step s = .next { s with outside := { s.outside with inputs := rest, held := some a } })
  ∧ (∀ (s : State) (rest : List Event), s.port.busy = true →
    (Next s (readAt s 0x000) rest → step s = .next (answered s rest (.readOkay 0x48554646#32)))
    ∧ (Next s (readAt s 0x004) rest → step s = .next (answered s rest (.readOkay (paramsWord s.params))))
    ∧ (Next s (readAt s 0x008) rest → ∃ v : Word, v.getLsbD 0 = true
        ∧ step s = .next (answered { s with outside := { s.outside with draws := s.outside.draws + 1 } } rest (.readOkay v))))
  ∧ (∀ (s : State) (a : Access), s.outside.held = some a → s.outside.inputs = [] →
    (s.port.busy = true → step s = completeStep s)
    ∧ (s.port.busy = false → step s = .next (serveAccess a { s with outside := { s.outside with held := none } })))

/-- R61, R258: an access of any other shape gets ERROR and has no effect; a read returns 0. That an access belongs to the
window by its first address is the model's choice, log 8. -/
def Obligations.BadShapeAccess : Prop :=
  ∀ (s : State) (a : Access) (rest : List Event), s.port.busy = false → Next s a rest →
    s.params.base ≤ a.addr → a.addr < s.params.base + 0x800 → a.size ≠ 4 ∨ (a.addr - s.params.base) % 4 ≠ 0 →
    (a.op = .read → step s = .next (answered s rest (.readError 0#32)))
    ∧ (∀ v, a.op = .write v → step s = .next (answered s rest .writeError))

/-- R63, R66, R72, R43, R20, R21: what an aligned 4-byte read returns while BUSY = 0, word by word; but for OUT_DATA and
SYM_DATA it has no other effect. -/
def Obligations.WindowReads : Prop :=
  ∀ (s : State) (off : Nat) (rest : List Event), s.port.busy = false → Next s (readAt s off) rest →
    off < 0x800 → off % 4 = 0 → off ≠ 0x050 → off ≠ 0x054 →
    ∃ v : Word, step s = .next (answered s rest (.readOkay v))
      ∧ (off = 0x000 → v = 0x48554646#32)
      ∧ (off = 0x004 → v = 0x01#8 ++ 0x20#8 ++ BitVec.ofNat 8 s.params.symDepth ++ BitVec.ofNat 8 s.params.outDepth)
      ∧ (off = 0x008 → v = statusIdle s)
      ∧ (off = 0x00C → v = s.port.errcmd)
      ∧ (off = 0x010 → v = 0#32)
      ∧ (off = 0x014 → v = s.port.arg0) ∧ (off = 0x018 → v = s.port.arg1)
      ∧ (off = 0x020 → v = s.results.res0) ∧ (off = 0x024 → v = s.results.res1) ∧ (off = 0x028 → v = s.results.res2)
      ∧ (∀ k : BitVec 3, off = 0x030 + 4 * k.toNat → v = s.results.codew[k.toNat])
      ∧ (off = 0x058 → v = s.counter.total)
      ∧ (off = 0x05C → v = s.packer.bitcnt.extractLsb' 0 32) ∧ (off = 0x060 → v = s.packer.bitcnt.extractLsb' 32 32)
      ∧ (off = 0x064 → v = s.decoder.count)
      ∧ (off = 0x068 → v = s.packer.pack) ∧ (off = 0x06C → v = 0#27 ++ s.packer.packcnt)
      ∧ (off = 0x070 → v = 0#7 ++ s.tree.nleaf ++ 0#7 ++ s.tree.root)
      ∧ (off = 0x074 → v = 0#23 ++ s.decoder.ptr) ∧ (off = 0x078 → v = 0#23 ++ s.codes.count)
      ∧ (off = 0x01C ∨ off = 0x02C ∨ (0x07C ≤ off ∧ off ≤ 0x3FC) → v = 0#32)
      ∧ (∀ sym : Byte, off = 0x400 + 4 * sym.toNat → v = s.counter.hist[sym.toNat])

/-- R70, R71: a read of OUT_DATA or SYM_DATA pops the head, or returns 0 and latches READ_EMPTY with the offset. -/
def Obligations.FifoReads : Prop :=
  ∀ (s : State) (rest : List Event), s.port.busy = false →
    (Next s (readAt s 0x050) rest →
      (∀ w ws, s.packer.out = w :: ws →
        step s = .next (answered { s with packer := { s.packer with out := ws } } rest (.readOkay w)))
      ∧ (s.packer.out = [] → s.port.err = .none → step s = .next
          (answered { s with port := { s.port with err := .readEmpty, errcmd := 0x050#32 } } rest (.readOkay 0#32)))
      ∧ (s.packer.out = [] → s.port.err ≠ .none → step s = .next (answered s rest (.readOkay 0#32))))
    ∧ (Next s (readAt s 0x054) rest →
      (∀ b bs, s.decoder.sym = b :: bs →
        step s = .next (answered { s with decoder := { s.decoder with sym := bs } } rest (.readOkay (b.setWidth 32))))
      ∧ (s.decoder.sym = [] → s.port.err = .none → step s = .next
          (answered { s with port := { s.port with err := .readEmpty, errcmd := 0x054#32 } } rest (.readOkay 0#32)))
      ∧ (s.decoder.sym = [] → s.port.err ≠ .none → step s = .next (answered s rest (.readOkay 0#32))))

/-- R64, R67: an aligned 4-byte write while BUSY = 0: CMD by R68, ARG0 and ARG1 take the value, every other word ignores
it; the answer is always OKAY. -/
def Obligations.WindowWrites : Prop :=
  ∀ (s : State) (off : Nat) (v : Word) (rest : List Event), s.port.busy = false → Next s (writeAt s off v) rest →
    off < 0x800 → off % 4 = 0 →
    (off = 0x010 → step s = .next (answered (writeCmd v s) rest .writeOkay))
    ∧ (off = 0x014 → step s = .next (answered { s with port := { s.port with arg0 := v } } rest .writeOkay))
    ∧ (off = 0x018 → step s = .next (answered { s with port := { s.port with arg1 := v } } rest .writeOkay))
    ∧ (off ≠ 0x010 → off ≠ 0x014 → off ≠ 0x018 → step s = .next (answered s rest .writeOkay))

/-- R22: the fields of STATUS; while BUSY = 1 bit 0 reads 1 and the other bits are the draw, whatever it is; a write
changes nothing; at reset BUSY is 1 and every other field is 0. -/
def Obligations.StatusFields : Prop :=
  (∀ s : State, s.port.busy = true → (readStatus s).1.getLsbD 0 = true
    ∧ (readStatus s).1.extractLsb' 1 31 = Config.statusDraw s.outside.draws
    ∧ (readStatus s).2 = { s with outside := { s.outside with draws := s.outside.draws + 1 } })
  ∧ (∀ s : State, s.port.busy = false → s.packer.out.length ≤ 255 → s.decoder.sym.length ≤ 255 →
    (readStatus s).2 = s
    ∧ (readStatus s).1.getLsbD 0 = false ∧ (readStatus s).1.getLsbD 1 = s.tree.valid
    ∧ (readStatus s).1.getLsbD 2 = s.tree.empty ∧ (readStatus s).1.getLsbD 3 = s.tree.single
    ∧ (readStatus s).1.getLsbD 4 = s.codes.valid
    ∧ ((readStatus s).1.getLsbD 5 = true ↔ s.tree.valid = true ∧ s.decoder.ptr = s.tree.root)
    ∧ (readStatus s).1.extractLsb' 6 2 = 0#2 ∧ (readStatus s).1.extractLsb' 8 8 = errBits s.port.err
    ∧ ((readStatus s).1.extractLsb' 16 8).toNat = s.packer.out.length
    ∧ ((readStatus s).1.extractLsb' 24 8).toNat = s.decoder.sym.length)
  ∧ (∀ (s : State) (v : Word), writeReg s v .status = s)
  ∧ State.reset.port.busy = true ∧ statusIdle State.reset = 0#32

/-! ### Reset -/

/-- R270, R271, R272: a reset at any time gives every element its reset value, BUSY = 1 and CLEAR pending, and abandons a
held access; the CLEAR that follows changes nothing but BUSY. R274: a completed CLEAR leaves what a reset and its CLEAR
leave, but for the other side of the bus. The answer recorded for the abandoned access is the model's choice, log 8. -/
def Obligations.ResetStepState : Prop :=
  (∀ (s : State) (rest : List Event), s.outside.inputs = .reset :: rest →
    ∃ t, step s = .next t
      ∧ t.port = { busy := true, pending := 0x01000000#32, err := .none, errcmd := 0#32, arg0 := 0#32, arg1 := 0#32 }
      ∧ t.results = State.reset.results ∧ t.counter = State.reset.counter ∧ t.tree = State.reset.tree
      ∧ t.codes = State.reset.codes ∧ t.heap = State.reset.heap ∧ t.packer = State.reset.packer
      ∧ t.decoder = State.reset.decoder ∧ t.params = s.params
      ∧ t.outside.inputs = rest ∧ t.outside.held = none
      ∧ t.outside.responses
          = s.outside.responses ++ (if s.outside.held.isSome then [BusResponse.byPlatform] else [])
      ∧ completeStep t = .next (clearBusy t))
  ∧ treeinfoWord State.reset.tree = 0x000001FF#32 ∧ State.reset.decoder.ptr.setWidth 32 = 0x000001FF#32
  ∧ (∀ s : State, s.port.pending = 0x01000000#32 →
    ∃ t u, completeStep s = .next t ∧ completeStep (resetStep s) = .next u ∧ t = { u with outside := s.outside })

/-! ### Frames -/

/-- What a completed command leaves of the port, the parameters, the other side of the bus and the result registers
(R25, R26, R27): BUSY is 0; only CLEAR writes ARG0 and ARG1; only GETCODE, GETENTRY, NODERD and CLEAR write RES, and only
the first two and CLEAR write CODEW. -/
def Obligations.CommandRegistersFrame : Prop :=
  ∀ (i : Instr) (s t : State), exec i s = .next t →
    t.params = s.params ∧ t.outside = s.outside ∧ t.port.busy = false ∧ t.port.pending = s.port.pending
    ∧ (i ≠ .clear → t.port.arg0 = s.port.arg0 ∧ t.port.arg1 = s.port.arg1)
    ∧ (i ≠ .clear → (∀ x, i ≠ .getcode x) → (∀ x, i ≠ .getentry x) → t.results.codew = s.results.codew)
    ∧ (i ≠ .clear → (∀ x, i ≠ .getcode x) → (∀ x, i ≠ .getentry x) → (∀ x, i ≠ .noderd x) → t.results = s.results)

/-- Which commands write the internal stores (R28, R30, R31, R33, R34, R35). -/
def Obligations.CommandStoresFrame : Prop :=
  ∀ (i : Instr) (s t : State), exec i s = .next t → i ≠ .clear →
    ((∀ x, i ≠ .cnt x) → (∀ nb, i ≠ .cntw nb) → t.counter = s.counter)
    ∧ (i ≠ .build → (∀ x, i ≠ .nodewr x) → t.tree.arena = s.tree.arena)
    ∧ (i ≠ .build → (∀ x, i ≠ .nodewr x) → (∀ x, i ≠ .setroot x) → t.tree = s.tree)
    ∧ ((∀ x, i = .nodewr x → ∀ j : NodeIdx, j ≠ x → nodeAt t.tree.arena j = nodeAt s.tree.arena j))
    ∧ (i ≠ .gencodes → t.codes.ct = s.codes.ct ∧ t.codes.order = s.codes.order ∧ t.codes.count = s.codes.count)
    ∧ (i ≠ .gencodes → i ≠ .build → (∀ x, i ≠ .nodewr x) → (∀ x, i ≠ .setroot x) → t.codes.valid = s.codes.valid)
    ∧ (i ≠ .build → t.heap = s.heap)

/-- Which commands write the packer, the decoder and the FIFOs (R36, R37, R40, R41, R198); DEC only appends to SYM, ENC and
ENCW only to OUT. -/
def Obligations.CodecUnitsFrame : Prop :=
  ∀ (i : Instr) (s t : State), exec i s = .next t → i ≠ .clear →
    ((∀ x, i ≠ .enc x) → (∀ nb, i ≠ .encw nb) → i ≠ .flush → t.packer = s.packer)
    ∧ (i = .flush → t.packer.bitcnt = s.packer.bitcnt)
    ∧ s.packer.out <+: t.packer.out
    ∧ ((∀ nb, i ≠ .dec nb) → t.decoder.sym = s.decoder.sym)
    ∧ s.decoder.sym <+: t.decoder.sym
    ∧ ((∀ nb, i ≠ .dec nb) → i ≠ .decrst → i ≠ .build → (∀ x, i ≠ .setroot x) → t.decoder = s.decoder)

/-! ### Invariants of every step -/

/-- The unit invariants (R23, R33 to R36, R40, R41, R240, R245, R259) are kept by every step, from any state that has
them. -/
def Obligations.StepKeepsUnitsGood : Prop :=
  ∀ s t : State, UnitsGood s → step s = .next t → UnitsGood t

/-- R29: TOTAL is the sum of HIST, kept by every step. -/
def Obligations.StepKeepsCounterExact : Prop :=
  ∀ s t : State, CounterExact s.counter → step s = .next t → CounterExact t.counter

/-- R30: every arena entry keeps its unused fields 0 and no KIND 3 is stored, over every step. -/
def Obligations.StepKeepsArenaCanonical : Prop :=
  ∀ s t : State, ArenaCanonical s.tree.arena → step s = .next t → ArenaCanonical t.tree.arena

/-- R32, R210, R34: whenever TREE_VALID = 1 the tree registers describe a valid tree and DEC_PTR stands on it, and whenever
CODES_VALID = 1 the code table is the current tree's; kept by every step. The premise on the arena is the invariant of
R30. -/
def Obligations.StepKeepsTreeConsistent : Prop :=
  ∀ s t : State, ArenaCanonical s.tree.arena → TreeConsistent s.tree → DecoderOnTree s.tree s.decoder →
    CodesOfTree s.tree s.codes → step s = .next t →
    TreeConsistent t.tree ∧ DecoderOnTree t.tree t.decoder ∧ CodesOfTree t.tree t.codes

/-- The invariants hold at reset, with the parameters of log 1 and 2, the model's choice. -/
def Obligations.ResetIsGood : Prop := Good State.reset ∧ State.reset.params.InRange

/-- R13, R260: from a good state no step meets an unreachable condition, and none is refused. -/
def Obligations.StepNeverFaults : Prop :=
  ∀ s : State, Good s → ∃ t, step s = .next t

/-- R8: no step changes the parameters. -/
def Obligations.StepKeepsParams : Prop :=
  ∀ s t : State, step s = .next t → t.params = s.params

/-- R12: the only values left open are those of STATUS reads made while BUSY = 1: two runs of one step from states that
differ only in which draw comes next end in states that differ only there and in the answer to such a read, if this step
serves one; both answers then have bit 0 = 1. The earlier answers are the same list in both runs, and so is the new one on
every other step. The index of the next draw is the model's own field, log 4. -/
def Obligations.DrawsReachOnlyAnswers : Prop :=
  ∀ (s t : State) (n : Nat), step s = .next t →
    ∃ u, step { s with outside := { s.outside with draws := n } } = .next u
      ∧ u = { t with outside := { t.outside with draws := u.outside.draws, responses := u.outside.responses } }
      ∧ (s.port.busy = true ∧ nextMove s = .serve (readAt s 0x008) →
          ∃ v w : Word, t.outside.responses = s.outside.responses ++ [.readOkay v]
            ∧ u.outside.responses = s.outside.responses ++ [.readOkay w] ∧ v.getLsbD 0 = true ∧ w.getLsbD 0 = true
            ∧ t.outside.draws = s.outside.draws + 1 ∧ u.outside.draws = n + 1)
      ∧ (¬ (s.port.busy = true ∧ nextMove s = .serve (readAt s 0x008)) →
          s.outside.responses <+: t.outside.responses ∧ u.outside.responses = t.outside.responses
            ∧ t.outside.draws = s.outside.draws ∧ u.outside.draws = n)
end

