-- ==== Sys2Proof/Laws/State.lean ====
section
/-! SUPPORT. What each update of the state does to each part of it: one lemma per part per update, so that no later
proof unfolds a record update. -/

namespace Sys2Proof.Machine

/-! ### clearBusy -/

@[simp] theorem clearBusy_params (s : State) : (clearBusy s).params = s.params := rfl
@[simp] theorem clearBusy_results (s : State) : (clearBusy s).results = s.results := rfl
@[simp] theorem clearBusy_counter (s : State) : (clearBusy s).counter = s.counter := rfl
@[simp] theorem clearBusy_tree (s : State) : (clearBusy s).tree = s.tree := rfl
@[simp] theorem clearBusy_codes (s : State) : (clearBusy s).codes = s.codes := rfl
@[simp] theorem clearBusy_heap (s : State) : (clearBusy s).heap = s.heap := rfl
@[simp] theorem clearBusy_packer (s : State) : (clearBusy s).packer = s.packer := rfl
@[simp] theorem clearBusy_decoder (s : State) : (clearBusy s).decoder = s.decoder := rfl
@[simp] theorem clearBusy_outside (s : State) : (clearBusy s).outside = s.outside := rfl
@[simp] theorem clearBusy_pending (s : State) : (clearBusy s).port.pending = s.port.pending := rfl
@[simp] theorem clearBusy_err (s : State) : (clearBusy s).port.err = s.port.err := rfl
@[simp] theorem clearBusy_errcmd (s : State) : (clearBusy s).port.errcmd = s.port.errcmd := rfl
@[simp] theorem clearBusy_arg0 (s : State) : (clearBusy s).port.arg0 = s.port.arg0 := rfl
@[simp] theorem clearBusy_arg1 (s : State) : (clearBusy s).port.arg1 = s.port.arg1 := rfl
@[simp] theorem clearBusy_busy (s : State) : (clearBusy s).port.busy = false := rfl

/-! ### latched -/

@[simp] theorem latched_params (e : ErrCode) (s : State) : (latched e s).params = s.params := rfl
@[simp] theorem latched_results (e : ErrCode) (s : State) : (latched e s).results = s.results := rfl
@[simp] theorem latched_counter (e : ErrCode) (s : State) : (latched e s).counter = s.counter := rfl
@[simp] theorem latched_tree (e : ErrCode) (s : State) : (latched e s).tree = s.tree := rfl
@[simp] theorem latched_codes (e : ErrCode) (s : State) : (latched e s).codes = s.codes := rfl
@[simp] theorem latched_heap (e : ErrCode) (s : State) : (latched e s).heap = s.heap := rfl
@[simp] theorem latched_packer (e : ErrCode) (s : State) : (latched e s).packer = s.packer := rfl
@[simp] theorem latched_decoder (e : ErrCode) (s : State) : (latched e s).decoder = s.decoder := rfl
@[simp] theorem latched_outside (e : ErrCode) (s : State) : (latched e s).outside = s.outside := rfl
@[simp] theorem latched_pending (e : ErrCode) (s : State) : (latched e s).port.pending = s.port.pending := rfl
@[simp] theorem latched_arg0 (e : ErrCode) (s : State) : (latched e s).port.arg0 = s.port.arg0 := rfl
@[simp] theorem latched_arg1 (e : ErrCode) (s : State) : (latched e s).port.arg1 = s.port.arg1 := rfl
@[simp] theorem latched_err (e : ErrCode) (s : State) : (latched e s).port.err = e := rfl
@[simp] theorem latched_errcmd (e : ErrCode) (s : State) : (latched e s).port.errcmd = s.port.pending := rfl
@[simp] theorem latched_busy (e : ErrCode) (s : State) : (latched e s).port.busy = false := rfl

/-! ### resetElements and resetStep -/

@[simp] theorem resetElements_params (s : State) : (resetElements s).params = s.params := rfl
@[simp] theorem resetElements_results (s : State) : (resetElements s).results = State.reset.results := rfl
@[simp] theorem resetElements_counter (s : State) : (resetElements s).counter = State.reset.counter := rfl
@[simp] theorem resetElements_tree (s : State) : (resetElements s).tree = State.reset.tree := rfl
@[simp] theorem resetElements_codes (s : State) : (resetElements s).codes = State.reset.codes := rfl
@[simp] theorem resetElements_heap (s : State) : (resetElements s).heap = State.reset.heap := rfl
@[simp] theorem resetElements_packer (s : State) : (resetElements s).packer = State.reset.packer := rfl
@[simp] theorem resetElements_decoder (s : State) : (resetElements s).decoder = State.reset.decoder := rfl
@[simp] theorem resetStep_params (s : State) : (resetStep s).params = s.params := rfl
@[simp] theorem resetStep_results (s : State) : (resetStep s).results = State.reset.results := rfl
@[simp] theorem resetStep_counter (s : State) : (resetStep s).counter = State.reset.counter := rfl
@[simp] theorem resetStep_tree (s : State) : (resetStep s).tree = State.reset.tree := rfl
@[simp] theorem resetStep_codes (s : State) : (resetStep s).codes = State.reset.codes := rfl
@[simp] theorem resetStep_heap (s : State) : (resetStep s).heap = State.reset.heap := rfl
@[simp] theorem resetStep_packer (s : State) : (resetStep s).packer = State.reset.packer := rfl
@[simp] theorem resetStep_decoder (s : State) : (resetStep s).decoder = State.reset.decoder := rfl
@[simp] theorem resetElements_outside (s : State) : (resetElements s).outside = s.outside := rfl
@[simp] theorem resetElements_busy (s : State) : (resetElements s).port.busy = s.port.busy := rfl
@[simp] theorem resetElements_pending (s : State) : (resetElements s).port.pending = s.port.pending := rfl
@[simp] theorem resetElements_err (s : State) : (resetElements s).port.err = State.reset.port.err := rfl
@[simp] theorem resetElements_errcmd (s : State) : (resetElements s).port.errcmd = State.reset.port.errcmd := rfl
@[simp] theorem resetElements_arg0 (s : State) : (resetElements s).port.arg0 = State.reset.port.arg0 := rfl
@[simp] theorem resetElements_arg1 (s : State) : (resetElements s).port.arg1 = State.reset.port.arg1 := rfl
@[simp] theorem resetStep_port (s : State) : (resetStep s).port = State.reset.port := rfl
@[simp] theorem resetStep_inputs (s : State) : (resetStep s).outside.inputs = s.outside.inputs := rfl
@[simp] theorem resetStep_held (s : State) : (resetStep s).outside.held = none := rfl
@[simp] theorem resetStep_draws (s : State) : (resetStep s).outside.draws = s.outside.draws := rfl

/-! ### The other side of the bus -/

@[simp] theorem takeInput_params (s : State) : (takeInput s).params = s.params := rfl
@[simp] theorem takeInput_port (s : State) : (takeInput s).port = s.port := rfl
@[simp] theorem takeInput_results (s : State) : (takeInput s).results = s.results := rfl
@[simp] theorem takeInput_counter (s : State) : (takeInput s).counter = s.counter := rfl
@[simp] theorem takeInput_tree (s : State) : (takeInput s).tree = s.tree := rfl
@[simp] theorem takeInput_codes (s : State) : (takeInput s).codes = s.codes := rfl
@[simp] theorem takeInput_heap (s : State) : (takeInput s).heap = s.heap := rfl
@[simp] theorem takeInput_packer (s : State) : (takeInput s).packer = s.packer := rfl
@[simp] theorem takeInput_decoder (s : State) : (takeInput s).decoder = s.decoder := rfl
@[simp] theorem takeInput_inputs (s : State) : (takeInput s).outside.inputs = inputsLeft s.outside := rfl
@[simp] theorem takeInput_held (s : State) : (takeInput s).outside.held = s.outside.held := rfl
@[simp] theorem takeInput_responses (s : State) : (takeInput s).outside.responses = s.outside.responses := rfl
@[simp] theorem takeInput_draws (s : State) : (takeInput s).outside.draws = s.outside.draws := rfl
@[simp] theorem holdAccess_params (a : Access) (s : State) : (holdAccess a s).params = s.params := rfl
@[simp] theorem holdAccess_port (a : Access) (s : State) : (holdAccess a s).port = s.port := rfl
@[simp] theorem holdAccess_results (a : Access) (s : State) : (holdAccess a s).results = s.results := rfl
@[simp] theorem holdAccess_counter (a : Access) (s : State) : (holdAccess a s).counter = s.counter := rfl
@[simp] theorem holdAccess_tree (a : Access) (s : State) : (holdAccess a s).tree = s.tree := rfl
@[simp] theorem holdAccess_codes (a : Access) (s : State) : (holdAccess a s).codes = s.codes := rfl
@[simp] theorem holdAccess_heap (a : Access) (s : State) : (holdAccess a s).heap = s.heap := rfl
@[simp] theorem holdAccess_packer (a : Access) (s : State) : (holdAccess a s).packer = s.packer := rfl
@[simp] theorem holdAccess_decoder (a : Access) (s : State) : (holdAccess a s).decoder = s.decoder := rfl
@[simp] theorem holdAccess_held (a : Access) (s : State) : (holdAccess a s).outside.held = some a := rfl
@[simp] theorem holdAccess_inputs (a : Access) (s : State) : (holdAccess a s).outside.inputs = s.outside.inputs := rfl
@[simp] theorem holdAccess_responses (a : Access) (s : State) :
    (holdAccess a s).outside.responses = s.outside.responses := rfl
@[simp] theorem holdAccess_draws (a : Access) (s : State) : (holdAccess a s).outside.draws = s.outside.draws := rfl
@[simp] theorem answer_params (r : BusResponse) (s : State) : (answer r s).params = s.params := rfl
@[simp] theorem answer_port (r : BusResponse) (s : State) : (answer r s).port = s.port := rfl
@[simp] theorem answer_results (r : BusResponse) (s : State) : (answer r s).results = s.results := rfl
@[simp] theorem answer_counter (r : BusResponse) (s : State) : (answer r s).counter = s.counter := rfl
@[simp] theorem answer_tree (r : BusResponse) (s : State) : (answer r s).tree = s.tree := rfl
@[simp] theorem answer_codes (r : BusResponse) (s : State) : (answer r s).codes = s.codes := rfl
@[simp] theorem answer_heap (r : BusResponse) (s : State) : (answer r s).heap = s.heap := rfl
@[simp] theorem answer_packer (r : BusResponse) (s : State) : (answer r s).packer = s.packer := rfl
@[simp] theorem answer_decoder (r : BusResponse) (s : State) : (answer r s).decoder = s.decoder := rfl
@[simp] theorem answer_responses (r : BusResponse) (s : State) :
    (answer r s).outside.responses = s.outside.responses ++ [r] := rfl
@[simp] theorem answer_inputs (r : BusResponse) (s : State) : (answer r s).outside.inputs = s.outside.inputs := rfl
@[simp] theorem answer_held (r : BusResponse) (s : State) : (answer r s).outside.held = s.outside.held := rfl
@[simp] theorem answer_draws (r : BusResponse) (s : State) : (answer r s).outside.draws = s.outside.draws := rfl
@[simp] theorem putPending_params (w : Word) (s : State) : (putPending w s).params = s.params := rfl
@[simp] theorem putPending_results (w : Word) (s : State) : (putPending w s).results = s.results := rfl
@[simp] theorem putPending_counter (w : Word) (s : State) : (putPending w s).counter = s.counter := rfl
@[simp] theorem putPending_tree (w : Word) (s : State) : (putPending w s).tree = s.tree := rfl
@[simp] theorem putPending_codes (w : Word) (s : State) : (putPending w s).codes = s.codes := rfl
@[simp] theorem putPending_heap (w : Word) (s : State) : (putPending w s).heap = s.heap := rfl
@[simp] theorem putPending_packer (w : Word) (s : State) : (putPending w s).packer = s.packer := rfl
@[simp] theorem putPending_decoder (w : Word) (s : State) : (putPending w s).decoder = s.decoder := rfl
@[simp] theorem putPending_pending (w : Word) (s : State) : (putPending w s).port.pending = w := rfl
@[simp] theorem putPending_busy (w : Word) (s : State) : (putPending w s).port.busy = true := rfl
@[simp] theorem putPending_err (w : Word) (s : State) : (putPending w s).port.err = s.port.err := rfl
@[simp] theorem putPending_errcmd (w : Word) (s : State) : (putPending w s).port.errcmd = s.port.errcmd := rfl
@[simp] theorem putPending_arg0 (w : Word) (s : State) : (putPending w s).port.arg0 = s.port.arg0 := rfl
@[simp] theorem putPending_arg1 (w : Word) (s : State) : (putPending w s).port.arg1 = s.port.arg1 := rfl
@[simp] theorem putPending_inputs (w : Word) (s : State) :
    (putPending w s).outside.inputs = .tick :: s.outside.inputs := rfl
@[simp] theorem putPending_held (w : Word) (s : State) : (putPending w s).outside.held = s.outside.held := rfl
@[simp] theorem putPending_responses (w : Word) (s : State) :
    (putPending w s).outside.responses = s.outside.responses := rfl
@[simp] theorem putPending_draws (w : Word) (s : State) : (putPending w s).outside.draws = s.outside.draws := rfl

/-! ### The installs of the tree builder -/

@[simp] theorem installBuilt_params (n : Nat) (r : NodeIdx) (a : Arena) (h : Heap) (s : State) :
    (installBuilt n r a h s).params = s.params := rfl
@[simp] theorem installBuilt_port (n : Nat) (r : NodeIdx) (a : Arena) (h : Heap) (s : State) :
    (installBuilt n r a h s).port = s.port := rfl
@[simp] theorem installBuilt_results (n : Nat) (r : NodeIdx) (a : Arena) (h : Heap) (s : State) :
    (installBuilt n r a h s).results = s.results := rfl
@[simp] theorem installBuilt_counter (n : Nat) (r : NodeIdx) (a : Arena) (h : Heap) (s : State) :
    (installBuilt n r a h s).counter = s.counter := rfl
@[simp] theorem installBuilt_packer (n : Nat) (r : NodeIdx) (a : Arena) (h : Heap) (s : State) :
    (installBuilt n r a h s).packer = s.packer := rfl
@[simp] theorem installBuilt_outside (n : Nat) (r : NodeIdx) (a : Arena) (h : Heap) (s : State) :
    (installBuilt n r a h s).outside = s.outside := rfl
@[simp] theorem installBuilt_valid (n : Nat) (r : NodeIdx) (a : Arena) (h : Heap) (s : State) :
    (installBuilt n r a h s).tree.valid = true := rfl
@[simp] theorem installBuilt_codes (n : Nat) (r : NodeIdx) (a : Arena) (h : Heap) (s : State) :
    (installBuilt n r a h s).codes = { s.codes with valid := false } := rfl
@[simp] theorem installBuilt_sym (n : Nat) (r : NodeIdx) (a : Arena) (h : Heap) (s : State) :
    (installBuilt n r a h s).decoder.sym = s.decoder.sym := rfl
@[simp] theorem installBuilt_ptr (n : Nat) (r : NodeIdx) (a : Arena) (h : Heap) (s : State) :
    (installBuilt n r a h s).decoder.ptr = (installBuilt n r a h s).tree.root := rfl
@[simp] theorem installBuilt_count (n : Nat) (r : NodeIdx) (a : Arena) (h : Heap) (s : State) :
    (installBuilt n r a h s).decoder.count = 0#32 := rfl
@[simp] theorem installEmpty_params (s : State) : (installEmpty s).params = s.params := rfl
@[simp] theorem installEmpty_port (s : State) : (installEmpty s).port = s.port := rfl
@[simp] theorem installEmpty_results (s : State) : (installEmpty s).results = s.results := rfl
@[simp] theorem installEmpty_counter (s : State) : (installEmpty s).counter = s.counter := rfl
@[simp] theorem installEmpty_heap (s : State) : (installEmpty s).heap = s.heap := rfl
@[simp] theorem installEmpty_packer (s : State) : (installEmpty s).packer = s.packer := rfl
@[simp] theorem installEmpty_outside (s : State) : (installEmpty s).outside = s.outside := rfl
@[simp] theorem installEmpty_valid (s : State) : (installEmpty s).tree.valid = true := rfl
@[simp] theorem installEmpty_codes (s : State) : (installEmpty s).codes = { s.codes with valid := false } := rfl
@[simp] theorem installEmpty_sym (s : State) : (installEmpty s).decoder.sym = s.decoder.sym := rfl
@[simp] theorem installEmpty_ptr (s : State) : (installEmpty s).decoder.ptr = (installEmpty s).tree.root := rfl
@[simp] theorem installEmpty_count (s : State) : (installEmpty s).decoder.count = 0#32 := rfl
@[simp] theorem installEmpty_arena (s : State) : (installEmpty s).tree.arena = s.tree.arena := rfl
@[simp] theorem installTree_params (r : NodeIdx) (n : Nat) (s : State) : (installTree r n s).params = s.params := rfl
@[simp] theorem installTree_port (r : NodeIdx) (n : Nat) (s : State) : (installTree r n s).port = s.port := rfl
@[simp] theorem installTree_results (r : NodeIdx) (n : Nat) (s : State) :
    (installTree r n s).results = s.results := rfl
@[simp] theorem installTree_counter (r : NodeIdx) (n : Nat) (s : State) :
    (installTree r n s).counter = s.counter := rfl
@[simp] theorem installTree_heap (r : NodeIdx) (n : Nat) (s : State) : (installTree r n s).heap = s.heap := rfl
@[simp] theorem installTree_packer (r : NodeIdx) (n : Nat) (s : State) : (installTree r n s).packer = s.packer := rfl
@[simp] theorem installTree_outside (r : NodeIdx) (n : Nat) (s : State) :
    (installTree r n s).outside = s.outside := rfl
@[simp] theorem installTree_valid (r : NodeIdx) (n : Nat) (s : State) : (installTree r n s).tree.valid = true := rfl
@[simp] theorem installTree_codes (r : NodeIdx) (n : Nat) (s : State) :
    (installTree r n s).codes = { s.codes with valid := false } := rfl
@[simp] theorem installTree_sym (r : NodeIdx) (n : Nat) (s : State) :
    (installTree r n s).decoder.sym = s.decoder.sym := rfl
@[simp] theorem installTree_ptr (r : NodeIdx) (n : Nat) (s : State) :
    (installTree r n s).decoder.ptr = (installTree r n s).tree.root := rfl
@[simp] theorem installTree_count (r : NodeIdx) (n : Nat) (s : State) :
    (installTree r n s).decoder.count = 0#32 := rfl
@[simp] theorem installTree_arena (r : NodeIdx) (n : Nat) (s : State) :
    (installTree r n s).tree.arena = s.tree.arena := rfl
@[simp] theorem installBuilt_arena (n : Nat) (r : NodeIdx) (a : Arena) (h : Heap) (s : State) :
    (installBuilt n r a h s).tree.arena = a := rfl
@[simp] theorem installBuilt_heap (n : Nat) (r : NodeIdx) (a : Arena) (h : Heap) (s : State) :
    (installBuilt n r a h s).heap = h := rfl

end Sys2Proof.Machine
end

