-- ==== Sys2Proof/Laws/Ops.lean ====
section
/-! SUPPORT. What the shared operations can do, said once: sequencing and loops of command bodies, access to the arena,
and the end of a completion. Later proofs cite these and do not unfold the operations. -/

namespace Sys2Proof.Machine

/-! ### Bodies -/

@[simp] theorem Body.andThen_done {α β : Type} (a : α) (f : α → Body β) : (Body.done a).andThen f = f a := rfl

@[simp] theorem Body.andThen_raised {α β : Type} (e : ErrCode) (f : α → Body β) :
    (Body.raised e : Body α).andThen f = .raised e := rfl

@[simp] theorem Body.andThen_broken {α β : Type} (g : Fault) (f : α → Body β) :
    (Body.broken g : Body α).andThen f = .broken g := rfl

theorem Body.andThen_assoc {α β γ : Type} (x : Body α) (f : α → Body β) (g : β → Body γ) :
    (x.andThen f).andThen g = x.andThen fun a => (f a).andThen g := by cases x <;> rfl

/-- A sequence that runs to its end: both parts do. -/
theorem Body.andThen_eq_done {α β : Type} {x : Body α} {f : α → Body β} {b : β} :
    x.andThen f = .done b ↔ ∃ a, x = .done a ∧ f a = .done b := by
  cases x <;> simp

/-- A sequence that raises: one of its parts does. -/
theorem Body.andThen_eq_raised {α β : Type} {x : Body α} {f : α → Body β} {e : ErrCode} :
    x.andThen f = .raised e ↔ x = .raised e ∨ ∃ a, x = .done a ∧ f a = .raised e := by
  cases x <;> simp

/-- A sequence that stops: one of its parts does. -/
theorem Body.andThen_eq_broken {α β : Type} {x : Body α} {f : α → Body β} {g : Fault} :
    x.andThen f = .broken g ↔ x = .broken g ∨ ∃ a, x = .done a ∧ f a = .broken g := by
  cases x <;> simp

/-! ### Loops -/

@[simp] theorem forEach_nil {α β : Type} (f : β → α → Body α) (a : α) : forEach f [] a = .done a := rfl

theorem forEach_cons {α β : Type} (f : β → α → Body α) (x : β) (xs : List β) (a : α) :
    forEach f (x :: xs) a = (f x a).andThen (forEach f xs) := rfl

@[simp] theorem forEach_singleton {α β : Type} (f : β → α → Body α) (x : β) (a : α) : forEach f [x] a = f x a := by
  rw [forEach_cons]; cases f x a <;> rfl

/-- A loop over two lists is one loop after the other. -/
theorem forEach_append {α β : Type} (f : β → α → Body α) (xs ys : List β) (a : α) :
    forEach f (xs ++ ys) a = (forEach f xs a).andThen (forEach f ys) := by
  induction xs generalizing a with
  | nil => rfl
  | cons x xs ih =>
    rw [List.cons_append, forEach_cons, forEach_cons, Body.andThen_assoc]
    exact congrArg _ (funext ih)

/-- What every turn keeps, the loop keeps. -/
theorem forEach_invariant {α β : Type} {f : β → α → Body α} {P : α → Prop}
    (hf : ∀ x a b, P a → f x a = .done b → P b) {xs : List β} {a b : α} (ha : P a)
    (h : forEach f xs a = .done b) : P b := by
  induction xs generalizing a with
  | nil => cases h; exact ha
  | cons x xs ih =>
    obtain ⟨c, hc, h⟩ := Body.andThen_eq_done.mp h
    exact ih (hf x a c ha hc) h

/-- What holds of every error a turn can raise holds of every error the loop can raise. -/
theorem forEach_raised {α β : Type} {f : β → α → Body α} {P : ErrCode → Prop}
    (hf : ∀ x a e, f x a = .raised e → P e) {xs : List β} {a : α} {e : ErrCode}
    (h : forEach f xs a = .raised e) : P e := by
  induction xs generalizing a with
  | nil => cases h
  | cons x xs ih =>
    rcases Body.andThen_eq_raised.mp h with h | ⟨c, -, h⟩
    · exact hf x a e h
    · exact ih h

/-! ### The arena -/

/-- Every index but 511 names an entry (R30). -/
theorem nodeAt_isSome {a : Arena} {i : NodeIdx} : (nodeAt a i).isSome = true ↔ i ≠ 511#9 := by
  unfold nodeAt
  have hl := i.isLt
  constructor
  · rintro h rfl
    simp at h
  · intro h
    have : i.toNat ≠ 511 := fun e => h (BitVec.eq_of_toNat_eq e)
    rw [Vector.getElem?_eq_getElem (by omega)]
    rfl

theorem nodeAt_eq_none {a : Arena} {i : NodeIdx} : nodeAt a i = none ↔ i = 511#9 := by
  rw [← Option.not_isSome_iff_eq_none, Bool.not_eq_true, ← Bool.not_eq_true, nodeAt_isSome, not_not]

/-- A read after a write to the same entry. -/
theorem nodeAt_set_self {a : Arena} {i : NodeIdx} {e : Node} (h : i ≠ 511#9) :
    nodeAt (a.setIfInBounds i.toNat e) i = some e := by
  have := i.isLt
  have : i.toNat ≠ 511 := fun e => h (BitVec.eq_of_toNat_eq e)
  unfold nodeAt
  rw [Vector.getElem?_setIfInBounds_self]; simp; omega

/-- A write leaves every other entry alone. -/
theorem nodeAt_set_ne {a : Arena} {n : Nat} {i : NodeIdx} {e : Node} (h : i.toNat ≠ n) :
    nodeAt (a.setIfInBounds n e) i = nodeAt a i := by
  unfold nodeAt
  exact Vector.getElem?_setIfInBounds_ne (Ne.symm h)

/-- The entries a rule can stand on: LEAF and INTERNAL ones. -/
theorem liveNode_eq_done {off : Fault} {a : Arena} {i : NodeIdx} {e : Node} :
    liveNode off a i = .done e ↔ nodeAt a i = some e ∧ (e.kind = .leaf ∨ e.kind = .internal) := by
  unfold liveNode
  cases h : nodeAt a i with
  | none => simp
  | some e' =>
    cases hk : e'.kind <;> simp [hk] <;> rintro rfl <;> simp [hk]

theorem liveNode_not_raised {off : Fault} {a : Arena} {i : NodeIdx} {c : ErrCode} :
    liveNode off a i ≠ .raised c := by
  unfold liveNode
  split
  · simp
  · split <;> simp

/-! ### The end of a completion -/

@[simp] theorem clearBusy_clearBusy (s : State) : clearBusy (clearBusy s) = clearBusy s := rfl

/-- A latch answers a next state only over no error, and then that state is `latched`. -/
theorem latchError_next {e : ErrCode} {s t : State} :
    latchError e s = .next t ↔ s.port.err = .none ∧ t = latched e s := by
  unfold latchError
  split <;> simp_all [eq_comm]

theorem latchError_not_refused {e : ErrCode} {s : State} {r : Refusal} : latchError e s ≠ .refused r := by
  unfold latchError
  split <;> simp

/-- Everything a completion that answers a next state can be: the body ran, or an error was latched. -/
theorem complete_next {pre : Bool} {body : State → Body State} {s t : State}
    (h : complete pre body s = .next t) :
    (pre = true ∧ ∃ u, body s = .done u ∧ t = clearBusy u)
    ∨ (s.port.err = .none ∧ ∃ e, t = latched e s ∧ (pre = false ∧ e = .sequence ∨ pre = true ∧ body s = .raised e)) := by
  unfold complete at h
  split at h
  · rename_i hp
    cases hb : body s with
    | done u => rw [hb] at h; cases h; exact .inl ⟨hp, u, rfl, rfl⟩
    | raised e =>
      rw [hb] at h
      obtain ⟨he, rfl⟩ := latchError_next.mp h
      exact .inr ⟨he, e, rfl, .inr ⟨hp, rfl⟩⟩
    | broken f => rw [hb] at h; cases h
  · rename_i hp
    obtain ⟨he, rfl⟩ := latchError_next.mp h
    exact .inr ⟨he, _, rfl, .inl ⟨by simpa using hp, rfl⟩⟩

/-- A completion whose precondition holds and whose body runs (R244). -/
theorem complete_of_done {pre : Bool} {body : State → Body State} {s u : State} (hp : pre = true)
    (hb : body s = .done u) : complete pre body s = .next (clearBusy u) := by
  simp [complete, hp, hb, finish]

/-- A completion whose body raises (R244, R245). -/
theorem complete_of_raised {pre : Bool} {body : State → Body State} {s : State} {e : ErrCode} (hp : pre = true)
    (hb : body s = .raised e) (he : s.port.err = .none) : complete pre body s = .next (latched e s) := by
  simp [complete, hp, hb, finish, latchError, he]

/-- A completion whose precondition fails (R259). -/
theorem complete_of_not_pre {pre : Bool} {body : State → Body State} {s : State} (hp : pre = false)
    (he : s.port.err = .none) : complete pre body s = .next (latched .sequence s) := by
  simp [complete, hp, latchError, he]

/-- Where a completion stops: the body met a fault, or an error would be latched over another. -/
theorem complete_fault {pre : Bool} {body : State → Body State} {s : State} {f : Fault}
    (h : complete pre body s = .fault f) :
    (pre = true ∧ body s = .broken f)
    ∨ (f = .latchOverError ∧ s.port.err ≠ .none ∧ (pre = true → ∃ e, body s = .raised e)) := by
  unfold complete latchError at h
  split at h
  · rename_i hp
    cases hb : body s with
    | done u => rw [hb] at h; cases h
    | raised e =>
      rw [hb] at h; simp only [finish, latchError] at h
      split at h
      · cases h
      · cases h; exact .inr ⟨rfl, ‹_›, fun _ => ⟨e, rfl⟩⟩
    | broken g => rw [hb] at h; cases h; exact .inl ⟨hp, rfl⟩
  · rename_i hp
    split at h
    · cases h
    · cases h; exact .inr ⟨rfl, ‹_›, fun hp' => absurd hp' hp⟩

/-- No completion is refused. -/
theorem complete_not_refused {pre : Bool} {body : State → Body State} {s : State} {r : Refusal} :
    complete pre body s ≠ .refused r := by
  unfold complete
  split
  · cases body s with
    | done u => simp [finish]
    | raised e => exact latchError_not_refused
    | broken f => simp [finish]
  · exact latchError_not_refused

theorem completeIllegal_next {s t : State} :
    completeIllegal s = .next t ↔ s.port.err = .none ∧ t = latched .illegalCmd s := latchError_next

end Sys2Proof.Machine
end

