-- ==== Sys2Proof/Laws/PerInstr.lean ====
section
/-! SUPPORT. A statement about every command as syntax, one lemma per constructor: its word selects its own row of the
opcode map (spec/30_encoding.md R96). -/

namespace Sys2Proof.Laws.RowBits

/-- The word of a well-formed command selects the command's row, and that row is in the map. -/
def Statement (i : Instr) : Prop :=
  WellFormed i = true → rowOf i ∈ opcodeMap ∧ (rowOf i).selects (encode i) = true

theorem nop : Statement .nop := fun _ => ⟨by decide, by decide⟩
theorem clear : Statement .clear := fun _ => ⟨by decide, by decide⟩
theorem errclr : Statement .errclr := fun _ => ⟨by decide, by decide⟩
theorem cnt (sym : Byte) : Statement (.cnt sym) := fun _ => ⟨by simp [opcodeMap, rowSamples, rowOf], by
  revert sym; decide +kernel⟩
theorem cntw (nb : BitVec 2) : Statement (.cntw nb) := fun _ => ⟨by simp [opcodeMap, rowSamples, rowOf], by
  revert nb; decide +kernel⟩
theorem build : Statement .build := fun _ => ⟨by decide, by decide⟩
theorem gencodes : Statement .gencodes := fun _ => ⟨by decide, by decide⟩
theorem getcode (sym : Byte) : Statement (.getcode sym) := fun _ => ⟨by simp [opcodeMap, rowSamples, rowOf], by
  revert sym; decide +kernel⟩
theorem getentry (rank : Byte) : Statement (.getentry rank) := fun _ => ⟨by simp [opcodeMap, rowSamples, rowOf], by
  revert rank; decide +kernel⟩
theorem enc (sym : Byte) : Statement (.enc sym) := fun _ => ⟨by simp [opcodeMap, rowSamples, rowOf], by
  revert sym; decide +kernel⟩
theorem encw (nb : BitVec 2) : Statement (.encw nb) := fun _ => ⟨by simp [opcodeMap, rowSamples, rowOf], by
  revert nb; decide +kernel⟩
theorem flush : Statement .flush := fun _ => ⟨by decide, by decide⟩
theorem dec (nbits : BitVec 5) : Statement (.dec nbits) := fun _ => ⟨by simp [opcodeMap, rowSamples, rowOf], by
  revert nbits; decide +kernel⟩
theorem decend : Statement .decend := fun _ => ⟨by decide, by decide⟩
theorem decrst : Statement .decrst := fun _ => ⟨by decide, by decide⟩
theorem noderd (idx : NodeIdx) : Statement (.noderd idx) := fun h => ⟨by simp [opcodeMap, rowSamples, rowOf], by
  revert idx; decide +kernel⟩
theorem nodewr (idx : NodeIdx) : Statement (.nodewr idx) := fun h => ⟨by simp [opcodeMap, rowSamples, rowOf], by
  revert idx; decide +kernel⟩
theorem setroot (idx : NodeIdx) : Statement (.setroot idx) := fun _ => ⟨by simp [opcodeMap, rowSamples, rowOf], by
  revert idx; decide +kernel⟩

end Sys2Proof.Laws.RowBits
end

