-- ==== Sys2Proof/Laws/Units.lean ====
section
/-! SUPPORT. What one turn of each unit can do: counting a symbol, packing a bit, emitting and decoding, recording a code
word, the queue's operations, one merge and one turn of tree_ok. -/

namespace Sys2Proof.Machine

/-! ### Counter -/

/-- Everything a count that runs can be (R111). -/
theorem countOne_done {sym : Byte} {c c' : Counter} :
    countOne sym c = .done c' ↔
      c.total ≠ 0xFFFFFFFF#32 ∧ c.hist[sym.toNat] ≠ 0xFFFFFFFF#32
      ∧ c' = { hist := c.hist.set sym.toNat (c.hist[sym.toNat] + 1#32), total := c.total + 1#32 } := by
  unfold countOne
  split
  · simp [*]
  · split
    · simp [*]
    · simp only [Body.done.injEq]
      exact ⟨fun h => ⟨‹_›, ‹_›, h.symm⟩, fun h => h.2.2.symm⟩

theorem countOne_raised {sym : Byte} {c : Counter} {e : ErrCode} :
    countOne sym c = .raised e ↔ c.total = 0xFFFFFFFF#32 ∧ e = .countOverflow := by
  unfold countOne
  split
  · simp [*, eq_comm]
  · split <;> simp [*]

/-! ### Packer -/

theorem assignBit_getLsbD (w : Word) (i j : Nat) (b : Bool) (hj : j < 32) :
    (assignBit w i b).getLsbD j = if j = i then b else w.getLsbD j := by
  unfold assignBit
  by_cases h : j = i
  · subst h
    cases b <;> simp [hj]
  · cases b <;> simp [hj, h]

/-- Everything an append that runs can be (R190). -/
theorem appendBit_done {depth : Nat} {b : Bool} {p p' : Packer} (h : appendBit depth b p = .done p') :
    (p.packcnt.toNat = 31 ∧ p.out.length ≠ depth
      ∧ p' = { pack := 0, packcnt := 0, bitcnt := p.bitcnt + 1#64
               out := p.out ++ [assignBit p.pack (31 - p.packcnt.toNat) b] })
    ∨ (p.packcnt.toNat ≠ 31
      ∧ p' = { p with pack := assignBit p.pack (31 - p.packcnt.toNat) b, packcnt := p.packcnt + 1#5
                      bitcnt := p.bitcnt + 1#64 }) := by
  unfold appendBit at h
  simp only at h
  split at h
  · split at h
    · cases h
    · cases h; exact .inl ⟨by omega, ‹_›, rfl⟩
  · cases h; exact .inr ⟨by omega, rfl⟩

theorem appendBit_raised {depth : Nat} {b : Bool} {p : Packer} {e : ErrCode} :
    appendBit depth b p = .raised e ↔ p.packcnt.toNat = 31 ∧ p.out.length = depth ∧ e = .outFull := by
  unfold appendBit
  simp only
  split
  · split <;> simp [*, eq_comm] <;> intros <;> omega
  · simp only [reduceCtorEq, false_iff]; intro h; omega

theorem appendBit_not_broken {depth : Nat} {b : Bool} {p : Packer} {f : Fault} : appendBit depth b p ≠ .broken f := by
  unfold appendBit
  simp only
  split
  · split <;> simp
  · simp

/-- A symbol of the table is encoded bit by bit; one without an entry raises LOOKUP_ERROR (R191). -/
theorem encodeSymbol_eq {depth : Nat} {c : Codes} {sym : Byte} {p : Packer} :
    encodeSymbol depth c sym p =
      if (c.ct[sym.toNat]).bits = [] then .raised .lookupError
      else forEach (appendBit depth) (c.ct[sym.toNat]).bits p := by
  simp [encodeSymbol, CtEntry.len]

/-! ### Decoder -/

theorem emit_done {depth : Nat} {v : Byte} {d d' : Decoder} :
    emit depth v d = .done d' ↔
      d.sym.length ≠ depth ∧ d' = { d with sym := d.sym ++ [v], count := d.count + 1#32 } := by
  unfold emit
  split
  · simp [*]
  · simp only [Body.done.injEq]
    exact ⟨fun h => ⟨‹_›, h.symm⟩, fun h => h.2.symm⟩

theorem emit_raised {depth : Nat} {v : Byte} {d : Decoder} {e : ErrCode} :
    emit depth v d = .raised e ↔ d.sym.length = depth ∧ e = .symFull := by
  unfold emit
  split
  · simp [*, eq_comm]
  · simp [*]

theorem emit_not_broken {depth : Nat} {v : Byte} {d : Decoder} {f : Fault} : emit depth v d ≠ .broken f := by
  unfold emit
  split <;> simp

/-- Everything a bit that is decoded can do (R212, R213): emit a leaf's value, or move to an INTERNAL child. -/
theorem decodeBit_done {depth : Nat} {t : Tree} {b : Bool} {d d' : Decoder} (h : decodeBit depth t b d = .done d') :
    t.empty = false
    ∧ ((t.single = true ∧ b = false ∧ ∃ e, liveNode .decodeOffTree t.arena t.root = .done e
        ∧ emit depth e.value d = .done d')
      ∨ (t.single = false ∧ ∃ e e', nodeAt t.arena d.ptr = some e ∧ e.kind = .internal
        ∧ nodeAt t.arena (if b then e.right else e.left) = some e'
        ∧ ((e'.kind = .leaf ∧ emit depth e'.value { d with ptr := t.root } = .done d')
          ∨ (e'.kind = .internal ∧ d' = { d with ptr := if b then e.right else e.left })))) := by
  unfold decodeBit at h
  split at h
  · cases h
  · rename_i h1
    refine ⟨by simpa using h1, ?_⟩
    split at h
    · rename_i h2
      unfold singleBit at h
      split at h
      · cases h
      · rename_i h3
        exact .inl ⟨h2, by simpa using h3, Body.andThen_eq_done.mp h⟩
    · rename_i h2
      unfold stepBit at h
      obtain ⟨e, he, h⟩ := Body.andThen_eq_done.mp h
      obtain ⟨hn, hk⟩ := liveNode_eq_done.mp he
      split at h
      · cases h
      · rename_i h3
        obtain ⟨e', he', h⟩ := Body.andThen_eq_done.mp h
        obtain ⟨hn', hk'⟩ := liveNode_eq_done.mp he'
        refine .inr ⟨by simpa using h2, e, e', hn, hk.resolve_left h3, hn', ?_⟩
        split at h
        · exact .inl ⟨‹_›, h⟩
        · cases h; exact .inr ⟨hk'.resolve_left ‹_›, rfl⟩

/-- The errors a bit can raise (R213 to R215). -/
theorem decodeBit_raised {depth : Nat} {t : Tree} {b : Bool} {d : Decoder} {e : ErrCode}
    (h : decodeBit depth t b d = .raised e) : e = .malformedBitstream ∨ e = .symFull := by
  unfold decodeBit singleBit stepBit at h
  split at h
  · cases h; exact .inl rfl
  · split at h
    · split at h
      · cases h; exact .inl rfl
      · rcases Body.andThen_eq_raised.mp h with h | ⟨_, -, h⟩
        · exact absurd h liveNode_not_raised
        · exact .inr (emit_raised.mp h).2
    · rcases Body.andThen_eq_raised.mp h with h | ⟨_, -, h⟩
      · exact absurd h liveNode_not_raised
      · split at h
        · cases h
        · rcases Body.andThen_eq_raised.mp h with h | ⟨_, -, h⟩
          · exact absurd h liveNode_not_raised
          · split at h
            · exact .inr (emit_raised.mp h).2
            · cases h

/-! ### Code table -/

/-- Everything a record that runs can be (R170). -/
theorem record_done {v : Byte} {f : Word} {p : BitString} {c c' : Codes} :
    record v f p c = .done c' ↔
      p.length ≤ 255 ∧ c.count.toNat < 256
      ∧ c' = { c with
          ct := c.ct.set v.toNat { freq := f, bits := p, rank := c.count.setWidth 8 }
          order := c.order.setIfInBounds c.count.toNat v
          count := c.count + 1#9 } := by
  unfold record Config.maxLen
  split
  · simp only [reduceCtorEq, false_iff]; omega
  · split
    · simp only [reduceCtorEq, false_iff]; omega
    · simp only [Body.done.injEq]
      exact ⟨fun h => ⟨by omega, by omega, h.symm⟩, fun h => h.2.2.symm⟩

theorem record_not_raised {v : Byte} {f : Word} {p : BitString} {c : Codes} {e : ErrCode} :
    record v f p c ≠ .raised e := by
  unfold record
  split
  · simp
  · split <;> simp

theorem walk_leaf {a : Arena} {fuel : Nat} {i : NodeIdx} {p : BitString} {c : Codes} {e : Node}
    (h : nodeAt a i = some e) (hk : e.kind = .leaf) : walk a (fuel + 1) i p c = record e.value e.freq p c := by
  rw [walk, liveNode_eq_done.mpr ⟨h, .inl hk⟩]
  simp [hk]

theorem walk_internal {a : Arena} {fuel : Nat} {i : NodeIdx} {p : BitString} {c : Codes} {e : Node}
    (h : nodeAt a i = some e) (hk : e.kind = .internal) :
    walk a (fuel + 1) i p c =
      (walk a fuel e.left (p ++ [false]) c).andThen fun c' => walk a fuel e.right (p ++ [true]) c' := by
  rw [walk, liveNode_eq_done.mpr ⟨h, .inr hk⟩]
  simp [hk]

/-- What every record keeps, the walk keeps. -/
theorem walk_invariant {a : Arena} {P : Codes → Prop}
    (hr : ∀ v f p c c', P c → record v f p c = .done c' → P c') {fuel : Nat} {i : NodeIdx} {p : BitString}
    {c c' : Codes} (hc : P c) (h : walk a fuel i p c = .done c') : P c' := by
  induction fuel generalizing i p c c' with
  | zero => cases h
  | succ n ih =>
    rw [walk] at h
    obtain ⟨e, -, h⟩ := Body.andThen_eq_done.mp h
    split at h
    · exact hr _ _ _ _ _ hc h
    · obtain ⟨c1, h1, h2⟩ := Body.andThen_eq_done.mp h
      exact ih (ih hc h1) h2

theorem walk_not_raised {a : Arena} {fuel : Nat} {i : NodeIdx} {p : BitString} {c : Codes} {x : ErrCode} :
    walk a fuel i p c ≠ .raised x := by
  induction fuel generalizing i p c with
  | zero => simp [walk]
  | succ n ih =>
    rw [walk]
    intro h
    rcases Body.andThen_eq_raised.mp h with h | ⟨e, -, h⟩
    · exact liveNode_not_raised h
    · split at h
      · exact record_not_raised h
      · rcases Body.andThen_eq_raised.mp h with h | ⟨_, -, h⟩
        · exact ih h
        · exact ih h

/-! ### Queue and merge -/

theorem push_done {a : Arena} {i : NodeIdx} {h h' : Heap} (hp : push a i h = .done h') :
    h.count.toNat < 256 ∧ h'.count = h.count + 1#9 := by
  unfold push at hp
  split at hp
  · cases hp; exact ⟨‹_›, rfl⟩
  · cases hp

theorem popMin_done {a : Arena} {h h' : Heap} {i : NodeIdx} (hp : popMin a h = .done (i, h')) :
    h.count ≠ 0#9 ∧ i = cell h.cells 0 ∧ h'.count = h.count - 1#9 := by
  unfold popMin at hp
  split at hp
  · cases hp
  · split at hp
    · rename_i h1
      cases hp; exact ⟨‹_›, rfl, by simp [h1]⟩
    · cases hp; exact ⟨‹_›, rfl, rfl⟩

/-- Everything a merge that runs can be (R143). -/
theorem mergeOnce_done {next : Nat} {a a' : Arena} {h h' : Heap} (hm : mergeOnce next a h = .done (a', h')) :
    ∃ x h1 y h2, popMin a h = .done (x, h1) ∧ popMin a h1 = .done (y, h2)
      ∧ (freqAt a x).toNat + (freqAt a y).toNat < 2 ^ 32
      ∧ a' = a.setIfInBounds next (Node.mkInternal (freqAt a x + freqAt a y) y x)
      ∧ push a' (BitVec.ofNat 9 next) h2 = .done h' := by
  unfold mergeOnce at hm
  obtain ⟨x, hx, hm⟩ := Body.andThen_eq_done.mp hm
  obtain ⟨y, hy, hm⟩ := Body.andThen_eq_done.mp hm
  split at hm
  · cases hm
  · obtain ⟨h3, hp, hm⟩ := Body.andThen_eq_done.mp hm
    cases hm
    exact ⟨x.1, x.2, y.1, y.2, hx, hy, by omega, rfl, hp⟩

/-! ### tree_ok -/

/-- A turn of tree_ok that goes on visits the index once, and adds a leaf's value or an INTERNAL entry's children
(R154). -/
theorem treeTurn_done {a : Arena} {i : NodeIdx} {w w' : TreeWork} (h : treeTurn a i w = .done (some w')) :
    i ∉ w.visited ∧ ∃ e, nodeAt a i = some e
      ∧ ((e.kind = .leaf ∧ e.freq ≠ 0#32 ∧ e.value ∉ w.values
          ∧ w' = { w with visited := i :: w.visited, values := e.value :: w.values })
        ∨ (e.kind = .internal ∧ (∃ l r, nodeAt a e.left = some l ∧ nodeAt a e.right = some r
            ∧ l.freq.toNat + r.freq.toNat = e.freq.toNat)
          ∧ w' = { w with visited := i :: w.visited, work := w.work ++ [e.left, e.right] })) := by
  unfold treeTurn at h
  split at h
  · cases h
  · refine ⟨‹_›, ?_⟩
    split at h
    · cases h
    · rename_i e he
      refine ⟨e, he, ?_⟩
      split at h
      · cases h
      · cases h
      · rename_i hk
        split at h
        · cases h
        · rename_i hb
          cases h
          simp only [Bool.or_eq_true, decide_eq_true_eq, not_or] at hb
          exact .inl ⟨hk, hb.1, hb.2, rfl⟩
      · rename_i hk
        split at h
        · rename_i l r hl hr
          split at h
          · cases h; exact .inr ⟨hk, ⟨l, r, hl, hr, ‹_›⟩, rfl⟩
          · cases h
        · cases h

end Sys2Proof.Machine
end

