-- ==== Sys2Proof/Laws/Step.lean ====
section
/-! SUPPORT. What a bus access and a step can do, said once: the parts of the state an access leaves, the five moves of a
step, and what a body of each writing command leaves. -/

namespace Sys2Proof.Machine

/-! ### Accesses -/

/-- The parts no bus access writes. -/
def SameStores (s t : State) : Prop :=
  t.params = s.params ∧ t.results = s.results ∧ t.counter = s.counter ∧ t.tree = s.tree ∧ t.codes = s.codes
  ∧ t.heap = s.heap

theorem sameStores_refl {s : State} : SameStores s s := ⟨rfl, rfl, rfl, rfl, rfl, rfl⟩

theorem latchRead_stores {off : Word} {s : State} : SameStores s (latchRead off s) := by
  unfold latchRead
  split <;> exact sameStores_refl

/-- A read latches at most READ_EMPTY, and only over no error (R246, R247). -/
theorem latchRead_cases {off : Word} {s : State} :
    (s.port.err = .none ∧ latchRead off s = { s with port := { s.port with err := .readEmpty, errcmd := off } })
    ∨ (s.port.err ≠ .none ∧ latchRead off s = s) := by
  unfold latchRead
  split
  · exact .inl ⟨‹_›, rfl⟩
  · exact .inr ⟨‹_›, rfl⟩

theorem readReg_stores {s : State} {r : Reg} : SameStores s (readReg s r).2 := by
  cases r <;> simp only [readReg, readStatus, readOut, readSym] <;> (try split) <;>
    first | exact sameStores_refl | exact latchRead_stores

/-- A read never starts or ends a command. -/
theorem readReg_busy {s : State} {r : Reg} : (readReg s r).2.port.busy = s.port.busy := by
  cases r <;> simp only [readReg, readStatus, readOut, readSym, latchRead] <;> (repeat' split) <;> rfl

theorem readReg_pending {s : State} {r : Reg} : (readReg s r).2.port.pending = s.port.pending := by
  cases r <;> simp only [readReg, readStatus, readOut, readSym, latchRead] <;> (repeat' split) <;> rfl

/-- Reads pop the FIFOs from the head and never add. -/
theorem readReg_fifos {s : State} {r : Reg} :
    (readReg s r).2.packer.out <:+ s.packer.out ∧ (readReg s r).2.decoder.sym <:+ s.decoder.sym := by
  cases r <;> simp only [readReg, readStatus, readOut, readSym, latchRead] <;> (repeat' split) <;>
    simp_all [List.suffix_cons]

theorem writeReg_stores {s : State} {v : Word} {r : Reg} : SameStores s (writeReg s v r) := by
  cases r <;> simp only [writeReg, writeCmd] <;> (try split) <;> exact sameStores_refl

theorem writeReg_units {s : State} {v : Word} {r : Reg} :
    (writeReg s v r).packer = s.packer ∧ (writeReg s v r).decoder = s.decoder
    ∧ (writeReg s v r).outside = s.outside := by
  cases r <;> simp only [writeReg, writeCmd] <;> (try split) <;> simp

/-- No write touches the error registers (R64, R68). -/
theorem writeReg_err {s : State} {v : Word} {r : Reg} :
    (writeReg s v r).port.err = s.port.err ∧ (writeReg s v r).port.errcmd = s.port.errcmd := by
  cases r <;> simp only [writeReg, writeCmd] <;> (try split) <;> simp

/-- Everything a served access can be (R60, R61, R63, R64). -/
theorem serveAccess_cases (a : Access) (s : State) :
    (inWindow s.params a = false ∧ serveAccess a s = answer .byPlatform s)
    ∨ (inWindow s.params a = true ∧ goodShape s.params a = false ∧ serveAccess a s = answer (errorResponse a.op) s)
    ∨ (inWindow s.params a = true ∧ goodShape s.params a = true ∧ ∃ r : Reg,
        (a.op = .read ∧ serveAccess a s = answer (.readOkay (readReg s r).1) (readReg s r).2)
        ∨ ∃ v, a.op = .write v ∧ serveAccess a s = answer .writeOkay (writeReg s v r)) := by
  unfold serveAccess
  split
  · rename_i hw
    split
    · rename_i hg
      refine .inr (.inr ⟨hw, hg, regAt (offsetOf s.params a), ?_⟩)
      cases a.op with
      | read => exact .inl ⟨rfl, rfl⟩
      | write v => exact .inr ⟨v, rfl, rfl⟩
    · rename_i hg
      exact .inr (.inl ⟨hw, by simpa using hg, rfl⟩)
  · rename_i hw
    exact .inl ⟨by simpa using hw, rfl⟩

theorem serveAccess_stores {a : Access} {s : State} : SameStores s (serveAccess a s) := by
  rcases serveAccess_cases a s with ⟨-, h⟩ | ⟨-, -, h⟩ | ⟨-, -, r, ⟨-, h⟩ | ⟨v, -, h⟩⟩ <;> rw [h]
  · exact sameStores_refl
  · exact sameStores_refl
  · exact readReg_stores
  · exact writeReg_stores

/-! ### The register map -/

theorem regAt_codew {off : Nat} (h1 : 0x030 ≤ off) (h2 : off < 0x050) : regAt off = .codew ((off - 0x030) / 4) := by
  unfold regAt
  repeat rw [if_neg (by omega)]
  rw [if_pos ⟨h1, h2⟩]

theorem regAt_hist {off : Nat} (h : 0x400 ≤ off) : regAt off = .hist (BitVec.ofNat 8 ((off - 0x400) / 4)) := by
  unfold regAt
  repeat rw [if_neg (by omega)]
  rw [if_pos h]

/-- Every offset outside the named words and the two ranges is reserved (R66). -/
theorem regAt_reserved {off : Nat}
    (h : ∀ o ∈ [0x000, 0x004, 0x008, 0x00C, 0x010, 0x014, 0x018, 0x020, 0x024, 0x028,
        0x050, 0x054, 0x058, 0x05C, 0x060, 0x064, 0x068, 0x06C, 0x070, 0x074, 0x078], off ≠ o)
    (h1 : ¬ (0x030 ≤ off ∧ off < 0x050)) (h2 : off < 0x400) : regAt off = .reserved := by
  simp only [List.forall_mem_cons] at h
  unfold regAt
  repeat rw [if_neg (by omega)]

/-- What holds of every named word and of the two ranges and the reserved words holds of every word of the window: the
case split on the register map (R65). -/
theorem regAt_induction {P : Nat → Reg → Prop}
    (named : ∀ o ∈ [0x000, 0x004, 0x008, 0x00C, 0x010, 0x014, 0x018, 0x020, 0x024, 0x028,
      0x050, 0x054, 0x058, 0x05C, 0x060, 0x064, 0x068, 0x06C, 0x070, 0x074, 0x078], P o (regAt o))
    (codew : ∀ off, 0x030 ≤ off → off < 0x050 → P off (.codew ((off - 0x030) / 4)))
    (hist : ∀ off, 0x400 ≤ off → P off (.hist (BitVec.ofNat 8 ((off - 0x400) / 4))))
    (reserved : ∀ off, off < 0x400 → P off .reserved) (off : Nat) : P off (regAt off) := by
  by_cases h : off ∈ [0x000, 0x004, 0x008, 0x00C, 0x010, 0x014, 0x018, 0x020, 0x024, 0x028,
      0x050, 0x054, 0x058, 0x05C, 0x060, 0x064, 0x068, 0x06C, 0x070, 0x074, 0x078]
  · exact named off h
  · by_cases h1 : 0x030 ≤ off ∧ off < 0x050
    · rw [regAt_codew h1.1 h1.2]
      exact codew off h1.1 h1.2
    · by_cases h2 : 0x400 ≤ off
      · rw [regAt_hist h2]
        exact hist off h2
      · rw [regAt_reserved (off := off) (fun o ho e => h (e ▸ ho)) h1 (by omega)]
        exact reserved off (by omega)

theorem regAt_outData {off : Nat} : regAt off = .outData → off = 0x050 :=
  regAt_induction (P := fun off r => r = .outData → off = 0x050) (by decide) (by simp) (by simp) (by simp) off

theorem regAt_symData {off : Nat} : regAt off = .symData → off = 0x054 :=
  regAt_induction (P := fun off r => r = .symData → off = 0x054) (by decide) (by simp) (by simp) (by simp) off

theorem regAt_status {off : Nat} : regAt off = .status → off = 0x008 :=
  regAt_induction (P := fun off r => r = .status → off = 0x008) (by decide) (by simp) (by simp) (by simp) off

/-- The words a write can change (R64). -/
theorem regAt_written {off : Nat} :
    regAt off = .cmd ∨ regAt off = .arg0 ∨ regAt off = .arg1 → off = 0x010 ∨ off = 0x014 ∨ off = 0x018 :=
  regAt_induction (P := fun off r => r = .cmd ∨ r = .arg0 ∨ r = .arg1 → off = 0x010 ∨ off = 0x014 ∨ off = 0x018)
    (by decide) (by simp) (by simp) (by simp) off

/-- While BUSY = 0 a read changes nothing but where it pops a FIFO (R63). -/
theorem readReg_quiet {s : State} {r : Reg} (hb : s.port.busy = false) (h1 : r ≠ .outData) (h2 : r ≠ .symData) :
    (readReg s r).2 = s := by
  cases r <;> first | rfl | exact absurd rfl h1 | exact absurd rfl h2 | simp [readReg, readStatus, hb]

/-- A write to any word but CMD, ARG0 and ARG1 is ignored (R66, R67). -/
theorem writeReg_ignored {s : State} {v : Word} {r : Reg} (h1 : r ≠ .cmd) (h2 : r ≠ .arg0) (h3 : r ≠ .arg1) :
    writeReg s v r = s := by
  cases r <;> first | rfl | exact absurd rfl h1 | exact absurd rfl h2 | exact absurd rfl h3

/-! ### Moves -/

theorem step_of_reset {s : State} (h : nextMove s = .reset) : step s = .next (resetStep (takeInput s)) := by
  simp only [step, h]

theorem step_of_hold {s : State} {a : Access} (h : nextMove s = .hold a) :
    step s = .next (holdAccess a (takeInput s)) := by
  simp only [step, h]

theorem step_of_serve {s : State} {a : Access} (h : nextMove s = .serve a) :
    step s = .next (serveMove a (takeInput s)) := by
  simp only [step, h]

theorem step_of_complete {s : State} (h : nextMove s = .complete) : step s = completeStep (takeInput s) := by
  simp only [step, h]

theorem step_of_idle {s : State} (h : nextMove s = .idle) : step s = .next (takeInput s) := by
  simp only [step, h]

/-- The move when the host's next event is an access and no other access waits. -/
theorem nextMove_access {s : State} {a : Access} {rest : List Event} (h1 : s.outside.inputs = .access a :: rest)
    (h2 : s.outside.held = none) : nextMove s = if isHeld s a then .hold a else .serve a := by
  simp only [nextMove, quietMove, h1, h2]

/-- The move when an access waits and no reset comes. -/
theorem nextMove_held {s : State} {a : Access} (h1 : ∀ rest, s.outside.inputs ≠ .reset :: rest)
    (h2 : s.outside.held = some a) : nextMove s = if s.port.busy then .complete else .serve a := by
  unfold nextMove
  split
  · exact absurd ‹_› (h1 _)
  · simp only [quietMove, h2]


/-- The core completes only while BUSY = 1 (R11(b)). -/
theorem nextMove_complete {s : State} (h : nextMove s = .complete) : s.port.busy = true := by
  unfold nextMove at h
  split at h
  · cases h
  · unfold quietMove coreMove at h
    (repeat' split at h) <;> first | assumption | cases h

/-- An access waits only while BUSY = 1, and only inside the window (R62). -/
theorem nextMove_hold {s : State} {a : Access} (h : nextMove s = .hold a) : isHeld s a = true := by
  unfold nextMove at h
  split at h
  · cases h
  · unfold quietMove coreMove at h
    (repeat' split at h) <;> first | cases h; assumption | cases h

/-- An access is served when BUSY does not hold it (R62). -/
theorem nextMove_serve {s : State} {a : Access} (h : nextMove s = .serve a) :
    s.port.busy = false ∨ isHeld s a = false := by
  unfold nextMove at h
  split at h
  · cases h
  · unfold quietMove coreMove at h
    (repeat' split at h) <;> cases h <;> simp_all

/-- Everything a step that answers a next state can be (R11). -/
theorem step_next {s t : State} (h : step s = .next t) :
    (nextMove s = .reset ∧ t = resetStep (takeInput s))
    ∨ (∃ a, nextMove s = .hold a ∧ t = holdAccess a (takeInput s))
    ∨ (∃ a, nextMove s = .serve a ∧ t = serveMove a (takeInput s))
    ∨ (nextMove s = .complete ∧ completeStep (takeInput s) = .next t)
    ∨ (nextMove s = .idle ∧ t = takeInput s) := by
  unfold step at h
  cases hm : nextMove s <;> rw [hm] at h <;> simp_all [eq_comm]

/-- Everything a completion that answers a next state can be (R244). -/
theorem completeStep_next {s t : State} (h : completeStep s = .next t) :
    (∃ i, decode s.port.pending = .ok i ∧ exec i s = .next t)
    ∨ (∃ e, decode s.port.pending = .error e ∧ s.port.err = .none ∧ t = latched .illegalCmd s) := by
  unfold completeStep fetch at h
  split at h
  · exact .inl ⟨_, ‹_›, h⟩
  · exact .inr ⟨_, ‹_›, completeIllegal_next.mp h⟩

/-! ### Commands -/

theorem exec_nop (s : State) :
    exec .nop s = complete true .done s := rfl

theorem exec_clear (s : State) :
    exec .clear s = complete true (fun s => .done (resetElements s)) s := rfl

theorem exec_errclr (s : State) :
    exec .errclr s = complete true (fun s => .done { s with port := { s.port with err := .none, errcmd := 0 } }) s := rfl

theorem exec_cnt (sym : Byte) (s : State) :
    exec (.cnt sym) s = complete true (countBody [sym]) s := rfl

theorem exec_cntw (nb : BitVec 2) (s : State) :
    exec (.cntw nb) s = complete true (countBody (lanes s.port.arg0 nb)) s := rfl

theorem exec_build (s : State) :
    exec .build s = complete true buildBody s := rfl

theorem exec_gencodes (s : State) :
    exec .gencodes s = complete (needsTree s) gencodesBody s := rfl

theorem exec_getcode (sym : Byte) (s : State) :
    exec (.getcode sym) s = complete (needsCodes s) (fun s => .done { s with results := getcodeResults s.codes sym }) s := rfl

theorem exec_getentry (rank : Byte) (s : State) :
    exec (.getentry rank) s = complete (needsCodes s) (fun s => .done { s with results := getentryResults s.codes rank }) s := rfl

theorem exec_enc (sym : Byte) (s : State) :
    exec (.enc sym) s = complete (needsCodes s) (encodeBody [sym]) s := rfl

theorem exec_encw (nb : BitVec 2) (s : State) :
    exec (.encw nb) s = complete (needsCodes s) (encodeBody (lanes s.port.arg0 nb)) s := rfl

theorem exec_flush (s : State) :
    exec .flush s = complete true flushBody s := rfl

theorem exec_dec (nb : BitVec 5) (s : State) :
    exec (.dec nb) s = complete (needsTree s) (decodeBody (argBits s.port.arg0 nb)) s := rfl

theorem exec_decend (s : State) :
    exec .decend s = complete (needsTree s) decendBody s := rfl

theorem exec_decrst (s : State) :
    exec .decrst s = complete (needsTree s) (fun s => .done { s with decoder := { s.decoder with ptr := s.tree.root, count := 0 } }) s := rfl

theorem exec_noderd (idx : NodeIdx) (s : State) :
    exec (.noderd idx) s = complete true (noderdBody idx) s := rfl

theorem exec_nodewr (idx : NodeIdx) (s : State) :
    exec (.nodewr idx) s = complete true (nodewrBody idx) s := rfl

theorem exec_setroot (idx : NodeIdx) (s : State) :
    exec (.setroot idx) s = complete true (setrootBody idx) s := rfl

/-- Every command is the completion of a body under a precondition (R244, R259). -/
theorem exec_is_completion (i : Instr) (s : State) : ∃ pre body, exec i s = complete pre body s := by
  cases i with
  | nop => exact ⟨_, _, exec_nop s⟩
  | clear => exact ⟨_, _, exec_clear s⟩
  | errclr => exact ⟨_, _, exec_errclr s⟩
  | cnt x => exact ⟨_, _, exec_cnt x s⟩
  | cntw x => exact ⟨_, _, exec_cntw x s⟩
  | build => exact ⟨_, _, exec_build s⟩
  | gencodes => exact ⟨_, _, exec_gencodes s⟩
  | getcode x => exact ⟨_, _, exec_getcode x s⟩
  | getentry x => exact ⟨_, _, exec_getentry x s⟩
  | enc x => exact ⟨_, _, exec_enc x s⟩
  | encw x => exact ⟨_, _, exec_encw x s⟩
  | flush => exact ⟨_, _, exec_flush s⟩
  | dec x => exact ⟨_, _, exec_dec x s⟩
  | decend => exact ⟨_, _, exec_decend s⟩
  | decrst => exact ⟨_, _, exec_decrst s⟩
  | noderd x => exact ⟨_, _, exec_noderd x s⟩
  | nodewr x => exact ⟨_, _, exec_nodewr x s⟩
  | setroot x => exact ⟨_, _, exec_setroot x s⟩

/-- No command is refused. -/
theorem exec_not_refused {i : Instr} {s : State} {r : Refusal} : exec i s ≠ .refused r := by
  obtain ⟨pre, body, h⟩ := exec_is_completion i s
  rw [h]
  exact complete_not_refused

theorem step_not_refused {s : State} {r : Refusal} : step s ≠ .refused r := by
  unfold step
  cases nextMove s with
  | complete =>
    simp only [completeStep]
    split
    · exact exec_not_refused
    · exact latchError_not_refused
  | _ => simp

/-! ### Bodies -/

/-- A loop body that changes the counter alone. -/
theorem countBody_done {syms : List Byte} {s u : State} (h : countBody syms s = .done u) :
    ∃ c, forEach countOne syms s.counter = .done c ∧ u = { s with counter := c } := by
  obtain ⟨c, hc, h⟩ := Body.andThen_eq_done.mp h
  cases h; exact ⟨c, hc, rfl⟩

theorem encodeBody_done {syms : List Byte} {s u : State} (h : encodeBody syms s = .done u) :
    ∃ p, forEach (encodeSymbol s.params.outDepth s.codes) syms s.packer = .done p ∧ u = { s with packer := p } := by
  obtain ⟨p, hp, h⟩ := Body.andThen_eq_done.mp h
  cases h; exact ⟨p, hp, rfl⟩

theorem decodeBody_done {bits : BitString} {s u : State} (h : decodeBody bits s = .done u) :
    ∃ d, forEach (decodeBit s.params.symDepth s.tree) bits s.decoder = .done d ∧ u = { s with decoder := d } := by
  obtain ⟨d, hd, h⟩ := Body.andThen_eq_done.mp h
  cases h; exact ⟨d, hd, rfl⟩

theorem gencodesBody_done {s u : State} (h : gencodesBody s = .done u) :
    ∃ c, genCodes s.tree s.codes = .done c ∧ u = { s with codes := { c with valid := true } } := by
  obtain ⟨c, hc, h⟩ := Body.andThen_eq_done.mp h
  cases h; exact ⟨c, hc, rfl⟩

/-- The three ends of BUILD (R147): no leaf, one leaf, a merged tree. -/
theorem buildBody_done {s u : State} (h : buildBody s = .done u) :
    ((buildLeaves s.counter.hist).2 = 0
      ∧ u = installBuilt 0 Config.noneIdx (buildLeaves s.counter.hist).1 s.heap s)
    ∨ ((buildLeaves s.counter.hist).2 = 1 ∧ u = installBuilt 1 0#9 (buildLeaves s.counter.hist).1 s.heap s)
    ∨ (2 ≤ (buildLeaves s.counter.hist).2 ∧ ∃ a hp r,
        mergeLeaves (buildLeaves s.counter.hist).2 (buildLeaves s.counter.hist).1 s.heap = .done (a, hp, r)
        ∧ u = installBuilt (buildLeaves s.counter.hist).2 r a hp s) := by
  unfold buildBody at h
  simp only at h
  split at h
  · cases h; exact .inl ⟨‹_›, rfl⟩
  · split at h
    · cases h; exact .inr (.inl ⟨‹_›, rfl⟩)
    · obtain ⟨⟨a, hp, r⟩, hm, h⟩ := Body.andThen_eq_done.mp h
      cases h; exact .inr (.inr ⟨by omega, a, hp, r, hm, rfl⟩)

theorem nodewrBody_done {idx : NodeIdx} {s u : State} (h : nodewrBody idx s = .done u) :
    idx ≠ 511#9 ∧ legalNodeWord s.port.arg1 s.port.arg0 = true
    ∧ u = { s with
        tree := { s.tree with
          arena := s.tree.arena.setIfInBounds idx.toNat (nodeOfWord s.port.arg1 s.port.arg0)
          valid := false, empty := false, single := false }
        codes := { s.codes with valid := false } } := by
  unfold nodewrBody at h
  split at h
  · cases h
  · split at h
    · cases h; exact ⟨‹_›, ‹_›, rfl⟩
    · cases h

/-- The two installs of SETROOT (R153). -/
theorem setrootBody_done {idx : NodeIdx} {s u : State} (h : setrootBody idx s = .done u) :
    (idx = 511#9 ∧ u = installEmpty s)
    ∨ (idx ≠ 511#9 ∧ ∃ n, treeOk s.tree.arena idx = .done (some n) ∧ u = installTree idx n s) := by
  unfold setrootBody at h
  split at h
  · cases h; exact .inl ⟨‹_›, rfl⟩
  · obtain ⟨x, hx, h⟩ := Body.andThen_eq_done.mp h
    cases x with
    | none => cases h
    | some n => cases h; exact .inr ⟨‹_›, n, hx, rfl⟩

end Sys2Proof.Machine
end

