-- ==== Sys2Proof/Tests/Slice0.lean ====
section
/-! SUPPORT. Tests of the model on single steps, with results from spec/95_test_vectors.md or worked out from the named
rule, and for every statement with hypotheses a theorem that shows a state and operands meeting them. -/

namespace Sys2Proof.Tests

open Sys2Proof.Machine

/- One theorem is checked after another: checked side by side, these many small evaluations ask for more threads than
the check allows. -/
set_option Elab.async false

/-! ### Helpers -/

/-- The next state, if there is one. -/
def nextOf : Host.Outcome State Fault Refusal → Option State
  | .next t => some t
  | .fault _ => none
  | .refused _ => none

theorem next_exists {o : Host.Outcome State Fault Refusal} (h : (nextOf o).isSome = true) : ∃ t, o = .next t := by
  cases o with
  | next t => exact ⟨t, rfl⟩
  | fault f => cases h
  | refused r => cases h

/-- A next state with a property of it that can be checked. -/
theorem next_with {o : Host.Outcome State Fault Refusal} {p : State → Bool} (h : (nextOf o).any p = true) :
    ∃ t, o = .next t ∧ p t = true := by
  cases o with
  | next t => exact ⟨t, rfl, h⟩
  | fault f => cases h
  | refused r => cases h

/-- A body that ran has a result. -/
theorem done_exists {α : Type} {x : Body α} (h : (match x with | .done _ => true | _ => false) = true) :
    ∃ a, x = .done a := by
  cases x with
  | done a => exact ⟨a, rfl⟩
  | raised e => cases h
  | broken f => cases h

/-- Clean entry (spec/70_reset_and_hazards.md R289). -/
def clean : State := { State.reset with port := { State.reset.port with busy := false } }

/-- HIST and TOTAL of "aaabb" (V-TB-1). -/
def counted : State :=
  { clean with counter := { hist := (clean.counter.hist.set 0x61 3#32).set 0x62 2#32, total := 5#32 } }

/-- The arena of V-TB-1. -/
def arenaAB : Arena :=
  (((clean.tree.arena.set 0 { kind := .leaf, freq := 3, left := 0, right := 0, value := 0x61#8 }).set 1
    { kind := .leaf, freq := 2, left := 0, right := 0, value := 0x62#8 }).set 2
    { kind := .internal, freq := 5, left := 0, right := 1, value := 0 })

/-- The tree of V-TB-1 as the indices it reaches. -/
def treeAB : IdxTree := .node 2 (.leaf 0) (.leaf 1)

/-- The tree of V-TB-1, installed. -/
def built : State :=
  { clean with
    tree := { arena := arenaAB, root := 2, nleaf := 2, valid := true, empty := false, single := false }
    decoder := { ptr := 2, count := 0, sym := [] } }

/-- And its code table: a = "0", b = "1" (V-SRC-1). -/
def coded : State :=
  { built with codes :=
    { ct := (clean.codes.ct.set 0x61 { freq := 3, bits := [false], rank := 0 }).set 0x62
        { freq := 2, bits := [true], rank := 1 }
      order := (clean.codes.order.set 0 0x61#8).set 1 0x62#8, count := 2, valid := true } }

/-- The single-leaf tree of V-TB-3. -/
def single : State :=
  { clean with
    tree := { arena := clean.tree.arena.set 0 { kind := .leaf, freq := 4, left := 0, right := 0, value := 0x7A#8 }
              root := 0, nleaf := 1, valid := true, empty := false, single := true }
    decoder := { ptr := 0, count := 0, sym := [] } }

/-- The empty tree (V-TB-4). -/
def emptied : State := { clean with tree := { clean.tree with valid := true, empty := true } }

/-- A state with an error latched. -/
def failed : State := { coded with port := { coded.port with err := .lookupError, errcmd := 0x40000063#32 } }

def withArgs (s : State) (arg0 arg1 : Word) : State := { s with port := { s.port with arg0 := arg0, arg1 := arg1 } }
def withPending (s : State) (w : Word) : State := { s with port := { s.port with busy := true, pending := w } }
def withInputs (s : State) (es : List Event) : State := { s with outside := { s.outside with inputs := es } }
def withHeld (s : State) (a : Access) : State := { s with outside := { s.outside with held := some a } }
def withPack (s : State) (pack : Word) (n : BitVec 5) (out : List Word) : State :=
  { s with packer := { s.packer with pack := pack, packcnt := n, out := out } }
def withPtr (s : State) (p : NodeIdx) : State := { s with decoder := { s.decoder with ptr := p } }
def withArena (s : State) (a : Arena) : State := { s with tree := { s.tree with arena := a } }
def withTotal (s : State) (n : Word) : State :=
  { s with counter := { hist := s.counter.hist.set 0x61 n, total := n } }

/-! ### Well-formedness and decoding -/

theorem test_illformed_noderd_511 : WellFormed (.noderd 511#9) = false := by decide
theorem test_illformed_nodewr_511 : WellFormed (.nodewr 511#9) = false := by decide
theorem test_wellformed_noderd_510 : WellFormed (.noderd 510#9) = true := by decide
theorem test_wellformed_setroot_511 : WellFormed (.setroot 511#9) = true := by decide

/-! Words written bit by bit as OP, reserved bits and field (R90 to R96, V-ENC-1). -/

theorem test_decode_nop : decode 0b00000000_000000000000000000000000#32 = .ok .nop := by decide
theorem test_decode_clear : decode 0b00000001_000000000000000000000000#32 = .ok .clear := by decide
theorem test_decode_errclr : decode 0b00000010_000000000000000000000000#32 = .ok .errclr := by decide
theorem test_decode_cnt : decode 0b00010000_0000000000000000_01100001#32 = .ok (.cnt 0x61#8) := by decide
theorem test_decode_cntw : decode 0b00010001_0000000000000000000000_11#32 = .ok (.cntw 3#2) := by decide
theorem test_decode_build : decode 0b00100000_000000000000000000000000#32 = .ok .build := by decide
theorem test_decode_gencodes : decode 0b00110000_000000000000000000000000#32 = .ok .gencodes := by decide
theorem test_decode_getcode : decode 0b00110001_0000000000000000_01100010#32 = .ok (.getcode 0x62#8) := by decide
theorem test_decode_getentry : decode 0b00110010_0000000000000000_00000001#32 = .ok (.getentry 1#8) := by decide
theorem test_decode_enc : decode 0b01000000_0000000000000000_01100010#32 = .ok (.enc 0x62#8) := by decide
theorem test_decode_encw : decode 0b01000001_0000000000000000000000_01#32 = .ok (.encw 1#2) := by decide
theorem test_decode_flush : decode 0b01000010_000000000000000000000000#32 = .ok .flush := by decide
theorem test_decode_dec : decode 0b01010000_0000000000000000000_11111#32 = .ok (.dec 31#5) := by decide
theorem test_decode_decend : decode 0b01010001_000000000000000000000000#32 = .ok .decend := by decide
theorem test_decode_decrst : decode 0b01010010_000000000000000000000000#32 = .ok .decrst := by decide
theorem test_decode_noderd : decode 0b01100000_000000000000000_111111110#32 = .ok (.noderd 510#9) := by decide
theorem test_decode_nodewr : decode 0b01100001_000000000000000_000000010#32 = .ok (.nodewr 2#9) := by decide
theorem test_decode_setroot : decode 0b01100010_000000000000000_111111111#32 = .ok (.setroot 511#9) := by decide

/-- V-ENC-2: the illegal words, with the reason of each. -/
theorem test_decode_illegal :
    decode 0x03000000#32 = .error .unlistedOp ∧ decode 0xFF000000#32 = .error .unlistedOp
    ∧ decode 0x00000001#32 = .error .reservedBits ∧ decode 0x01000001#32 = .error .reservedBits
    ∧ decode 0x02000001#32 = .error .reservedBits ∧ decode 0x10000161#32 = .error .reservedBits
    ∧ decode 0x11000004#32 = .error .reservedBits ∧ decode 0x5000FF00#32 = .error .reservedBits
    ∧ decode 0x600001FF#32 = .error .index511 ∧ decode 0x610001FF#32 = .error .index511
    ∧ decode 0x62000200#32 = .error .reservedBits := by decide

/-- R101: operands outside their range, and a quoted character without an ASCII code, are refused. -/
theorem test_assemble_refuses :
    assemble "CNT" (.number 256) = none ∧ assemble "DEC" (.number 33) = none ∧ assemble "NODERD" (.number 511) = none
    ∧ assemble "CNT" (.quoted (Char.ofNat 0x80)) = none
    ∧ assemble "CNT" (.quoted (Char.ofNat 0x7F)) = some (.cnt 0x7F#8) := by decide

/-! ### One step of each command -/

/-- R230: NOP leaves a latched error. -/
theorem test_nop_keeps_error :
    (nextOf (exec .nop failed)).map (fun t => (t.port.err, t.port.busy)) = some (.lookupError, false) := by decide +kernel

/-- R231. -/
theorem test_clear_resets :
    (nextOf (exec .clear failed)).map (fun t => (t.tree.root, t.tree.valid, t.codes.valid, t.port.err))
      = some (511#9, false, false, .none) := by decide +kernel

/-- R232. -/
theorem test_errclr_clears :
    (nextOf (exec .errclr failed)).map (fun t => (t.port.err, t.port.errcmd, t.tree.root)) = some (.none, 0#32, 2#9) := by
  decide +kernel

/-- V-CNT-1. -/
theorem test_cnt_counts :
    (nextOf (exec (.cnt 0x61) clean)).map (fun t => (t.counter.hist[0x61], t.counter.total)) = some (1#32, 1#32) := by
  decide +kernel

/-- V-CNT-4, step 3. -/
theorem test_cnt_overflow :
    (nextOf (exec (.cnt 0) (withPending (withTotal clean 0xFFFFFFFF#32) 0x10000000#32))).map
      (fun t => (t.port.err, t.port.errcmd, t.counter.hist[0])) = some (.countOverflow, 0x10000000#32, 0#32) := by
  decide +kernel

/-- V-CNT-2. -/
theorem test_cntw_lanes :
    (nextOf (exec (.cntw 3) (withArgs clean 0x62616161#32 0))).map
      (fun t => (t.counter.hist[0x61], t.counter.hist[0x62], t.counter.total)) = some (3#32, 1#32, 4#32) := by
  decide +kernel

/-- V-CNT-4, step 1. -/
theorem test_cntw_all_or_nothing :
    (nextOf (exec (.cntw 3) (withArgs (withTotal clean 0xFFFFFFFD#32) 0x61616161#32 0))).map
      (fun t => (t.port.err, t.counter.hist[0x61], t.counter.total))
      = some (.countOverflow, 0xFFFFFFFD#32, 0xFFFFFFFD#32) := by decide +kernel

/-- V-TB-1. -/
theorem test_build_aaabb :
    (nextOf (exec .build counted)).map
      (fun t => (nodeAt t.tree.arena 2, t.tree.root, statusIdle t, treeinfoWord t.tree))
      = some (some { kind := .internal, freq := 5, left := 0, right := 1, value := 0 }, 2#9, 0x22#32, 0x00020002#32) := by
  decide +kernel

/-- V-TB-2: ties go to the smaller index, and the first pop goes RIGHT. -/
theorem test_build_abc :
    (nextOf (exec .build { clean with counter :=
        { hist := ((clean.counter.hist.set 0x61 1).set 0x62 1).set 0x63 1, total := 3 } })).map
      (fun t => (nodeAt t.tree.arena 3, nodeAt t.tree.arena 4, t.tree.root))
      = some (some { kind := .internal, freq := 2, left := 1, right := 0, value := 0 },
          some { kind := .internal, freq := 3, left := 3, right := 2, value := 0 }, 4#9) := by decide +kernel

/-- V-SRC-1: a = "0" with rank 0, b = "1" with rank 1. -/
theorem test_gencodes_aaabb :
    (nextOf (exec .gencodes built)).map (fun t => (t.codes.ct[0x61], t.codes.ct[0x62], t.codes.count, t.codes.valid))
      = some ({ freq := 3, bits := [false], rank := 0 }, { freq := 2, bits := [true], rank := 1 }, 2#9, true) := by
  decide +kernel

/-- V-SRC-3: the code word of a single symbol is "0". -/
theorem test_gencodes_single :
    (nextOf (exec .gencodes single)).map (fun t => (t.codes.ct[0x7A], t.codes.count))
      = some ({ freq := 4, bits := [false], rank := 0 }, 1#9) := by decide +kernel

/-- R175: VALID in bit 31, SYM in [15:8], LEN in [7:0]. -/
theorem test_getcode_b :
    (nextOf (exec (.getcode 0x62) coded)).map (fun t => (t.results.res0, t.results.res1, t.results.res2, t.results.codew[0]))
      = some (0x80006201#32, 2#32, 1#32, 0x80000000#32) := by decide +kernel

/-- R175: an absent symbol. -/
theorem test_getcode_absent :
    (nextOf (exec (.getcode 0x63) coded)).map (fun t => (t.results.res0, t.results.res1)) = some (0x00006300#32, 0#32) := by
  decide +kernel

/-- R176. -/
theorem test_getentry_0 :
    (nextOf (exec (.getentry 0) coded)).map (fun t => (t.results.res0, t.results.res1, t.results.codew[0]))
      = some (0x80006101#32, 3#32, 0#32) := by decide +kernel

/-- R176: a rank past the table. -/
theorem test_getentry_past :
    (nextOf (exec (.getentry 2) coded)).map (fun t => (t.results.res0, t.results.res2)) = some (0#32, 2#32) := by
  decide +kernel

/-- R192: the first bit goes to bit 31. -/
theorem test_enc_b :
    (nextOf (exec (.enc 0x62) coded)).map (fun t => (t.packer.pack, t.packer.packcnt, t.packer.bitcnt))
      = some (0x80000000#32, 1#5, 1#64) := by decide +kernel

/-- V-CNT-6, step 2. -/
theorem test_enc_absent :
    (nextOf (exec (.enc 0x63) coded)).map (fun t => (t.port.err, t.packer)) = some (.lookupError, coded.packer) := by
  decide +kernel

/-- V-SRC-1: "aaab" is "0001". -/
theorem test_encw_aaab :
    (nextOf (exec (.encw 3) (withArgs coded 0x62616161#32 0))).map (fun t => (t.packer.pack, t.packer.packcnt))
      = some (0x10000000#32, 4#5) := by decide +kernel

/-- R194, R248: a lane without a code appends nothing. -/
theorem test_encw_absent :
    (nextOf (exec (.encw 1) (withArgs coded 0x00006361#32 0))).map (fun t => (t.port.err, t.packer.bitcnt))
      = some (.lookupError, 0#64) := by decide +kernel

/-- V-SRC-1: "00011" is flushed as 0x18000000. -/
theorem test_flush_partial :
    (nextOf (exec .flush (withPack coded 0x18000000#32 5 []))).map
      (fun t => (t.packer.out, t.packer.pack, t.packer.packcnt)) = some ([0x18000000#32], 0#32, 0#5) := by decide +kernel

/-- R195: a full OUT. -/
theorem test_flush_full :
    (nextOf (exec .flush (withPack coded 0x18000000#32 5 (List.replicate 64 0)))).map
      (fun t => (t.port.err, t.packer.packcnt)) = some (.outFull, 5#5) := by decide +kernel

/-- V-SRC-1: 0x18000000 with DEC 5 gives 'a', 'a', 'a', 'b', 'b'. -/
theorem test_dec_aaabb :
    (nextOf (exec (.dec 4) (withArgs built 0x18000000#32 0))).map (fun t => (t.decoder.sym, t.decoder.count, t.decoder.ptr))
      = some ([0x61#8, 0x61#8, 0x61#8, 0x62#8, 0x62#8], 5#32, 2#9) := by decide +kernel

/-- R213: on a single leaf, bits 0, 0, 1 fail as a whole. -/
theorem test_dec_single_malformed :
    (nextOf (exec (.dec 2) (withArgs single 0x20000000#32 0))).map (fun t => (t.port.err, t.decoder.sym))
      = some (.malformedBitstream, []) := by decide +kernel

/-- R216. -/
theorem test_decend_inside :
    (nextOf (exec .decend (withPtr built 1))).map (fun t => t.port.err) = some .truncatedStream := by decide +kernel

theorem test_decend_at_root : (nextOf (exec .decend built)).map (fun t => t.port.err) = some .none := by decide +kernel

/-- R217. -/
theorem test_decrst_keeps_sym :
    (nextOf (exec .decrst { built with decoder := { ptr := 1, count := 7, sym := [0x61#8] } })).map (fun t => t.decoder)
      = some { ptr := 2, count := 0, sym := [0x61#8] } := by decide +kernel

/-- R150: INODE(0, 1) and FREQ 5. -/
theorem test_noderd_internal :
    (nextOf (exec (.noderd 2) built)).map (fun t => (t.results.res0, t.results.res1, t.results.res2))
      = some (0x80000200#32, 5#32, 2#32) := by decide +kernel

/-- V-TR-1: an entry NONE. -/
theorem test_noderd_none :
    (nextOf (exec (.noderd 510) built)).map (fun t => (t.results.res0, t.results.res1, t.results.res2))
      = some (0#32, 0#32, 0x1FE#32) := by decide +kernel

/-- V-SRC-1, step 3: LDNODE 2, 5, INODE(0, 1). -/
theorem test_nodewr_internal :
    (nextOf (exec (.nodewr 2) (withArgs coded 5#32 0x80000200#32))).map
      (fun t => (t.tree.arena[2], t.tree.valid, t.codes.valid)) = some (arenaAB[2], false, false) := by decide +kernel

/-- V-TR-2: reserved bit 8 set. -/
theorem test_nodewr_illegal :
    (nextOf (exec (.nodewr 1) (withArgs built 0#32 0x40000161#32))).map (fun t => (t.port.err, t.tree.arena[1]))
      = some (.illegalCmd, arenaAB[1]) := by decide +kernel

/-- V-TR-3, step 2. -/
theorem test_setroot_2 :
    (nextOf (exec (.setroot 2) (withArena clean arenaAB))).map
      (fun t => (t.tree.root, t.tree.nleaf, t.decoder.ptr, statusIdle t)) = some (2#9, 2#9, 2#9, 0x22#32) := by
  decide +kernel

/-- V-TR-4, row 4: entry 0 is reached twice. -/
theorem test_setroot_shared :
    (nextOf (exec (.setroot 2) (withArena clean
        (arenaAB.set 2 { kind := .internal, freq := 6, left := 0, right := 0, value := 0 })))).map
      (fun t => (t.port.err, statusIdle t)) = some (.badTree, 0x1500#32) := by decide +kernel

/-! ### Steps -/

/-- R104, R244: the placed word is completed by the next step. -/
theorem test_step_runs_word :
    (nextOf (step (clean.withFetchWord 32 0x10000061))).map (fun t => (t.counter.total, t.port.busy, t.outside.inputs))
      = some (1#32, false, []) := by decide +kernel

/-- R272: the CLEAR a reset leaves pending. -/
theorem test_step_after_reset : (nextOf (step State.reset)).map (fun t => t.port.busy) = some false := by decide +kernel

/-- R70, R247: an empty OUT_DATA read. -/
theorem test_step_empty_read :
    (nextOf (step (withInputs clean [rd 0 0x050]))).map (fun t => (t.outside.responses, t.port.err, t.port.errcmd))
      = some ([.readOkay 0#32], .readEmpty, 0x050#32) := by decide +kernel

/-- R21: PARAMS is 0x01204040 with the default depths; it is read while BUSY = 1. -/
theorem test_step_params :
    (nextOf (step (withInputs State.reset [rd 0 0x004]))).map (fun t => (t.outside.responses, t.port.busy))
      = some ([.readOkay 0x01204040#32], true) := by decide +kernel

/-! ### Witnesses

For every statement of Certificates/Slice0/Obligations.lean with hypotheses: a state and operands that meet them, for each
clause at an edge of its range. -/

/-! Encoding -/

theorem witness_DecodeOfEncode : WellFormed (.noderd 510#9) = true := by decide

theorem witness_EncodeOfDecode : decode 0x600001FE#32 = .ok (.noderd 510#9) := by decide

theorem witness_DecodeSelectsRow :
    decode 0x610001FE#32 = .ok (.nodewr 510#9)
    ∧ (rowOf (.nodewr 0) ∈ opcodeMap ∧ (rowOf (.nodewr 0)).selects 0x610001FE#32 = true)
    ∧ ((∀ r ∈ opcodeMap, r.selects (withPending clean 0x610001FF#32).port.pending = false)
      ∧ (withPending clean 0x610001FF#32).port.err = .none) := by decide +kernel

theorem witness_IllegalWordLatches :
    (opOf 0x03000000#32).toNat ∉ [0x00, 0x01, 0x02, 0x10, 0x11, 0x20, 0x30, 0x31, 0x32, 0x40, 0x41, 0x42, 0x50, 0x51, 0x52,
      0x60, 0x61, 0x62]
    ∧ (rowOf (.setroot 0) ∈ opcodeMap ∧ opOf 0x62000200#32 = opOf (rowOf (.setroot 0)).pattern
      ∧ 0x62000200#32 &&& (rowOf (.setroot 0)).mask ≠ (rowOf (.setroot 0)).pattern)
    ∧ (decode (withPending clean 0x600001FF#32).port.pending = .error .index511
      ∧ (withPending clean 0x600001FF#32).port.err = .none)
    ∧ (legalNodeWord (withArgs clean 0#32 0xC0000000#32).port.arg1 (withArgs clean 0#32 0xC0000000#32).port.arg0 = false
      ∧ (withArgs clean 0#32 0xC0000000#32).port.err = .none) := by decide +kernel

theorem witness_StepRunsDecodedCommand :
    (State.reset.port.busy = true ∧ decode State.reset.port.pending = .ok .clear ∧ WellFormed .clear = true
      ∧ State.reset.outside.inputs = [])
    ∧ (withInputs State.reset [.tick]).outside.inputs = .tick :: []
    ∧ ((withHeld (withInputs State.reset [wr 0 0x014 1]) { addr := 0x014, size := 4, op := .read }).outside.inputs
        = .access { addr := 0x014, size := 4, op := .write 1 } :: []
      ∧ (withHeld (withInputs State.reset [wr 0 0x014 1])
          { addr := 0x014, size := 4, op := .read }).outside.held.isSome = true)
    ∧ decodeTableWord 32 0x620001FF = some (.setroot 511#9) := by decide +kernel

/-! Control -/

theorem witness_NopDoesNothing :
    (opOf 0x00000001#32 = 0x00#8 ∧ 0x00000001#32 ≠ 0x00000000#32) ∧ failed.port.err ≠ .none := by decide

theorem witness_ClearResetsEverything :
    (opOf 0x01000001#32 = 0x01#8 ∧ 0x01000001#32 ≠ 0x01000000#32) ∧ failed.port.err ≠ .none := by decide

theorem witness_ErrclrAcknowledges :
    (opOf 0x02800000#32 = 0x02#8 ∧ 0x02800000#32 ≠ 0x02000000#32) ∧ failed.port.err ≠ .none := by decide

/-! Frequency counter -/

theorem witness_CntCountsOneSymbol :
    (CounterExact (withTotal clean 0xFFFFFFFE#32).counter
      ∧ (withTotal clean 0xFFFFFFFE#32).counter.total ≠ 0xFFFFFFFF#32)
    ∧ (CounterExact (withTotal clean 0xFFFFFFFF#32).counter
      ∧ (withTotal clean 0xFFFFFFFF#32).counter.total = 0xFFFFFFFF#32
      ∧ (withTotal clean 0xFFFFFFFF#32).port.err = .none)
    ∧ opOf 0x10000100#32 = 0x10#8 := by decide +kernel

theorem witness_CntwCountsLanes :
    (CounterExact (withTotal clean 0xFFFFFFFB#32).counter
      ∧ (withTotal clean 0xFFFFFFFB#32).counter.total.toNat + (3#2).toNat + 1 ≤ 2 ^ 32 - 1)
    ∧ (CounterExact (withTotal clean 0xFFFFFFFC#32).counter
      ∧ 2 ^ 32 - 1 < (withTotal clean 0xFFFFFFFC#32).counter.total.toNat + (3#2).toNat + 1
      ∧ (withTotal clean 0xFFFFFFFC#32).port.err = .none)
    ∧ opOf 0x11000004#32 = 0x11#8 := by decide +kernel

/-! Priority queue and BUILD -/

def heapOf (cells : List NodeIdx) : Heap :=
  { cells := fillCells 0 cells clean.heap.cells, count := BitVec.ofNat 9 cells.length }

theorem witness_HeapifyAndPushKeepOrder :
    (([0#9, 1#9] : List NodeIdx).length ≤ 256 ∧ ([0#9, 1#9] : List NodeIdx).Nodup)
    ∧ (HeapOrdered arenaAB (heapOf [1, 0]) ∧ 2#9 ∉ heapElems (heapOf [1, 0]) ∧ (heapOf [1, 0]).count.toNat < 256) := by
  decide +kernel

/-- A full heap. -/
theorem witness_push_full :
    HeapOrdered clean.tree.arena { clean.heap with count := 256 }
    ∧ 256#9 ∉ heapElems { clean.heap with count := 256 }
    ∧ ({ clean.heap with count := 256 } : Heap).count.toNat = 256 := by
  refine ⟨⟨by decide, fun j _ hj => ?_⟩, by decide +kernel, rfl⟩
  have hj : j < 256 := hj
  simp [cell, clean, State.reset, hj, show (j - 1) / 2 < 256 by omega, less]

theorem witness_PopMinIsLeast :
    (HeapOrdered arenaAB (heapOf []) ∧ (heapElems (heapOf [])).Nodup ∧ (heapOf []).count = 0#9)
    ∧ (HeapOrdered arenaAB (heapOf [1, 0]) ∧ (heapElems (heapOf [1, 0])).Nodup ∧ (heapOf [1, 0]).count ≠ 0#9) := by
  decide +kernel

theorem witness_BuildRefinesSetQueue :
    2 ≤ 2 ∧ 2 ≤ 256 ∧ ∃ x : Arena × Heap × NodeIdx, mergeLeaves 2 arenaAB clean.heap = .done x :=
  ⟨by decide, by decide, done_exists (by decide +kernel)⟩

theorem witness_BuildLaysLeavesInOrder : ∃ t, exec .build counted = .next t := next_exists (by decide +kernel)

theorem witness_BuildWritesState :
    ((∃ t, exec .build clean = .next t) ∧ countedSymbols clean.counter.hist = 0)
    ∧ ((∃ t, exec .build (withTotal clean 4#32) = .next t) ∧ countedSymbols (withTotal clean 4#32).counter.hist = 1)
    ∧ ((∃ t, exec .build counted = .next t) ∧ 2 ≤ countedSymbols counted.counter.hist) :=
  ⟨⟨next_exists (by decide +kernel), by decide +kernel⟩, ⟨next_exists (by decide +kernel), by decide +kernel⟩,
    ⟨next_exists (by decide +kernel), by decide +kernel⟩⟩

theorem witness_BuildDegenerateCases :
    ((withTotal clean 4#32).counter.hist[(0x61#8).toNat] ≠ 0#32
      ∧ ∀ u : Byte, u ≠ 0x61#8 → (withTotal clean 4#32).counter.hist[u.toNat] = 0#32)
    ∧ ∀ u : Byte, clean.counter.hist[u.toNat] = 0#32 := by
  refine ⟨⟨by decide +kernel, fun u hu => ?_⟩, fun u => by simp [clean, State.reset]⟩
  have : 0x61 ≠ u.toNat := fun h => hu (BitVec.eq_of_toNat_eq h.symm)
  simp [withTotal, clean, State.reset, Vector.getElem_set_ne, this]

theorem witness_BuildMakesValidTree :
    CounterExact counted.counter ∧ counted.heap.count = 0#9 ∧ 1 ≤ countedSymbols counted.counter.hist
    ∧ ((510#9 : NodeIdx) ≠ 511#9 ∧ 2 * countedSymbols counted.counter.hist - 1 ≤ (510#9 : NodeIdx).toNat) := by
  decide +kernel

/-! Arena access -/

theorem witness_NoderdReadsEntry :
    (nodeAt built.tree.arena 510#9 = some Node.blank ∧ Node.blank.kind ≠ .reserved) ∧ opOf 0x600001FF#32 = 0x60#8 := by
  decide +kernel

theorem witness_NodewrWritesEntry :
    ((510#9 : NodeIdx) ≠ 511#9
      ∧ legalNodeWord (withArgs clean 5#32 0x80000200#32).port.arg1 (withArgs clean 5#32 0x80000200#32).port.arg0 = true)
    ∧ (legalNodeWord (withArgs clean 5#32 0#32).port.arg1 (withArgs clean 5#32 0#32).port.arg0 = false
      ∧ (withArgs clean 5#32 0#32).port.err = .none)
    ∧ opOf 0x610001FF#32 = 0x61#8 := by decide +kernel

theorem witness_NodeWordLegality :
    legalNodeWord 0#32 0#32 = true ∧ legalNodeWord 0x40000061#32 3#32 = true ∧ legalNodeWord 0x80000200#32 5#32 = true := by
  decide

theorem isTree_AB : IsTree arenaAB 2#9 treeAB := by decide +kernel

theorem witness_TreeOkDecidesValidity : ArenaCanonical arenaAB ∧ IsTree arenaAB 2#9 treeAB :=
  ⟨by decide +kernel, isTree_AB⟩

theorem witness_SetrootInstalls :
    ((2#9 : NodeIdx) ≠ 511#9 ∧ treeOk built.tree.arena 2#9 = .done (some 2))
    ∧ ((510#9 : NodeIdx) ≠ 511#9 ∧ treeOk built.tree.arena 510#9 = .done none ∧ built.port.err = .none)
    ∧ opOf 0x62000200#32 = 0x62#8 := by decide +kernel

/-! Code table -/

theorem treeConsistent_AB : TreeConsistent built.tree :=
  .inr (.inr ⟨rfl, rfl, by decide +kernel, ⟨treeAB, isTree_AB, rfl⟩, by decide⟩)

theorem decoderOnTree_AB : DecoderOnTree built.tree built.decoder :=
  fun _ => ⟨fun h => absurd h (by decide), fun h => absurd h (by decide),
    fun _ _ => ⟨treeAB, isTree_AB, by decide +kernel⟩⟩

theorem witness_GencodesWalksTree :
    built.tree.valid = true ∧ built.tree.empty = false ∧ built.tree.single = false
    ∧ IsTree built.tree.arena built.tree.root treeAB := ⟨rfl, rfl, rfl, isTree_AB⟩

theorem witness_GencodesSpecialTrees :
    (single.tree.valid = true ∧ single.tree.empty = false ∧ single.tree.single = true
      ∧ kindAt single.tree.arena single.tree.root = .leaf)
    ∧ (emptied.tree.valid = true ∧ emptied.tree.empty = true)
    ∧ (clean.tree.valid = false ∧ clean.port.err = .none)
    ∧ opOf 0x30000001#32 = 0x30#8 := by decide +kernel

theorem witness_GencodesPrefixFree :
    (built.tree.valid = true ∧ TreeConsistent built.tree)
    ∧ (emptied.tree.valid = true ∧ TreeConsistent emptied.tree ∧ emptied.tree.empty = true)
    ∧ (single.tree.valid = true ∧ TreeConsistent single.tree ∧ IsTree single.tree.arena single.tree.root (.leaf 0)) :=
  ⟨⟨rfl, treeConsistent_AB⟩, ⟨rfl, .inl ⟨rfl, rfl, rfl, rfl⟩, rfl⟩,
    ⟨rfl, .inr (.inl ⟨rfl, rfl, by decide +kernel, rfl⟩), by decide +kernel⟩⟩

theorem witness_GetcodeReadsEntry :
    (coded.codes.valid = true ∧ (coded.codes.ct[(0x62#8).toNat]).bits ≠ [])
    ∧ (coded.codes.ct[(0x63#8).toNat]).bits = []
    ∧ (clean.codes.valid = false ∧ clean.port.err = .none) ∧ opOf 0x31000161#32 = 0x31#8 := by decide +kernel

theorem witness_GetentryReadsRank :
    (coded.codes.valid = true ∧ (1#8).toNat < coded.codes.count.toNat) ∧ coded.codes.count.toNat ≤ (2#8).toNat
    ∧ (clean.codes.valid = false ∧ clean.port.err = .none) ∧ opOf 0x32000161#32 = 0x32#8 := by decide +kernel

theorem witness_CodewLayoutBits : (List.replicate 256 true).length ≤ 256 ∧ 31 < 32 := by decide +kernel

/-! Encoder -/

/-- OUT_DEPTH reached, and PACK one bit short of a word. -/
def outFull : State := withPack coded 0#32 31 (List.replicate 64 0)

theorem witness_AppendBitPacks :
    (outFull.packer.packcnt.toNat = 31 ∧ outFull.packer.out.length = 64) ∧ outFull.packer.out.length ≠ 65
    ∧ clean.packer.packcnt.toNat ≠ 31 ∧ PackClean clean.packer
    ∧ appendBit 64 true clean.packer
        = .done { pack := 0x80000000#32, packcnt := 1, bitcnt := 1, out := [] } := by decide +kernel

theorem witness_EncAppendsCodeWord :
    (coded.codes.valid = true ∧ (coded.codes.ct[(0x62#8).toNat]).bits ≠ [] ∧ coded.packer.out.length ≤ coded.params.outDepth
      ∧ (coded.packer.packcnt.toNat + (coded.codes.ct[(0x62#8).toNat]).bits.length) / 32 + coded.packer.out.length
        ≤ coded.params.outDepth)
    ∧ (outFull.codes.valid = true ∧ (outFull.codes.ct[(0x62#8).toNat]).bits ≠ []
      ∧ outFull.packer.out.length ≤ outFull.params.outDepth
      ∧ outFull.params.outDepth
        < (outFull.packer.packcnt.toNat + (outFull.codes.ct[(0x62#8).toNat]).bits.length) / 32 + outFull.packer.out.length
      ∧ outFull.port.err = .none)
    ∧ (coded.codes.ct[(0x63#8).toNat]).bits = [] ∧ (clean.codes.valid = false ∧ clean.port.err = .none)
    ∧ opOf 0x40000161#32 = 0x40#8 := by decide +kernel

def encwFits : State := withArgs coded 0x62616161#32 0
def encwAbsent : State := withArgs coded 0x00006361#32 0
def encwFull : State := withArgs outFull 0x62616161#32 0

/-- Four lanes that fit; a second lane without a code; a first lane that finds OUT full. -/
theorem witness_EncwAppendsLanes :
    (encwFits.codes.valid = true ∧ encwFits.packer.out.length ≤ encwFits.params.outDepth
      ∧ (∀ x ∈ lanes encwFits.port.arg0 3#2, (encwFits.codes.ct[x.toNat]).bits ≠ [])
      ∧ (encwFits.packer.packcnt.toNat
          + ((lanes encwFits.port.arg0 3#2).flatMap fun x => (encwFits.codes.ct[x.toNat]).bits).length) / 32
        + encwFits.packer.out.length ≤ encwFits.params.outDepth)
    ∧ (encwAbsent.codes.valid = true ∧ encwAbsent.packer.out.length ≤ encwAbsent.params.outDepth
      ∧ lanes encwAbsent.port.arg0 1#2 = [0x61#8] ++ 0x63#8 :: []
      ∧ (∀ y ∈ [0x61#8], (encwAbsent.codes.ct[(y : Byte).toNat]).bits ≠ [])
      ∧ (encwAbsent.packer.packcnt.toNat
          + ([0x61#8].flatMap fun y => (encwAbsent.codes.ct[(y : Byte).toNat]).bits).length) / 32
        + encwAbsent.packer.out.length ≤ encwAbsent.params.outDepth
      ∧ encwAbsent.port.err = .none ∧ (encwAbsent.codes.ct[(0x63#8).toNat]).bits = [])
    ∧ (encwFull.codes.valid = true ∧ encwFull.packer.out.length ≤ encwFull.params.outDepth
      ∧ lanes encwFull.port.arg0 3#2 = [] ++ 0x61#8 :: [0x61#8, 0x61#8, 0x62#8]
      ∧ (encwFull.packer.packcnt.toNat + 0) / 32 + encwFull.packer.out.length ≤ encwFull.params.outDepth
      ∧ encwFull.port.err = .none ∧ (encwFull.codes.ct[(0x61#8).toNat]).bits ≠ []
      ∧ encwFull.params.outDepth < (encwFull.packer.packcnt.toNat
        + (([] ++ [0x61#8]).flatMap fun y => (encwFull.codes.ct[(y : Byte).toNat]).bits).length) / 32
        + encwFull.packer.out.length)
    ∧ (clean.codes.valid = false ∧ clean.port.err = .none) ∧ opOf 0x41000161#32 = 0x41#8 := by decide +kernel

theorem witness_FlushPushesPartialWord :
    clean.packer.packcnt = 0#5
    ∧ ((withPack clean 0x80000000#32 1 []).packer.packcnt ≠ 0#5
      ∧ (withPack clean 0x80000000#32 1 []).packer.out.length ≠ (withPack clean 0x80000000#32 1 []).params.outDepth)
    ∧ (outFull.packer.packcnt ≠ 0#5 ∧ outFull.packer.out.length = outFull.params.outDepth ∧ outFull.port.err = .none)
    ∧ opOf 0x42000161#32 = 0x42#8 := by decide +kernel

/-! Decoder -/

/-- "abc" (V-TB-2): a tree with an inner node below the root. -/
def arenaABC : Arena :=
  (((((clean.tree.arena.set 0 { kind := .leaf, freq := 1, left := 0, right := 0, value := 0x61#8 }).set 1
    { kind := .leaf, freq := 1, left := 0, right := 0, value := 0x62#8 }).set 2
    { kind := .leaf, freq := 1, left := 0, right := 0, value := 0x63#8 }).set 3
    { kind := .internal, freq := 2, left := 1, right := 0, value := 0 }).set 4
    { kind := .internal, freq := 3, left := 3, right := 2, value := 0 })

theorem witness_DecodeBitWalks :
    emptied.tree.empty = true
    ∧ (single.tree.empty = false ∧ single.tree.single = true ∧ kindAt single.tree.arena single.tree.root = .leaf)
    ∧ (nodeAt arenaABC 4#9 = some { kind := .internal, freq := 3, left := 3, right := 2, value := 0 }
      ∧ kindAt arenaABC 2#9 = .leaf ∧ kindAt arenaABC 3#9 = .internal)
    ∧ (nodeAt arenaABC 5#9 = some Node.blank ∧ Node.blank.kind = .none)
    ∧ ({ clean.decoder with sym := List.replicate 64 0 } : Decoder).sym.length = 64 ∧ clean.decoder.sym.length ≠ 64 := by
  decide +kernel

/-- 32 bits into a SYM that just has room for 32 symbols. -/
def symNearlyFull : State := { built with decoder := { built.decoder with sym := List.replicate 32 0 } }

theorem decoderOnTree_nearlyFull : DecoderOnTree symNearlyFull.tree symNearlyFull.decoder :=
  fun _ => ⟨fun h => absurd h (by decide), fun h => absurd h (by decide),
    fun _ _ => ⟨treeAB, isTree_AB, by decide +kernel⟩⟩

theorem witness_DecRunsBits :
    (symNearlyFull.tree.valid = true ∧ TreeConsistent symNearlyFull.tree
      ∧ DecoderOnTree symNearlyFull.tree symNearlyFull.decoder ∧ symNearlyFull.tree.empty = false
      ∧ (symNearlyFull.tree.single = true → ∀ k, k ≤ (31#5).toNat → symNearlyFull.port.arg0.getLsbD (31 - k) = false)
      ∧ symNearlyFull.decoder.sym.length + (31#5).toNat + 1 ≤ symNearlyFull.params.symDepth)
    ∧ (∃ d, forEach (decodeBit symNearlyFull.params.symDepth symNearlyFull.tree)
        ((List.range ((31#5).toNat + 1)).map fun k => symNearlyFull.port.arg0.getLsbD (31 - k)) symNearlyFull.decoder
        = .done d)
    ∧ (emptied.tree.valid = true ∧ emptied.port.err = .none
      ∧ forEach (decodeBit emptied.params.symDepth emptied.tree)
        ((List.range ((0#5).toNat + 1)).map fun k => emptied.port.arg0.getLsbD (31 - k)) emptied.decoder
        = .raised .malformedBitstream)
    ∧ (clean.tree.valid = false ∧ clean.port.err = .none) ∧ opOf 0x50000161#32 = 0x50#8 :=
  ⟨⟨rfl, treeConsistent_AB, decoderOnTree_nearlyFull, rfl, fun h => absurd h (by decide),
    by decide +kernel⟩, done_exists (by decide +kernel), by decide +kernel, by decide +kernel, by decide⟩

theorem witness_DecendChecksEnd :
    ((withPtr built 1).tree.valid = true ∧ (withPtr built 1).tree.empty = false ∧ (withPtr built 1).tree.single = false
      ∧ (withPtr built 1).decoder.ptr ≠ (withPtr built 1).tree.root ∧ (withPtr built 1).port.err = .none)
    ∧ emptied.tree.empty = true ∧ single.tree.single = true ∧ built.decoder.ptr = built.tree.root
    ∧ (clean.tree.valid = false ∧ clean.port.err = .none) ∧ opOf 0x51000161#32 = 0x51#8 := by decide +kernel

theorem witness_DecrstRestartsWalk :
    built.tree.valid = true ∧ (clean.tree.valid = false ∧ clean.port.err = .none) ∧ opOf 0x52000161#32 = 0x52#8 := by
  decide

theorem witness_DecodeInvertsEncode :
    built.tree.valid = true ∧ built.tree.empty = false ∧ TreeConsistent built.tree
    ∧ ∃ t, exec .gencodes built = .next t
      ∧ (∀ x ∈ [0x61#8, 0x62#8], (t.codes.ct[(x : Byte).toNat]).bits ≠ []) ∧ built.decoder.ptr = t.tree.root
      ∧ built.decoder.sym.length + [0x61#8, 0x62#8].length ≤ t.params.symDepth := by
  obtain ⟨t, h, hp⟩ := next_with (o := exec .gencodes built)
    (p := fun t => decide ((∀ x ∈ [0x61#8, 0x62#8], (t.codes.ct[(x : Byte).toNat]).bits ≠ [])
      ∧ built.decoder.ptr = t.tree.root ∧ built.decoder.sym.length + 2 ≤ t.params.symDepth)) (by decide +kernel)
  exact ⟨rfl, rfl, treeConsistent_AB, t, h, of_decide_eq_true hp⟩

/-! Errors -/

theorem witness_FailedCommandHasNoEffect :
    coded.port.err = .none ∧ ∃ t, exec (.enc 0x63#8) coded = .next t ∧ t.port.err ≠ .none := by
  obtain ⟨t, h, hp⟩ := next_with (o := exec (.enc 0x63#8) coded) (p := fun t => t.port.err != .none) (by decide +kernel)
  exact ⟨rfl, t, h, by simpa using hp⟩

theorem witness_PreconditionsRaiseSequence :
    (clean.tree.valid = false ∧ clean.port.err = .none) ∧ clean.codes.valid = false
    ∧ (∃ t, exec (.setroot 511#9) clean = .next t)
    ∧ ((coded.codes.valid = true → coded.tree.valid = true)
      ∧ ∃ t, step (withPending coded 0x620001FF#32) = .next t ∧ (t.tree.valid == true) = true) :=
  ⟨⟨rfl, rfl⟩, rfl, next_exists (by decide +kernel), fun _ => rfl, next_with (by decide +kernel)⟩

/-- With an error latched: a CMD write, an empty FIFO read, a completed ERRCLR and a reset. -/
theorem witness_ErrorIsSticky :
    failed.port.err ≠ .none
    ∧ (∃ t, step (withInputs failed [cmd 0 .build]) = .next t) ∧ (∃ t, step (withInputs failed [rd 0 0x050]) = .next t)
    ∧ (∃ t, step (withPending failed 0x02000000#32) = .next t) ∧ (∃ t, step (withInputs failed [.reset]) = .next t)
    ∧ 0x20000000#32 ≠ 0x01000000#32 ∧ failed.packer.out = [] ∧ failed.decoder.sym = [] :=
  ⟨by decide, next_exists (by decide +kernel), next_exists (by decide +kernel), next_exists (by decide +kernel),
    next_exists (by decide +kernel), by decide, rfl, rfl⟩

/-! The window -/

/-- The host reads at an offset next. -/
def reading (s : State) (off : Nat) : State := withInputs s [.access (readAt s off)]
/-- The host writes at an offset next. -/
def writing (s : State) (off : Nat) (v : Word) : State := withInputs s [.access (writeAt s off v)]

theorem witness_CmdWriteAcceptance :
    ((writing failed 0x010 0x20000000#32).port.busy = false
      ∧ Next (writing failed 0x010 0x20000000#32) (writeAt (writing failed 0x010 0x20000000#32) 0x010 0x20000000#32) []
      ∧ (writing failed 0x010 0x20000000#32).port.err ≠ .none)
    ∧ (Next (writing failed 0x010 0x02000000#32) (writeAt (writing failed 0x010 0x02000000#32) 0x010 0x02000000#32) [])
    ∧ (Next (writing clean 0x010 0x03000000#32) (writeAt (writing clean 0x010 0x03000000#32) 0x010 0x03000000#32) []
      ∧ (writing clean 0x010 0x03000000#32).port.err = .none)
    ∧ ((withPending clean 0x03000000#32).port.err = .none
      ∧ decode (withPending clean 0x03000000#32).port.pending = .error .unlistedOp) := by decide +kernel

/-- Held: a read of ERRCMD, a byte read of STATUS, a write of STATUS and the last byte of the window. -/
theorem witness_BusyHoldsAccesses :
    ∀ a ∈ [({ addr := 0x00C, size := 4, op := .read } : Access), { addr := 0x008, size := 1, op := .read },
      { addr := 0x008, size := 4, op := .write 0 }, { addr := 0x7FF, size := 1, op := .read }],
    (withInputs State.reset [.access a]).port.busy = true ∧ Next (withInputs State.reset [.access a]) a []
    ∧ State.reset.params.base ≤ a.addr ∧ a.addr < State.reset.params.base + 0x800
    ∧ ¬ (a.op = .read ∧ a.size = 4
      ∧ (a.addr = State.reset.params.base ∨ a.addr = State.reset.params.base + 4 ∨ a.addr = State.reset.params.base + 8)) := by
  decide +kernel

/-- Not held: reads of ID, PARAMS and STATUS; and the access that waits, before and after the completion. -/
theorem witness_BusyHoldsAccesses_unheld :
    (Next (reading State.reset 0x000) (readAt (reading State.reset 0x000) 0x000) []
      ∧ (reading State.reset 0x000).port.busy = true)
    ∧ Next (reading State.reset 0x004) (readAt (reading State.reset 0x004) 0x004) []
    ∧ Next (reading State.reset 0x008) (readAt (reading State.reset 0x008) 0x008) []
    ∧ ((withHeld State.reset (readAt clean 0x014)).outside.held = some (readAt clean 0x014)
      ∧ (withHeld State.reset (readAt clean 0x014)).outside.inputs = []
      ∧ (withHeld State.reset (readAt clean 0x014)).port.busy = true)
    ∧ ((withHeld clean (readAt clean 0x014)).outside.held = some (readAt clean 0x014)
      ∧ (withHeld clean (readAt clean 0x014)).port.busy = false) := by decide +kernel

/-- Refused shapes: a byte, a misaligned word, a 64-bit access in the last word, a write. -/
theorem witness_BadShapeAccess :
    ∀ a ∈ [({ addr := 0x000, size := 1, op := .read } : Access), { addr := 0x7FD, size := 4, op := .read },
      { addr := 0x7FC, size := 8, op := .read }, { addr := 0x010, size := 2, op := .write 0x01000000#32 }],
    (withInputs clean [.access a]).port.busy = false ∧ Next (withInputs clean [.access a]) a []
    ∧ clean.params.base ≤ a.addr ∧ a.addr < clean.params.base + 0x800
    ∧ (a.size ≠ 4 ∨ (a.addr - clean.params.base) % 4 ≠ 0) := by decide +kernel

/-- The first and the last word of every clause. -/
theorem witness_WindowReads :
    ∀ off ∈ [0x000, 0x004, 0x008, 0x00C, 0x010, 0x014, 0x018, 0x01C, 0x020, 0x024, 0x028, 0x02C, 0x030, 0x04C, 0x058, 0x05C,
      0x060, 0x064, 0x068, 0x06C, 0x070, 0x074, 0x078, 0x07C, 0x3FC, 0x400, 0x7FC],
    (reading coded off).port.busy = false ∧ Next (reading coded off) (readAt (reading coded off) off) []
    ∧ off < 0x800 ∧ off % 4 = 0 ∧ off ≠ 0x050 ∧ off ≠ 0x054 := by decide +kernel

theorem witness_WindowReads_ranges :
    0x030 + 4 * (0#3).toNat = 0x030 ∧ 0x030 + 4 * (7#3).toNat = 0x04C ∧ 0x400 + 4 * (0#8).toNat = 0x400
    ∧ 0x400 + 4 * (255#8).toNat = 0x7FC := by decide

theorem witness_FifoReads :
    (Next (reading outFull 0x050) (readAt (reading outFull 0x050) 0x050) [] ∧ (reading outFull 0x050).port.busy = false
      ∧ (reading outFull 0x050).packer.out = 0#32 :: List.replicate 63 0)
    ∧ ((reading clean 0x050).packer.out = [] ∧ (reading clean 0x050).port.err = .none)
    ∧ ((reading failed 0x050).packer.out = [] ∧ (reading failed 0x050).port.err ≠ .none)
    ∧ (Next (reading symNearlyFull 0x054) (readAt (reading symNearlyFull 0x054) 0x054) []
      ∧ (reading symNearlyFull 0x054).decoder.sym = 0#8 :: List.replicate 31 0)
    ∧ ((reading clean 0x054).decoder.sym = [] ∧ (reading clean 0x054).port.err = .none)
    ∧ ((reading failed 0x054).decoder.sym = [] ∧ (reading failed 0x054).port.err ≠ .none) := by decide +kernel

theorem witness_WindowWrites :
    ∀ off ∈ [0x000, 0x00C, 0x010, 0x014, 0x018, 0x01C, 0x7FC],
    (writing clean off 1#32).port.busy = false ∧ Next (writing clean off 1#32) (writeAt (writing clean off 1#32) off 1#32) []
    ∧ off < 0x800 ∧ off % 4 = 0 := by decide +kernel

theorem witness_StatusFields :
    State.reset.port.busy = true
    ∧ (outFull.port.busy = false ∧ outFull.packer.out.length ≤ 255 ∧ outFull.decoder.sym.length ≤ 255) := by decide +kernel

/-! Reset -/

theorem witness_ResetStepState :
    (withHeld (withInputs coded [.reset]) (readAt clean 0x014)).outside.inputs = .reset :: []
    ∧ (withPending coded 0x01000000#32).port.pending = 0x01000000#32 := by decide +kernel

/-! Frames and invariants -/

theorem witness_CommandRegistersFrame :
    ∃ t, exec (.cnt 0x61#8) coded = .next t ∧ (t.results == coded.results) = true := next_with (by decide +kernel)

theorem witness_CommandStoresFrame :
    ∃ t, exec (.nodewr 2#9) (withArgs coded 5#32 0x80000200#32) = .next t
      ∧ (nodeAt t.tree.arena 1#9 == nodeAt coded.tree.arena 1#9) = true := next_with (by decide +kernel)

theorem witness_CodecUnitsFrame :
    ∃ t, exec .flush (withPack coded 0x18000000#32 5 []) = .next t ∧ (t.packer.bitcnt == coded.packer.bitcnt) = true :=
  next_with (by decide +kernel)

/-- GENCODES on the tree of V-TB-1 gives the table of V-SRC-1. -/
theorem codes_AB : genCodes coded.tree coded.codes = .done coded.codes := by
  have h0 : nodeAt coded.tree.arena 0#9 = some { kind := .leaf, freq := 3, left := 0, right := 0, value := 0x61#8 } := by
    decide +kernel
  have h1 : nodeAt coded.tree.arena 1#9 = some { kind := .leaf, freq := 2, left := 0, right := 0, value := 0x62#8 } := by
    decide +kernel
  have h2 : nodeAt coded.tree.arena 2#9 = some { kind := .internal, freq := 5, left := 0, right := 1, value := 0 } := by
    decide +kernel
  have hg : genCodes coded.tree coded.codes = walk coded.tree.arena 256 2#9 [] coded.codes.cleared := rfl
  rw [hg, walk_internal h2 rfl]
  show (walk coded.tree.arena (254 + 1) 0#9 [false] coded.codes.cleared).andThen
    (fun c' => walk coded.tree.arena (254 + 1) 1#9 [true] c') = _
  rw [walk_leaf h0 rfl, record_done.mpr ⟨by decide, by decide +kernel, rfl⟩, Body.andThen_done, walk_leaf h1 rfl,
    record_done.mpr ⟨by decide, by decide +kernel, rfl⟩]
  refine congrArg Body.done ?_
  rw [show coded.codes = Codes.mk coded.codes.ct coded.codes.order coded.codes.count coded.codes.valid from rfl]
  simp only [Codes.mk.injEq]
  refine ⟨?_, ?_, by decide +kernel, by decide +kernel⟩
  · simp [coded, built, clean, State.reset, Codes.cleared]
  · rw [← Vector.toList_inj]; decide +kernel

theorem unitsGood_coded (w : Word) : UnitsGood (withPending coded w) where
  outLevel := by
    have h : coded.packer.out.length ≤ coded.params.outDepth := by decide +kernel
    exact h
  symLevel := by
    have h : coded.decoder.sym.length ≤ coded.params.symDepth := by decide +kernel
    exact h
  packClean := by
    have h : PackClean coded.packer := by decide +kernel
    exact h
  ctCount := by
    have h : coded.codes.count.toNat ≤ 256 := by decide +kernel
    exact h
  ctOrder := by
    intro k h1 h2
    have h1' : 2 ≤ k := h1
    simp [withPending, coded, clean, State.reset, h2, show 0 ≠ k by omega, show 1 ≠ k by omega]
  ctLen := by
    have h : coded.codes.ct.toList.all (fun e => decide (e.bits.length ≤ 255)) = true := by decide +kernel
    intro v
    have := List.all_eq_true.mp h (coded.codes.ct[v.toNat]) (by simp)
    exact of_decide_eq_true this
  heapAtRest := rfl
  codesNeedTree := fun _ => rfl
  noErrorNoCmd := fun _ => rfl
  neverEmptyInput := by
    intro h; cases h
  pendingInError := fun _ h => absurd rfl h

/-- A state with a tree and a code table, about to complete a command, meets every invariant. -/
theorem good_coded (w : Word) : Good (withPending coded w) where
  units := unitsGood_coded w
  counter := by
    have h : CounterExact coded.counter := by decide +kernel
    exact h
  arena := by
    have h : ArenaCanonical coded.tree.arena := by decide +kernel
    exact h
  tree := treeConsistent_AB
  decoder := decoderOnTree_AB
  codes := fun _ => ⟨coded.codes, codes_AB, rfl, rfl, rfl⟩

/-- The premises of StepKeepsUnitsGood, StepKeepsCounterExact, StepKeepsArenaCanonical, StepKeepsTreeConsistent,
StepNeverFaults, StepKeepsParams and DrawsReachOnlyAnswers together: ENC 'b' is pending. -/
theorem witness_step_invariants :
    Good (withPending coded 0x40000062#32) ∧ ∃ t, step (withPending coded 0x40000062#32) = .next t :=
  ⟨good_coded _, next_exists (by decide +kernel)⟩

/-- And with the host's STATUS read next, which draws a free value, and with a read of PARAMS, which does not. -/
theorem witness_DrawsReachOnlyAnswers :
    ((∃ t, step (reading State.reset 0x008) = .next t) ∧ (reading State.reset 0x008).port.busy = true
      ∧ nextMove (reading State.reset 0x008) = .serve (readAt (reading State.reset 0x008) 0x008))
    ∧ ((∃ t, step (reading State.reset 0x004) = .next t)
      ∧ ¬ ((reading State.reset 0x004).port.busy = true
        ∧ nextMove (reading State.reset 0x004) = .serve (readAt (reading State.reset 0x004) 0x008))) :=
  ⟨⟨next_exists (by decide +kernel), by decide +kernel⟩, ⟨next_exists (by decide +kernel), by decide +kernel⟩⟩

end Sys2Proof.Tests
end

section
/-! The priority queue as a collection (spec/41_priority_queue.md R123 to R128): its operations move elements, and add or
take exactly one. No fact here depends on the heap order. -/

namespace Sys2Proof.Machine

/-- HEAP[0], …, HEAP[n - 1]. -/
def firstCells (n : Nat) (c : HeapCells) : List NodeIdx := c.toList.take n

theorem heapElems_eq (h : Heap) : heapElems h = firstCells h.count.toNat h.cells := rfl

theorem length_firstCells {n : Nat} (c : HeapCells) (hn : n ≤ 256) : (firstCells n c).length = n := by
  simp [firstCells, hn]

theorem length_heapElems {h : Heap} (hn : h.count.toNat ≤ 256) : (heapElems h).length = h.count.toNat :=
  length_firstCells h.cells hn

theorem cell_eq_getElem {j : Nat} (c : HeapCells) (hj : j < 256) : cell c j = c.toList[j]'(by simpa using hj) := by
  simp [cell, hj]

theorem firstCells_succ {n : Nat} (c : HeapCells) (hn : n < 256) :
    firstCells (n + 1) c = firstCells n c ++ [cell c n] := by
  rw [cell_eq_getElem c hn]
  exact List.take_succ_eq_append_getElem (by simpa using hn)

theorem firstCells_set (n j : Nat) (i : NodeIdx) (c : HeapCells) :
    firstCells n (c.setIfInBounds j i) = (firstCells n c).set j i := by
  simp [firstCells, Vector.toList_setIfInBounds, List.take_set]

/-- A write just past the first cells adds one to them. -/
theorem firstCells_succ_set {n : Nat} (i : NodeIdx) (c : HeapCells) (hn : n < 256) :
    firstCells (n + 1) (c.setIfInBounds n i) = firstCells n c ++ [i] := by
  rw [firstCells_set, firstCells_succ c hn, List.set_append_right _ _ (by simp [length_firstCells c hn.le]),
    length_firstCells c hn.le]
  simp

theorem firstCells_succ_head (n : Nat) (c : HeapCells) :
    firstCells (n + 1) c = cell c 0 :: (firstCells (n + 1) c).tail := by
  have hne : firstCells (n + 1) c ≠ [] := by simp [firstCells, ← List.length_eq_zero_iff]
  rw [cell_eq_getElem c (by decide)]
  simpa [firstCells, List.head_eq_getElem] using (List.cons_head_tail hne).symm

/-! ### Sifting moves elements only -/

theorem swapCells_perm {n p m : Nat} (c : HeapCells) (hn : n ≤ 256) (hp : p < n) (hm : m < n) :
    (firstCells n (swapCells c p m)).Perm (firstCells n c) := by
  have hl := length_firstCells c hn
  have hcell : ∀ j, (hj : j < n) → cell c j = (firstCells n c)[j]'(by omega) := fun j hj => by
    simp [cell_eq_getElem c (by omega : j < 256), firstCells]
  unfold swapCells
  rw [firstCells_set, firstCells_set, hcell p hp, hcell m hm]
  exact List.set_set_perm _ _

/-- A position sift_down moves to is a child inside the heap (R123). -/
theorem smallestChild_lt {a : Arena} {n p : Nat} {c : HeapCells} (h : smallestChild a n c p ≠ p) :
    p < smallestChild a n c p ∧ smallestChild a n c p < n := by
  unfold smallestChild at h ⊢
  simp only [Bool.and_eq_true, decide_eq_true_eq] at h ⊢
  split_ifs at h ⊢ <;> omega

theorem siftDown_perm {a : Arena} {n : Nat} (hn : n ≤ 256) (fuel p : Nat) (c : HeapCells) :
    (firstCells n (siftDown a n fuel p c)).Perm (firstCells n c) := by
  induction fuel generalizing p c with
  | zero => exact .refl _
  | succ k ih =>
    rw [siftDown]
    split
    · exact .refl _
    · rename_i hne
      obtain ⟨hlt, hin⟩ := smallestChild_lt hne
      exact (ih _ _).trans (swapCells_perm c hn (hlt.trans hin) hin)

theorem siftUp_perm {a : Arena} {n : Nat} (hn : n ≤ 256) (fuel : Nat) {p : Nat} (c : HeapCells) (hp : p < n) :
    (firstCells n (siftUp a fuel p c)).Perm (firstCells n c) := by
  induction fuel generalizing p c with
  | zero => exact .refl _
  | succ k ih =>
    rw [siftUp]
    have hparent : (p - 1) / 2 < n := by omega
    split
    · exact .refl _
    · split
      · exact (ih _ hparent).trans (swapCells_perm c hn hp hparent)
      · exact .refl _

theorem siftAll_perm {a : Arena} {n : Nat} (hn : n ≤ 256) (k : Nat) (c : HeapCells) :
    (firstCells n (siftAll a n k c)).Perm (firstCells n c) := by
  induction k generalizing c with
  | zero => exact .refl _
  | succ k ih => exact (ih _).trans (siftDown_perm hn _ _ _)

theorem firstCells_fillCells {j : Nat} {is : List NodeIdx} (c : HeapCells) (h : j + is.length ≤ 256) :
    firstCells (j + is.length) (fillCells j is c) = firstCells j c ++ is := by
  induction is generalizing j c with
  | nil => simp [fillCells]
  | cons i is ih =>
    rw [List.length_cons] at h
    have hrec := ih (j := j + 1) (c.setIfInBounds j i) (by omega)
    rw [firstCells_succ_set i c (by omega)] at hrec
    rw [fillCells, List.length_cons, Nat.add_comm is.length 1, ← Nat.add_assoc, hrec, List.append_assoc]
    rfl

/-! ### The three operations -/

theorem heapify_count {a : Arena} {is : List NodeIdx} {h : Heap} (hl : is.length ≤ 256) :
    (heapify a is h).count.toNat = is.length := by
  simp only [heapify, BitVec.toNat_ofNat]
  omega

/-- heapify holds exactly the given elements (R125). -/
theorem heapElems_heapify {a : Arena} {is : List NodeIdx} {h : Heap} (hl : is.length ≤ 256) :
    (heapElems (heapify a is h)).Perm is := by
  rw [heapElems_eq, heapify_count hl]
  have hfill := firstCells_fillCells (j := 0) h.cells (is := is) (by omega)
  rw [Nat.zero_add] at hfill
  refine (siftAll_perm hl _ _).trans ?_
  rw [hfill]
  simp [firstCells]

theorem push_completes {a : Arena} {i : NodeIdx} {h : Heap} (hc : h.count.toNat < 256) :
    ∃ h', push a i h = .done h' := ⟨_, if_pos hc⟩

/-- push adds exactly the given element (R126). -/
theorem heapElems_push {a : Arena} {i : NodeIdx} {h h' : Heap} (hp : push a i h = .done h') :
    h'.count.toNat = h.count.toNat + 1 ∧ (heapElems h').Perm (i :: heapElems h) := by
  obtain ⟨hlt, -⟩ := push_done hp
  have hcount : (h.count + 1#9).toNat = h.count.toNat + 1 := by
    rw [BitVec.toNat_add, BitVec.toNat_ofNat]
    omega
  rw [push, if_pos hlt] at hp
  cases hp
  refine ⟨hcount, ?_⟩
  rw [heapElems_eq, hcount]
  refine (siftUp_perm (by omega) _ _ (by omega)).trans ?_
  rw [firstCells_succ_set i h.cells hlt]
  exact List.perm_append_singleton _ _

theorem popMin_completes {a : Arena} {h : Heap} (hc : h.count ≠ 0#9) : ∃ i h', popMin a h = .done (i, h') := by
  unfold popMin
  rw [if_neg hc]
  split
  · exact ⟨_, _, rfl⟩
  · exact ⟨_, _, rfl⟩

/-- pop_min takes exactly the answered element (R127). -/
theorem heapElems_popMin {a : Arena} {h h' : Heap} {i : NodeIdx} (hc : h.count.toNat ≤ 256)
    (hp : popMin a h = .done (i, h')) :
    h.count.toNat = h'.count.toNat + 1 ∧ (heapElems h).Perm (i :: heapElems h') := by
  obtain ⟨h0, -, hcount⟩ := popMin_done hp
  have hsucc : h.count.toNat = h'.count.toNat + 1 := by
    rw [hcount]
    bv_omega
  refine ⟨hsucc, ?_⟩
  rw [heapElems_eq, heapElems_eq, hsucc]
  unfold popMin at hp
  rw [if_neg h0] at hp
  split at hp
  · cases hp
    exact .of_eq (firstCells_succ h.cells (n := 0) (by decide))
  · rename_i h1
    obtain ⟨m, hm⟩ : ∃ m, (h.count - 1#9).toNat = m + 1 := Nat.exists_eq_succ_of_ne_zero (by bv_omega)
    rw [hm] at hp
    rw [hcount, hm] at hsucc ⊢
    cases hp
    have hsift := siftDown_perm (a := a) (n := m + 1) (by omega) 256 0
      (h.cells.setIfInBounds 0 (cell h.cells (m + 1)))
    rw [firstCells_set, firstCells_succ_head m h.cells, List.set_cons_zero] at hsift
    rw [firstCells_succ h.cells (by omega), firstCells_succ_head m h.cells, List.cons_append]
    exact ((List.perm_append_singleton _ _).trans hsift.symm).cons _

end Sys2Proof.Machine
end

section
/-! BUILD completes (spec/42_tree_builder.md R144): the FREQs of the heap's elements add up to TOTAL throughout the merge,
so no sum overflows, no pop meets an empty heap and no push a full one. -/

namespace Sys2Proof.Machine

/-! ### FREQ in the arena -/

theorem freqAt_set_ne {a : Arena} {n : Nat} {i : NodeIdx} {e : Node} (h : i.toNat ≠ n) :
    freqAt (a.setIfInBounds n e) i = freqAt a i := by
  unfold freqAt
  rw [nodeAt_set_ne h]

theorem freqAt_set_self {a : Arena} {n : Nat} {e : Node} (hn : n < 511) :
    freqAt (a.setIfInBounds n e) (BitVec.ofNat 9 n) = e.freq := by
  have hi : (BitVec.ofNat 9 n).toNat = n := by rw [BitVec.toNat_ofNat]; omega
  have hne : BitVec.ofNat 9 n ≠ 511#9 := fun h => by rw [h] at hi; simp at hi; omega
  have hget := nodeAt_set_self (a := a) (e := e) hne
  rw [hi] at hget
  rw [freqAt, hget]

/-- The exact sum of the FREQs of these entries. -/
def freqSum (a : Arena) (is : List NodeIdx) : Nat := (is.map fun i => (freqAt a i).toNat).sum

@[simp] theorem freqSum_cons (a : Arena) (i : NodeIdx) (is : List NodeIdx) :
    freqSum a (i :: is) = (freqAt a i).toNat + freqSum a is := rfl

theorem freqSum_perm {a : Arena} {is js : List NodeIdx} (h : is.Perm js) : freqSum a is = freqSum a js :=
  (h.map _).sum_eq

/-- A write past these entries leaves their sum. -/
theorem freqSum_set {a : Arena} {n : Nat} {e : Node} {is : List NodeIdx} (h : ∀ i ∈ is, i.toNat < n) :
    freqSum (a.setIfInBounds n e) is = freqSum a is :=
  congrArg List.sum (List.map_congr_left fun i hi => by rw [freqAt_set_ne (h i hi).ne])

/-- The entries 0, …, n - 1. -/
def firstIndices (n : Nat) : List NodeIdx := (List.range n).map (BitVec.ofNat 9)

@[simp] theorem length_firstIndices (n : Nat) : (firstIndices n).length = n := by simp [firstIndices]

theorem firstIndices_succ (n : Nat) : firstIndices (n + 1) = firstIndices n ++ [BitVec.ofNat 9 n] := by
  simp [firstIndices, List.range_succ]

theorem lt_of_mem_firstIndices {n : Nat} {i : NodeIdx} (hi : i ∈ firstIndices n) : i.toNat < n := by
  obtain ⟨k, hk, rfl⟩ := List.mem_map.mp hi
  have := List.mem_range.mp hk
  rw [BitVec.toNat_ofNat]
  omega

theorem freqSum_firstIndices_succ {a : Arena} {n : Nat} {e : Node} (hn : n < 511) :
    freqSum (a.setIfInBounds n e) (firstIndices (n + 1)) = freqSum a (firstIndices n) + e.freq.toNat := by
  rw [firstIndices_succ, freqSum_perm (List.perm_append_singleton _ _), freqSum_cons, freqAt_set_self hn,
    freqSum_set fun i => lt_of_mem_firstIndices, Nat.add_comm]

/-! ### The leaves -/

/-- The leaves' FREQs add up to the counts, and there is at most one leaf per count (R142). -/
theorem layLeaves_sum {fs : List Word} {s n : Nat} {a : Arena} (hn : n + fs.length ≤ 511) :
    (layLeaves fs s n a).2 ≤ n + fs.length
    ∧ freqSum (layLeaves fs s n a).1 (firstIndices (layLeaves fs s n a).2)
        = freqSum a (firstIndices n) + (fs.map BitVec.toNat).sum := by
  induction fs generalizing s n a with
  | nil => simp [layLeaves]
  | cons f fs ih =>
    rw [List.length_cons] at hn ⊢
    rw [List.map_cons, List.sum_cons, layLeaves]
    split
    · rename_i hf
      obtain ⟨hle, hsum⟩ := ih (s := s + 1) (n := n) (a := a) (by omega)
      exact ⟨by omega, by simpa [hf] using hsum⟩
    · obtain ⟨hle, hsum⟩ := ih (s := s + 1) (n := n + 1)
        (a := a.setIfInBounds n (Node.mkLeaf f (BitVec.ofNat 8 s))) (by omega)
      refine ⟨by omega, ?_⟩
      rw [hsum, freqSum_firstIndices_succ (by omega), Nat.add_assoc]
      rfl

theorem buildLeaves_sum {c : Counter} (h : CounterExact c) :
    (buildLeaves c.hist).2 ≤ 256
    ∧ freqSum (buildLeaves c.hist).1 (firstIndices (buildLeaves c.hist).2) = c.total.toNat := by
  obtain ⟨hle, hsum⟩ := layLeaves_sum (fs := c.hist.toList) (s := 0) (n := 0)
    (a := Vector.replicate 511 Node.blank) (by simp)
  exact ⟨by simpa [buildLeaves] using hle, hsum.trans (by simpa [freqSum, firstIndices] using h.symm)⟩

/-! ### The merge -/

/-- The state of the merge (R143) when the next free entry is `next`: every element is an entry already written, the
entries still to be written exist, and the elements' FREQs add up to `total`. -/
structure Merging (total next : Nat) (a : Arena) (h : Heap) : Prop where
  nonempty : 1 ≤ h.count.toNat
  room : next + h.count.toNat ≤ 512
  atMost : h.count.toNat ≤ 256
  written : ∀ i ∈ heapElems h, i.toNat < next
  sum : freqSum a (heapElems h) = total

theorem merging_heapify {a : Arena} {n : Nat} (h : Heap) (h1 : 1 ≤ n) (h2 : n ≤ 256) :
    Merging (freqSum a (firstIndices n)) n a (heapify a (firstIndices n) h) := by
  have hlen : (firstIndices n).length ≤ 256 := by simpa using h2
  have hcount : (heapify a (firstIndices n) h).count.toNat = n := by simpa using heapify_count (a := a) (h := h) hlen
  have hperm := heapElems_heapify (a := a) (h := h) hlen
  exact {
    nonempty := by omega
    room := by omega
    atMost := by omega
    written := fun i hi => lt_of_mem_firstIndices (hperm.mem_iff.mp hi)
    sum := freqSum_perm hperm }

/-- A turn whose three operations run and whose sum fits (R143); the converse of `mergeOnce_done`. -/
theorem mergeOnce_of_parts {next : Nat} {a : Arena} {h h1 h2 h3 : Heap} {x y : NodeIdx}
    (hx : popMin a h = .done (x, h1)) (hy : popMin a h1 = .done (y, h2))
    (hfit : (freqAt a x).toNat + (freqAt a y).toNat < 2 ^ 32)
    (hpush : push (a.setIfInBounds next (Node.mkInternal (freqAt a x + freqAt a y) y x)) (BitVec.ofNat 9 next) h2
      = .done h3) :
    mergeOnce next a h
      = .done (a.setIfInBounds next (Node.mkInternal (freqAt a x + freqAt a y) y x), h3) := by
  simp only [mergeOnce, hx, hy, hpush, Body.andThen_done, if_neg (Nat.not_le.mpr hfit)]

/-- A turn on two or more elements runs, and leaves one element fewer with the same sum (R130, R144). -/
theorem mergeOnce_completes {total next : Nat} {a : Arena} {h : Heap} (hm : Merging total next a h)
    (ht : total < 2 ^ 32) (htwo : 2 ≤ h.count.toNat) :
    ∃ a' h', mergeOnce next a h = .done (a', h') ∧ Merging total (next + 1) a' h' := by
  obtain ⟨-, hroom, hmost, hwritten, hsum⟩ := hm
  obtain ⟨x, h1, hx⟩ := popMin_completes (a := a) (h := h) (by bv_omega)
  obtain ⟨hc1, hp1⟩ := heapElems_popMin hmost hx
  obtain ⟨y, h2, hy⟩ := popMin_completes (a := a) (h := h1) (by bv_omega)
  obtain ⟨hc2, hp2⟩ := heapElems_popMin (by omega) hy
  have hperm := hp1.trans (hp2.cons x)
  rw [freqSum_perm hperm, freqSum_cons, freqSum_cons] at hsum
  have hrest : ∀ i ∈ heapElems h2, i.toNat < next := fun i hi => hwritten i (hperm.mem_iff.mpr (by simp [hi]))
  have hnode : (freqAt a x + freqAt a y).toNat = (freqAt a x).toNat + (freqAt a y).toNat := by
    rw [BitVec.toNat_add]
    omega
  obtain ⟨h3, hpush⟩ := push_completes (i := BitVec.ofNat 9 next) (h := h2) (by omega)
    (a := a.setIfInBounds next (Node.mkInternal (freqAt a x + freqAt a y) y x))
  obtain ⟨hc3, hp3⟩ := heapElems_push hpush
  refine ⟨a.setIfInBounds next (Node.mkInternal (freqAt a x + freqAt a y) y x), h3, ?_, {
    nonempty := by omega
    room := by omega
    atMost := by omega
    written := fun i hi => ?_
    sum := ?_ }⟩
  · exact mergeOnce_of_parts hx hy (by omega) hpush
  · rcases List.mem_cons.mp (hp3.mem_iff.mp hi) with rfl | hi
    · rw [BitVec.toNat_ofNat]
      omega
    · exact (hrest i hi).trans (Nat.lt_succ_self _)
  · rw [freqSum_perm hp3, freqSum_cons, freqAt_set_self (by omega), freqSum_set hrest, ← hsum, ← Nat.add_assoc,
      ← hnode]
    rfl

theorem mergeLoop_completes {total : Nat} (ht : total < 2 ^ 32) {fuel next : Nat} {a : Arena} {h : Heap}
    (hm : Merging total next a h) :
    ∃ next' a' h', mergeLoop fuel next a h = .done (a', h') ∧ Merging total next' a' h' := by
  induction fuel generalizing next a h with
  | zero => exact ⟨next, a, h, rfl, hm⟩
  | succ k ih =>
    rw [mergeLoop]
    split
    · exact ⟨next, a, h, rfl, hm⟩
    · obtain ⟨a', h', hturn, hm'⟩ := mergeOnce_completes hm ht (by omega)
      rw [hturn]
      exact ih hm'

theorem mergeLeaves_completes {a : Arena} {n : Nat} (h : Heap) (h1 : 1 ≤ n) (h2 : n ≤ 256)
    (ht : freqSum a (firstIndices n) < 2 ^ 32) : ∃ x, mergeLeaves n a h = .done x := by
  obtain ⟨_, a', h', hloop, hm⟩ := mergeLoop_completes ht (fuel := n) (merging_heapify h h1 h2)
  have hne := hm.nonempty
  obtain ⟨r, h'', hpop⟩ := popMin_completes (a := a') (h := h') (by bv_omega)
  refine ⟨(a', h'', r), ?_⟩
  rw [mergeLeaves, show (List.range n).map (BitVec.ofNat 9) = firstIndices n from rfl, hloop, Body.andThen_done, hpop]
  rfl

/-- BUILD runs to its end on every exact histogram (R29, R144). -/
theorem buildBody_completes {s : State} (h : CounterExact s.counter) : ∃ u, buildBody s = .done u := by
  obtain ⟨hle, hsum⟩ := buildLeaves_sum h
  unfold buildBody
  dsimp only
  split
  · exact ⟨_, rfl⟩
  · split
    · exact ⟨_, rfl⟩
    · obtain ⟨x, hx⟩ := mergeLeaves_completes s.heap (by omega) hle (hsum ▸ s.counter.total.isLt)
      rw [hx]
      exact ⟨_, rfl⟩

end Sys2Proof.Machine
end

section
/-! Trees (spec/42_tree_builder.md R154): what an arena that fits a tree holds at each index, and the sizes of a valid
tree. -/

namespace Sys2Proof.Machine

theorem kindAt_eq_iff {a : Arena} {i : NodeIdx} {k : Kind} (hk : k ≠ .none) :
    kindAt a i = k ↔ ∃ e, nodeAt a i = some e ∧ e.kind = k := by
  unfold kindAt
  cases nodeAt a i with
  | none => simp [hk.symm]
  | some e => simp

/-- Canonical entries have no KIND 3 (R30). -/
theorem ArenaCanonical.kind_ne_reserved {a : Arena} (h : ArenaCanonical a) {i : NodeIdx} {e : Node}
    (he : nodeAt a i = some e) : e.kind ≠ .reserved := by
  have hcan : e.canonical = true :=
    List.all_eq_true.mp h e (Vector.mem_toList_iff.mpr (Vector.mem_of_getElem? he))
  intro hk
  simp [Node.canonical, hk] at hcan

namespace IdxTree

theorem fits_leaf {a : Arena} {i : NodeIdx} :
    (IdxTree.leaf i).fits a = true ↔ ∃ e, nodeAt a i = some e ∧ e.kind = .leaf ∧ e.freq ≠ 0#32 := by
  cases h : nodeAt a i <;> simp [fits, h]

theorem fits_node {a : Arena} {i : NodeIdx} {l r : IdxTree} :
    (IdxTree.node i l r).fits a = true ↔
      (∃ e el er, nodeAt a i = some e ∧ nodeAt a l.root = some el ∧ nodeAt a r.root = some er
        ∧ e.kind = .internal ∧ e.left = l.root ∧ e.right = r.root
        ∧ e.freq.toNat = el.freq.toNat + er.freq.toNat)
      ∧ l.fits a = true ∧ r.fits a = true := by
  rw [fits]
  split
  · rename_i e el er he hl hr
    simp [he, hl, hr, and_assoc]
  · rename_i hnone
    constructor
    · simp
    · rintro ⟨⟨e, el, er, he, hl, hr, -⟩, -⟩
      exact (hnone e el er he hl hr).elim

/-- A live entry stands at `i`: a LEAF, or an INTERNAL entry that is one of `is`. -/
def LandsIn (a : Arena) (is : List NodeIdx) (i : NodeIdx) : Prop :=
  ∃ e, nodeAt a i = some e ∧ (e.kind = .leaf ∨ e.kind = .internal ∧ i ∈ is)

theorem LandsIn.mono {a : Arena} {is js : List NodeIdx} {i : NodeIdx} (h : LandsIn a is i) (hsub : is ⊆ js) :
    LandsIn a js i := by
  obtain ⟨e, he, hk⟩ := h
  exact ⟨e, he, hk.imp_right (And.imp_right (@hsub i))⟩

theorem root_landsIn_inner {a : Arena} {T : IdxTree} (h : T.fits a = true) : LandsIn a T.inner T.root := by
  cases T with
  | leaf i =>
    obtain ⟨e, he, hk, -⟩ := fits_leaf.mp h
    exact ⟨e, he, .inl hk⟩
  | node i l r =>
    obtain ⟨⟨e, -, -, he, -, -, hk, -⟩, -⟩ := fits_node.mp h
    exact ⟨e, he, .inr ⟨hk, List.mem_cons_self⟩⟩

/-- Only a tree with an INTERNAL entry has inner indices, and its root is one. -/
theorem root_mem_inner {T : IdxTree} {i : NodeIdx} (h : i ∈ T.inner) : T.root ∈ T.inner := by
  cases T with
  | leaf j => cases h
  | node j l r => exact List.mem_cons_self

/-- At an inner index stands an INTERNAL entry, and both its children are in the tree. -/
theorem entry_of_mem_inner {a : Arena} {T : IdxTree} (h : T.fits a = true) {i : NodeIdx} (hi : i ∈ T.inner) :
    ∃ e, nodeAt a i = some e ∧ e.kind = .internal ∧ LandsIn a T.inner e.left ∧ LandsIn a T.inner e.right := by
  induction T with
  | leaf j => cases hi
  | node j l r ihl ihr =>
    obtain ⟨⟨e, -, -, he, -, -, hk, hleft, hright, -⟩, hl, hr⟩ := fits_node.mp h
    have hsubl : l.inner ⊆ (IdxTree.node j l r).inner := fun x hx => by simp [inner, hx]
    have hsubr : r.inner ⊆ (IdxTree.node j l r).inner := fun x hx => by simp [inner, hx]
    rcases List.mem_cons.mp hi with rfl | hi
    · exact ⟨e, he, hk, hleft ▸ (root_landsIn_inner hl).mono hsubl, hright ▸ (root_landsIn_inner hr).mono hsubr⟩
    · rcases List.mem_append.mp hi with hi | hi
      · obtain ⟨e, he, hk, h0, h1⟩ := ihl hl hi
        exact ⟨e, he, hk, h0.mono hsubl, h1.mono hsubl⟩
      · obtain ⟨e, he, hk, h0, h1⟩ := ihr hr hi
        exact ⟨e, he, hk, h0.mono hsubr, h1.mono hsubr⟩

theorem depth_lt_length_leaves (T : IdxTree) : T.depth < T.leaves.length := by
  induction T with
  | leaf i => simp [depth, leaves]
  | node i l r ihl ihr =>
    simp only [depth, leaves, List.length_append]
    omega

end IdxTree

/-- A valid tree has at most 256 leaves: their VALUEs are distinct bytes (R154). -/
theorem IsTree.length_leaves_le {a : Arena} {r : NodeIdx} {T : IdxTree} (h : IsTree a r T) : T.leaves.length ≤ 256 := by
  obtain ⟨-, -, -, hval⟩ := h
  have hcard := hval.length_le_card
  rwa [List.length_map, ← FinEnum.card_eq_fintypeCard, FinEnum.card_bitVec] at hcard

/-! ### The tree registers -/

/-- With a tree of one leaf installed, ROOT is a LEAF (R32). -/
theorem TreeConsistent.leaf_of_single {t : Tree} (h : TreeConsistent t) (hs : t.single = true) :
    ∃ e, nodeAt t.arena t.root = some e ∧ e.kind = .leaf := by
  unfold TreeConsistent at h
  rw [← kindAt_eq_iff (by simp)]
  split at h
  · rcases h with ⟨-, h1, -⟩ | ⟨-, -, hk, -⟩ | ⟨-, h1, -⟩
    · simp [hs] at h1
    · exact hk
    · simp [hs] at h1
  · simp [hs] at h

/-- With a tree of two or more leaves installed, a valid tree hangs from ROOT (R32). -/
theorem TreeConsistent.isTree {t : Tree} (h : TreeConsistent t) (hv : t.valid = true) (he : t.empty = false)
    (hs : t.single = false) : ∃ T, IsTree t.arena t.root T ∧ T.leaves.length = t.nleaf.toNat := by
  unfold TreeConsistent at h
  rw [if_pos hv] at h
  rcases h with ⟨h1, -⟩ | ⟨-, h1, -⟩ | ⟨-, -, -, hT, -⟩
  · simp [he] at h1
  · simp [hs] at h1
  · exact hT

/-! ### tree_ok -/

theorem treeTurn_not_broken {a : Arena} (h : ArenaCanonical a) {i : NodeIdx} {w : TreeWork} {f : Fault} :
    treeTurn a i w ≠ .broken f := by
  unfold treeTurn
  split
  · simp
  · split
    · simp
    · rename_i e he
      split
      · simp
      · exact absurd ‹_› (h.kind_ne_reserved he)
      · split <;> simp
      · split
        · split <;> simp
        · simp

theorem treeLoop_not_broken {a : Arena} (h : ArenaCanonical a) {fuel : Nat} {w : TreeWork} {f : Fault} :
    treeLoop a fuel w ≠ .broken f := by
  induction fuel generalizing w with
  | zero => simp [treeLoop]
  | succ k ih =>
    rw [treeLoop]
    split
    · simp
    · intro hb
      rcases Body.andThen_eq_broken.mp hb with hb | ⟨x, -, hb⟩
      · exact treeTurn_not_broken h hb
      · cases x with
        | none => cases hb
        | some w' => exact ih hb

end Sys2Proof.Machine
end

section
/-! Command bodies meet no unreachable condition (spec/00_scope.md R13, spec/60_exceptions.md R260): the units one by one,
each under the invariants it needs. -/

namespace Sys2Proof.Machine

/-- A loop whose turns keep `P` and meet no fault from `P` meets none. -/
theorem forEach_not_broken {α β : Type} {f : β → α → Body α} {P : α → Prop}
    (hkeep : ∀ x a b, P a → f x a = .done b → P b) (hsafe : ∀ x a g, P a → f x a ≠ .broken g)
    {xs : List β} {a : α} {g : Fault} (ha : P a) : forEach f xs a ≠ .broken g := by
  induction xs generalizing a with
  | nil => simp
  | cons x xs ih =>
    intro h
    rcases Body.andThen_eq_broken.mp h with h | ⟨b, hb, h⟩
    · exact hsafe x a g ha h
    · exact ih (hkeep x a b ha hb) h

/-- A body that stores the result of a part meets the faults of that part. -/
theorem andThen_done_not_broken {α β : Type} {x : Body α} {f : α → β} (h : ∀ g, x ≠ .broken g) (g : Fault) :
    (x.andThen fun a => .done (f a)) ≠ .broken g := by
  intro hb
  rcases Body.andThen_eq_broken.mp hb with hb | ⟨_, -, hb⟩
  · exact h g hb
  · cases hb

/-! ### Counter -/

theorem hist_le_total {c : Counter} (h : CounterExact c) (sym : Byte) : (c.hist[sym.toNat]).toNat ≤ c.total.toNat := by
  rw [h]
  refine List.le_sum_of_mem (List.mem_map_of_mem ?_)
  simp

theorem sum_set_succ {l : List Nat} {i : Nat} (hi : i < l.length) : (l.set i (l[i] + 1)).sum = l.sum + 1 := by
  induction l generalizing i with
  | nil => cases hi
  | cons x xs ih =>
    cases i with
    | zero => simp; omega
    | succ j =>
      have hrec := ih (i := j) (by simpa using hi)
      simp only [List.set_cons_succ, List.getElem_cons_succ, List.sum_cons, hrec]
      omega

/-- Counting keeps TOTAL exact (R29). -/
theorem countOne_keeps_exact {sym : Byte} {c c' : Counter} (h : CounterExact c) (hc : countOne sym c = .done c') :
    CounterExact c' := by
  obtain ⟨ht, hh, rfl⟩ := countOne_done.mp hc
  have htotal : (c.total + 1#32).toNat = c.total.toNat + 1 := by bv_omega
  have hcount : (c.hist[sym.toNat] + 1#32).toNat = (c.hist[sym.toNat]).toNat + 1 := by bv_omega
  have hsum := sum_set_succ (l := c.hist.toList.map BitVec.toNat) (i := sym.toNat) (by simpa using sym.isLt)
  simp only [List.getElem_map, Vector.getElem_toList] at hsum
  rw [CounterExact, htotal, Vector.toList_set, List.map_set, hcount, hsum, h]

theorem countOne_not_broken {sym : Byte} {c : Counter} {f : Fault} (h : CounterExact c) :
    countOne sym c ≠ .broken f := by
  have hle := hist_le_total h sym
  unfold countOne
  split
  · simp
  · rw [if_neg (by bv_omega)]
    simp

theorem countBody_not_broken {syms : List Byte} {s : State} {f : Fault} (h : CounterExact s.counter) :
    countBody syms s ≠ .broken f :=
  andThen_done_not_broken (fun _ => forEach_not_broken (fun _ _ _ => countOne_keeps_exact)
    (fun _ _ _ => countOne_not_broken) h) f

/-! ### Code table -/

theorem valueAt_eq {a : Arena} {i : NodeIdx} {e : Node} (h : nodeAt a i = some e) : valueAt a i = e.value := by
  simp [valueAt, h]

theorem freqAt_eq {a : Arena} {i : NodeIdx} {e : Node} (h : nodeAt a i = some e) : freqAt a i = e.freq := by
  simp [freqAt, h]

/-- Record one triple (VALUE, FREQ, path). -/
def recordEntry (x : Byte × Word × BitString) (c : Codes) : Body Codes := record x.1 x.2.1 x.2.2 c

/-- The walk over a tree records the tree's table, in order (R171). -/
theorem walk_eq_forEach_record {a : Arena} {T : IdxTree} (hT : T.fits a = true) {fuel : Nat} (hd : T.depth < fuel)
    (p : BitString) (c : Codes) : walk a fuel T.root p c = forEach recordEntry (T.table a p) c := by
  induction T generalizing fuel p c with
  | leaf i =>
    obtain ⟨e, he, hk, -⟩ := IdxTree.fits_leaf.mp hT
    obtain ⟨k, rfl⟩ := Nat.exists_eq_succ_of_ne_zero (Nat.ne_zero_of_lt hd)
    rw [IdxTree.root, walk_leaf he hk, IdxTree.table, forEach_singleton, recordEntry, valueAt_eq he, freqAt_eq he]
  | node i l r ihl ihr =>
    obtain ⟨⟨e, -, -, he, -, -, hk, hleft, hright, -⟩, hl, hr⟩ := IdxTree.fits_node.mp hT
    obtain ⟨k, rfl⟩ := Nat.exists_eq_succ_of_ne_zero (Nat.ne_zero_of_lt hd)
    rw [IdxTree.depth, Nat.add_lt_add_iff_right, max_lt_iff] at hd
    rw [IdxTree.root, walk_internal he hk, IdxTree.table, forEach_append, hleft, hright, ihl hl hd.1]
    exact congrArg _ (funext fun c' => ihr hr hd.2 _ c')

theorem IdxTree.length_table (a : Arena) (T : IdxTree) (p : BitString) : (T.table a p).length = T.leaves.length := by
  induction T generalizing p with
  | leaf i => rfl
  | node i l r ihl ihr => simp [IdxTree.table, IdxTree.leaves, ihl, ihr]

/-- A path of the table is at most the depth longer than the path the walk started with. -/
theorem IdxTree.length_path_le {a : Arena} {T : IdxTree} {p : BitString} {x : Byte × Word × BitString}
    (hx : x ∈ T.table a p) : x.2.2.length ≤ p.length + T.depth := by
  induction T generalizing p with
  | leaf i =>
    rw [IdxTree.table, List.mem_singleton] at hx
    simp [hx]
  | node i l r ihl ihr =>
    rw [IdxTree.depth]
    rcases List.mem_append.mp hx with hx | hx
    · have := ihl hx
      rw [List.length_append, List.length_singleton] at this
      omega
    · have := ihr hx
      rw [List.length_append, List.length_singleton] at this
      omega

/-- Records run while the paths are short enough and entries are free (R9, R34). -/
theorem forEach_record_completes {xs : List (Byte × Word × BitString)} {c : Codes}
    (hlen : ∀ x ∈ xs, x.2.2.length ≤ 255) (hroom : c.count.toNat + xs.length ≤ 256) :
    ∃ c', forEach recordEntry xs c = .done c' := by
  induction xs generalizing c with
  | nil => exact ⟨c, rfl⟩
  | cons x xs ih =>
    rw [List.length_cons] at hroom
    have hrec : recordEntry x c = .done _ := record_done.mpr ⟨hlen x List.mem_cons_self, by omega, rfl⟩
    rw [forEach_cons, hrec, Body.andThen_done]
    refine ih (fun y hy => hlen y (List.mem_cons_of_mem x hy)) ?_
    dsimp only
    bv_omega

/-- GENCODES runs to its end on every consistent tree (R32, R170). -/
theorem genCodes_completes {t : Tree} (c : Codes) (h : TreeConsistent t) (hv : t.valid = true) :
    ∃ c', genCodes t c = .done c' := by
  have hcount : c.cleared.count.toNat = 0 := rfl
  unfold genCodes
  split
  · exact ⟨_, rfl⟩
  · rename_i he
    split
    · rename_i hs
      obtain ⟨e, hn, hk⟩ := h.leaf_of_single hs
      rw [liveNode_eq_done.mpr ⟨hn, .inl hk⟩, Body.andThen_done]
      exact ⟨_, record_done.mpr ⟨by simp, by omega, rfl⟩⟩
    · rename_i hs
      obtain ⟨T, hT, -⟩ := h.isTree hv (by simpa using he) (by simpa using hs)
      have hleaves := hT.length_leaves_le
      have hdepth := T.depth_lt_length_leaves
      obtain ⟨hroot, hfits, -⟩ := hT
      rw [← hroot, walk_eq_forEach_record hfits (by omega)]
      refine forEach_record_completes (fun x hx => ?_) (by rw [IdxTree.length_table]; omega)
      have hpath := IdxTree.length_path_le hx
      rw [List.length_nil] at hpath
      omega

/-! ### Encoder -/

theorem encodeSymbol_not_broken {depth : Nat} {c : Codes} {sym : Byte} {p : Packer} {f : Fault} :
    encodeSymbol depth c sym p ≠ .broken f := by
  rw [encodeSymbol_eq]
  split
  · simp
  · exact forEach_not_broken (P := fun _ => True) (fun _ _ _ _ _ => trivial) (fun _ _ _ _ => appendBit_not_broken)
      trivial

theorem encodeBody_not_broken {syms : List Byte} {s : State} {f : Fault} : encodeBody syms s ≠ .broken f :=
  andThen_done_not_broken (fun _ => forEach_not_broken (P := fun _ => True) (fun _ _ _ _ _ => trivial)
    (fun _ _ _ _ => encodeSymbol_not_broken) trivial) f

theorem flushBody_not_broken {s : State} {f : Fault} : flushBody s ≠ .broken f := by
  unfold flushBody
  split
  · simp
  · split <;> simp

/-! ### Decoder -/

/-- A decoded bit leaves DEC_PTR on the tree (R210). -/
theorem decodeBit_keeps_onTree {depth : Nat} {t : Tree} {b : Bool} {d d' : Decoder} (h : DecoderOnTree t d)
    (hb : decodeBit depth t b d = .done d') : DecoderOnTree t d' := by
  intro hv
  obtain ⟨-, hsingle, htree⟩ := h hv
  obtain ⟨he, ⟨hs, -, e, -, hemit⟩ | ⟨hs, e, e', hn, -, hn', hmove⟩⟩ := decodeBit_done hb
  · obtain ⟨-, rfl⟩ := emit_done.mp hemit
    exact ⟨by simp [he], hsingle, by simp [hs]⟩
  · obtain ⟨T, hT, hptr⟩ := htree he hs
    refine ⟨by simp [he], by simp [hs], fun _ _ => ⟨T, hT, ?_⟩⟩
    obtain ⟨hroot, hfits, -⟩ := hT
    rcases hmove with ⟨-, hemit⟩ | ⟨hk', rfl⟩
    · obtain ⟨-, rfl⟩ := emit_done.mp hemit
      exact hroot ▸ IdxTree.root_mem_inner hptr
    · obtain ⟨e₁, hn₁, -, hleft, hright⟩ := IdxTree.entry_of_mem_inner hfits hptr
      obtain rfl : e = e₁ := Option.some.inj (hn.symm.trans hn₁)
      obtain ⟨e₂, hn₂, hk₂⟩ : IdxTree.LandsIn t.arena T.inner (if b then e.right else e.left) := by
        cases b
        · exact hleft
        · exact hright
      obtain rfl : e' = e₂ := Option.some.inj (hn'.symm.trans hn₂)
      rcases hk₂ with hk₂ | ⟨-, hmem⟩
      · simp [hk'] at hk₂
      · exact hmem

theorem stepBit_not_broken {depth : Nat} {t : Tree} {b : Bool} {d : Decoder} {T : IdxTree} {f : Fault}
    (hfits : T.fits t.arena = true) (hptr : d.ptr ∈ T.inner) : stepBit depth t b d ≠ .broken f := by
  obtain ⟨e, hn, hk, hleft, hright⟩ := IdxTree.entry_of_mem_inner hfits hptr
  obtain ⟨e', hn', hk'⟩ : IdxTree.LandsIn t.arena T.inner (if b then e.right else e.left) := by
    cases b
    · exact hleft
    · exact hright
  rw [stepBit, liveNode_eq_done.mpr ⟨hn, .inr hk⟩, Body.andThen_done, if_neg (by simp [hk]),
    liveNode_eq_done.mpr ⟨hn', hk'.imp_right And.left⟩, Body.andThen_done]
  split
  · exact emit_not_broken
  · simp

theorem decodeBit_not_broken {depth : Nat} {t : Tree} {b : Bool} {d : Decoder} {f : Fault} (hv : t.valid = true)
    (ht : TreeConsistent t) (hd : DecoderOnTree t d) : decodeBit depth t b d ≠ .broken f := by
  unfold decodeBit
  split
  · simp
  · rename_i he
    split
    · rename_i hs
      unfold singleBit
      split
      · simp
      · obtain ⟨e, hn, hk⟩ := ht.leaf_of_single hs
        rw [liveNode_eq_done.mpr ⟨hn, .inl hk⟩]
        exact emit_not_broken
    · rename_i hs
      obtain ⟨-, -, htree⟩ := hd hv
      obtain ⟨T, ⟨-, hfits, -⟩, hptr⟩ := htree (by simpa using he) (by simpa using hs)
      exact stepBit_not_broken hfits hptr

theorem decodeBody_not_broken {bits : BitString} {s : State} {f : Fault} (hv : s.tree.valid = true)
    (ht : TreeConsistent s.tree) (hd : DecoderOnTree s.tree s.decoder) : decodeBody bits s ≠ .broken f :=
  andThen_done_not_broken (fun _ => forEach_not_broken (fun _ _ _ => decodeBit_keeps_onTree)
    (fun _ _ _ => decodeBit_not_broken hv ht) hd) f

theorem decendBody_not_broken {s : State} {f : Fault} : decendBody s ≠ .broken f := by
  unfold decendBody
  split <;> simp

/-! ### Arena access -/

theorem noderdBody_not_broken {idx : NodeIdx} {s : State} {f : Fault} (h : ArenaCanonical s.tree.arena) :
    noderdBody idx s ≠ .broken f := by
  unfold noderdBody
  split
  · simp
  · rename_i e he
    rw [if_neg (h.kind_ne_reserved he)]
    simp

theorem nodewrBody_not_broken {idx : NodeIdx} {s : State} {f : Fault} : nodewrBody idx s ≠ .broken f := by
  unfold nodewrBody
  split
  · simp
  · split <;> simp

theorem setrootBody_not_broken {idx : NodeIdx} {s : State} {f : Fault} (h : ArenaCanonical s.tree.arena) :
    setrootBody idx s ≠ .broken f := by
  unfold setrootBody
  split
  · simp
  · intro hb
    rcases Body.andThen_eq_broken.mp hb with hb | ⟨x, -, hb⟩
    · exact treeLoop_not_broken h hb
    · cases x <;> cases hb

end Sys2Proof.Machine
end

section
/-! No step meets an unreachable condition from a good state (spec/00_scope.md R13, spec/60_exceptions.md R245, R260). -/

namespace Sys2Proof.Machine

/-! ### Completions -/

/-- With no error latched, a completion whose body meets no fault answers a next state (R244, R245). -/
theorem complete_completes {pre : Bool} {body : State → Body State} {s : State} (he : s.port.err = .none)
    (h : pre = true → ∀ f, body s ≠ .broken f) : ∃ t, complete pre body s = .next t := by
  cases ho : complete pre body s with
  | next t => exact ⟨t, rfl⟩
  | fault f =>
    rcases complete_fault ho with ⟨hp, hb⟩ | ⟨-, hne, -⟩
    · exact absurd hb (h hp f)
    · exact absurd he hne
  | refused r => exact absurd ho complete_not_refused

/-- From a good state with no error latched every command completes. -/
theorem exec_completes {s : State} (hg : Good s) (he : s.port.err = .none) (i : Instr) : ∃ t, exec i s = .next t := by
  obtain ⟨-, hcounter, harena, htree, hdecoder, -⟩ := hg
  cases i with
  | nop => exact ⟨_, rfl⟩
  | clear => exact ⟨_, rfl⟩
  | errclr => exact ⟨_, rfl⟩
  | cnt x =>
    rw [exec_cnt]
    exact complete_completes he fun _ _ => countBody_not_broken hcounter
  | cntw x =>
    rw [exec_cntw]
    exact complete_completes he fun _ _ => countBody_not_broken hcounter
  | build =>
    obtain ⟨u, hu⟩ := buildBody_completes hcounter
    exact ⟨_, complete_of_done rfl hu⟩
  | gencodes =>
    rw [exec_gencodes]
    refine complete_completes he fun hv f => ?_
    obtain ⟨c, hc⟩ := genCodes_completes s.codes htree hv
    simp [gencodesBody, hc]
  | getcode x =>
    rw [exec_getcode]
    exact complete_completes he fun _ _ => nofun
  | getentry x =>
    rw [exec_getentry]
    exact complete_completes he fun _ _ => nofun
  | enc x =>
    rw [exec_enc]
    exact complete_completes he fun _ _ => encodeBody_not_broken
  | encw x =>
    rw [exec_encw]
    exact complete_completes he fun _ _ => encodeBody_not_broken
  | flush =>
    rw [exec_flush]
    exact complete_completes he fun _ _ => flushBody_not_broken
  | dec x =>
    rw [exec_dec]
    exact complete_completes he fun hv _ => decodeBody_not_broken hv htree hdecoder
  | decend =>
    rw [exec_decend]
    exact complete_completes he fun _ _ => decendBody_not_broken
  | decrst =>
    rw [exec_decrst]
    exact complete_completes he fun _ _ => nofun
  | noderd x =>
    rw [exec_noderd]
    exact complete_completes he fun _ _ => noderdBody_not_broken harena
  | nodewr x =>
    rw [exec_nodewr]
    exact complete_completes he fun _ _ => nodewrBody_not_broken
  | setroot x =>
    rw [exec_setroot]
    exact complete_completes he fun _ _ => setrootBody_not_broken harena

/-- The two words an error lets through are CLEAR and ERRCLR (R68). -/
theorem decode_of_acceptedInError {w : Word} (h : acceptedInError w = true) :
    decode w = .ok .clear ∨ decode w = .ok .errclr := by
  rcases Bool.or_eq_true_iff.mp h with h | h
  · exact .inl (eq_of_beq h ▸ rfl)
  · exact .inr (eq_of_beq h ▸ rfl)

/-- From a good state with BUSY = 1 the core's completion answers a next state: with an error latched the pending command
is CLEAR or ERRCLR, which never fail (R245). -/
theorem completeStep_completes {s : State} (hg : Good s) (hb : s.port.busy = true) : ∃ t, completeStep s = .next t := by
  unfold completeStep fetch
  by_cases he : s.port.err = .none
  · cases decode s.port.pending with
    | ok i => exact exec_completes hg he i
    | error _ => exact ⟨_, completeIllegal_next.mpr ⟨he, rfl⟩⟩
  · rcases decode_of_acceptedInError (hg.units.pendingInError hb he) with h | h
    · rw [h]
      exact ⟨_, rfl⟩
    · rw [h]
      exact ⟨_, rfl⟩

/-- The invariants do not speak of the events to come. -/
theorem Good.takeInput {s : State} (h : Good s) : Good (takeInput s) := by
  obtain ⟨⟨h1, h2, h3, h4, h5, h6, h7, h8, h9, h10, h11⟩, hcounter, harena, htree, hdecoder, hcodes⟩ := h
  exact ⟨⟨h1, h2, h3, h4, h5, h6, h7, h8, h9, h10, h11⟩, hcounter, harena, htree, hdecoder, hcodes⟩

/-! ### Steps -/

/-- Settles O58: only a completion could stop, and from a good state it completes. -/
theorem stepNeverFaults : Obligations.StepNeverFaults := by
  intro s hg
  cases hm : nextMove s with
  | reset => exact ⟨_, step_of_reset hm⟩
  | hold a => exact ⟨_, step_of_hold hm⟩
  | serve a => exact ⟨_, step_of_serve hm⟩
  | complete =>
    have hb : s.port.busy = true := nextMove_complete hm
    rw [step_of_complete hm]
    exact completeStep_completes hg.takeInput hb
  | idle => exact ⟨_, step_of_idle hm⟩

end Sys2Proof.Machine
end

section
/-! Every step as a whole (spec/00_scope.md R8, R11): which command it completes, and what it leaves of the parameters
and of the other side of the bus. -/

namespace Sys2Proof.Machine

/-! ### The step that completes -/

/-- With BUSY = 1 and no reset next the core completes, unless an access is next that no other keeps waiting (R11(b)). -/
theorem nextMove_of_busy {s : State} (hb : s.port.busy = true) (hr : ∀ rest, s.outside.inputs ≠ .reset :: rest)
    (ha : s.outside.held.isSome = true ∨ ∀ a rest, s.outside.inputs ≠ .access a :: rest) :
    nextMove s = .complete := by
  unfold nextMove quietMove coreMove
  split
  · exact absurd ‹_› (hr _)
  · split
    · rw [if_pos hb]
    · rename_i hnone
      split
      · exact absurd ‹_› (ha.resolve_left (by simp [hnone]) _ _)
      · rw [if_pos hb]

theorem takeInput_of_left {s : State} {es : List Event} (h : inputsLeft s.outside = es) :
    takeInput s = { s with outside := { s.outside with inputs := es } } := by
  rw [takeInput, h]

theorem completeStep_of_decode {s : State} {i : Instr} (h : decode s.port.pending = .ok i) :
    completeStep s = exec i s := by
  rw [completeStep, fetch, h]

theorem decodeTableWord_eq_some {nbits w : Nat} {i : Instr} (h : decodeTableWord nbits w = some i) :
    decode (tableWord nbits w) = .ok i := by
  unfold decodeTableWord at h
  split at h
  · cases h
    assumption
  · cases h

/-- A tick leaves the pending command to the core. -/
theorem step_of_tick {s : State} {i : Instr} {rest : List Event} (hb : s.port.busy = true)
    (hd : decode s.port.pending = .ok i) (hi : s.outside.inputs = .tick :: rest) :
    step s = exec i { s with outside := { s.outside with inputs := rest } } := by
  rw [step_of_complete (nextMove_of_busy hb (by simp [hi]) (.inr (by simp [hi]))),
    takeInput_of_left (es := rest) (by simp [inputsLeft, hi])]
  exact completeStep_of_decode hd

/-- Settles O6, by the three schedules in which the core moves; `withFetchWord` puts a tick first. -/
theorem stepRunsDecodedCommand : Obligations.StepRunsDecodedCommand := by
  refine ⟨fun s i hb hd _ => ⟨fun hi => ?_, fun rest => step_of_tick hb hd, fun a rest hi hh => ?_⟩,
    fun s nbits w i h => ?_⟩
  · rw [step_of_complete (nextMove_of_busy hb (by simp [hi]) (.inr (by simp [hi]))),
      takeInput_of_left (es := s.outside.inputs) (by simp [inputsLeft, hi])]
    exact completeStep_of_decode hd
  · obtain ⟨x, hx⟩ := Option.isSome_iff_exists.mp hh
    rw [step_of_complete (nextMove_of_busy hb (by simp [hi]) (.inl hh)),
      takeInput_of_left (es := s.outside.inputs) (by simp [inputsLeft, hi, hx])]
    exact completeStep_of_decode hd
  · exact step_of_tick (s := s.withFetchWord nbits w) rfl (decodeTableWord_eq_some h) rfl

/-! ### What every command's body leaves -/

/-- `s` with another other side of the bus. -/
def withOutside (o : Outside) (s : State) : State := { s with outside := o }

/-- `s` with no access waiting on the bus: the state `serveMove` serves from. -/
def freeBus (s : State) : State := withOutside { s.outside with held := none } s

theorem withOutside_self (s : State) : withOutside s.outside s = s := rfl

/-- The body leaves the parameters, and neither reads nor writes the other side of the bus. -/
structure BodyFrame (body : State → Body State) : Prop where
  params : ∀ s u, body s = .done u → u.params = s.params
  outside : ∀ o s, body (withOutside o s) = (body s).andThen fun u => .done (withOutside o u)

theorem bodyFrame_done {f : State → State} (hp : ∀ s, (f s).params = s.params)
    (ho : ∀ o s, f (withOutside o s) = withOutside o (f s)) : BodyFrame fun s => .done (f s) where
  params := by
    rintro s _ ⟨⟩
    exact hp s
  outside o s := congrArg Body.done (ho o s)

theorem bodyFrame_raised (e : ErrCode) : BodyFrame fun _ => .raised e where
  params _ _ h := nomatch h
  outside _ _ := rfl

theorem bodyFrame_ite {c : State → Prop} [∀ s, Decidable (c s)] {body body' : State → Body State}
    (hc : ∀ o s, c (withOutside o s) ↔ c s) (h : BodyFrame body) (h' : BodyFrame body') :
    BodyFrame fun s => if c s then body s else body' s where
  params s u hu := by
    split at hu
    · exact h.params s u hu
    · exact h'.params s u hu
  outside o s := by
    by_cases hs : c s
    · simp only [hs, (hc o s).mpr hs, if_true, h.outside]
    · simp only [hs, (not_congr (hc o s)).mpr hs, if_false, h'.outside]

theorem bodyFrame_andThen {α : Type} {part : State → Body α} {rest : α → State → Body State}
    (hpart : ∀ o s, part (withOutside o s) = part s) (hrest : ∀ a, BodyFrame (rest a)) :
    BodyFrame fun s => (part s).andThen fun a => rest a s where
  params s u hu := by
    obtain ⟨a, -, hu⟩ := Body.andThen_eq_done.mp hu
    exact (hrest a).params s u hu
  outside o s := by
    simp only [hpart, Body.andThen_assoc, (hrest _).outside]

theorem countBody_frame (syms : List Byte) : BodyFrame (countBody syms) :=
  bodyFrame_andThen (fun _ _ => rfl) fun _ => bodyFrame_done (fun _ => rfl) fun _ _ => rfl

theorem encodeBody_frame (syms : List Byte) : BodyFrame (encodeBody syms) :=
  bodyFrame_andThen (fun _ _ => rfl) fun _ => bodyFrame_done (fun _ => rfl) fun _ _ => rfl

theorem decodeBody_frame (bits : BitString) : BodyFrame (decodeBody bits) :=
  bodyFrame_andThen (fun _ _ => rfl) fun _ => bodyFrame_done (fun _ => rfl) fun _ _ => rfl

theorem gencodesBody_frame : BodyFrame gencodesBody :=
  bodyFrame_andThen (fun _ _ => rfl) fun _ => bodyFrame_done (fun _ => rfl) fun _ _ => rfl

theorem flushBody_frame : BodyFrame flushBody :=
  bodyFrame_ite (fun _ _ => .rfl) (bodyFrame_done (fun _ => rfl) fun _ _ => rfl) <|
    bodyFrame_ite (fun _ _ => .rfl) (bodyFrame_raised _) <| bodyFrame_done (fun _ => rfl) fun _ _ => rfl

theorem decendBody_frame : BodyFrame decendBody :=
  bodyFrame_ite (fun _ _ => .rfl) (bodyFrame_raised _) <| bodyFrame_done (fun _ => rfl) fun _ _ => rfl

theorem buildBody_frame : BodyFrame buildBody :=
  bodyFrame_ite (fun _ _ => .rfl) (bodyFrame_done (fun _ => rfl) fun _ _ => rfl) <|
    bodyFrame_ite (fun _ _ => .rfl) (bodyFrame_done (fun _ => rfl) fun _ _ => rfl) <|
      bodyFrame_andThen (fun _ _ => rfl) fun _ => bodyFrame_done (fun _ => rfl) fun _ _ => rfl

theorem nodewrBody_frame (idx : NodeIdx) : BodyFrame (nodewrBody idx) :=
  bodyFrame_ite (fun _ _ => .rfl) (bodyFrame_raised _) <|
    bodyFrame_ite (fun _ _ => .rfl) (bodyFrame_done (fun _ => rfl) fun _ _ => rfl) <| bodyFrame_raised _

theorem setrootBody_frame (idx : NodeIdx) : BodyFrame (setrootBody idx) :=
  bodyFrame_ite (fun _ _ => .rfl) (bodyFrame_done (fun _ => rfl) fun _ _ => rfl) <|
    bodyFrame_andThen (fun _ _ => rfl) fun x =>
      match x with
      | none => bodyFrame_raised _
      | some _ => bodyFrame_done (fun _ => rfl) fun _ _ => rfl

theorem noderdBody_frame (idx : NodeIdx) : BodyFrame (noderdBody idx) where
  params s u h := by
    unfold noderdBody at h
    split at h
    · cases h
    · split at h
      · cases h
      · cases h
        rfl
  outside o s := by
    unfold noderdBody
    rw [show (withOutside o s).tree = s.tree from rfl]
    cases nodeAt s.tree.arena idx with
    | none => rfl
    | some e => dsimp only; split <;> rfl

/-- Every command is the completion of a framed body, the same one whatever the other side of the bus is. -/
theorem exec_is_framed (i : Instr) (s : State) : ∃ pre body,
    (∀ o, exec i (withOutside o s) = complete pre body (withOutside o s)) ∧ BodyFrame body := by
  cases i with
  | nop => exact ⟨_, _, fun _ => exec_nop _, bodyFrame_done (fun _ => rfl) fun _ _ => rfl⟩
  | clear => exact ⟨_, _, fun _ => exec_clear _, bodyFrame_done (fun _ => rfl) fun _ _ => rfl⟩
  | errclr => exact ⟨_, _, fun _ => exec_errclr _, bodyFrame_done (fun _ => rfl) fun _ _ => rfl⟩
  | cnt x => exact ⟨_, _, fun _ => exec_cnt x _, countBody_frame _⟩
  | cntw x => exact ⟨_, _, fun _ => exec_cntw x _, countBody_frame (lanes s.port.arg0 x)⟩
  | build => exact ⟨_, _, fun _ => exec_build _, buildBody_frame⟩
  | gencodes => exact ⟨needsTree s, _, fun _ => exec_gencodes _, gencodesBody_frame⟩
  | getcode x => exact ⟨needsCodes s, _, fun _ => exec_getcode x _, bodyFrame_done (fun _ => rfl) fun _ _ => rfl⟩
  | getentry x => exact ⟨needsCodes s, _, fun _ => exec_getentry x _, bodyFrame_done (fun _ => rfl) fun _ _ => rfl⟩
  | enc x => exact ⟨needsCodes s, _, fun _ => exec_enc x _, encodeBody_frame _⟩
  | encw x => exact ⟨needsCodes s, _, fun _ => exec_encw x _, encodeBody_frame (lanes s.port.arg0 x)⟩
  | flush => exact ⟨_, _, fun _ => exec_flush _, flushBody_frame⟩
  | dec x => exact ⟨needsTree s, _, fun _ => exec_dec x _, decodeBody_frame (argBits s.port.arg0 x)⟩
  | decend => exact ⟨needsTree s, _, fun _ => exec_decend _, decendBody_frame⟩
  | decrst => exact ⟨needsTree s, _, fun _ => exec_decrst _, bodyFrame_done (fun _ => rfl) fun _ _ => rfl⟩
  | noderd x => exact ⟨_, _, fun _ => exec_noderd x _, noderdBody_frame x⟩
  | nodewr x => exact ⟨_, _, fun _ => exec_nodewr x _, nodewrBody_frame x⟩
  | setroot x => exact ⟨_, _, fun _ => exec_setroot x _, setrootBody_frame x⟩

theorem exec_params {i : Instr} {s t : State} (h : exec i s = .next t) : t.params = s.params := by
  obtain ⟨pre, body, heq, hframe⟩ := exec_is_framed i s
  rw [← withOutside_self s, heq] at h
  rcases complete_next h with ⟨-, u, hu, rfl⟩ | ⟨-, e, rfl, -⟩
  · exact hframe.params s u hu
  · rfl

/-- A command runs the same whatever the other side of the bus is. -/
theorem exec_withOutside {i : Instr} {s t : State} (o : Outside) (h : exec i s = .next t) :
    exec i (withOutside o s) = .next (withOutside o t) := by
  obtain ⟨pre, body, heq, hframe⟩ := exec_is_framed i s
  rw [heq o]
  rw [← withOutside_self s, heq, withOutside_self] at h
  rcases complete_next h with ⟨hp, u, hu, rfl⟩ | ⟨he, e, rfl, ⟨hp, rfl⟩ | ⟨hp, hb⟩⟩
  · exact complete_of_done (u := withOutside o u) hp (by rw [hframe.outside, hu]; rfl)
  · exact complete_of_not_pre hp he
  · exact complete_of_raised (e := e) hp (by rw [hframe.outside, hb]; rfl) he

theorem completeStep_params {s t : State} (h : completeStep s = .next t) : t.params = s.params := by
  rcases completeStep_next h with ⟨i, -, h⟩ | ⟨-, -, -, rfl⟩
  · exact exec_params h
  · rfl

theorem completeStep_withOutside {s t : State} (o : Outside) (h : completeStep s = .next t) :
    completeStep (withOutside o s) = .next (withOutside o t) := by
  rcases completeStep_next h with ⟨i, hd, h⟩ | ⟨e, hd, he, rfl⟩
  · rw [completeStep_of_decode (s := withOutside o s) hd]
    exact exec_withOutside o h
  · rw [completeStep, fetch, show (withOutside o s).port = s.port from rfl, hd]
    exact completeIllegal_next.mpr ⟨he, rfl⟩

/-- A completion leaves the other side of the bus. -/
theorem completeStep_outside {s t : State} (h : completeStep s = .next t) : t.outside = s.outside := by
  have hsame := completeStep_withOutside s.outside h
  rw [withOutside_self, h] at hsame
  injection hsame with hsame
  rw [hsame]
  rfl

/-- Settles O59, move by move. -/
theorem stepKeepsParams : Obligations.StepKeepsParams := by
  intro s t h
  rcases step_next h with ⟨-, rfl⟩ | ⟨a, -, rfl⟩ | ⟨a, -, rfl⟩ | ⟨-, h⟩ | ⟨-, rfl⟩
  · rfl
  · rfl
  · obtain ⟨hp, -⟩ := serveAccess_stores (a := a) (s := withOutside _ (takeInput s))
    exact hp
  · exact (completeStep_params h).trans (takeInput_params s)
  · rfl

end Sys2Proof.Machine
end

section
/-! Draws (spec/00_scope.md R12, spec/10_state.md R22): only a read of STATUS at BUSY = 1 uses the next draw, and only
its answer depends on it. -/

namespace Sys2Proof.Machine

/-- `s` with another draw to come next. -/
def withDraws (n : Nat) (s : State) : State := withOutside { s.outside with draws := n } s

@[simp] theorem withDraws_params (n : Nat) (s : State) : (withDraws n s).params = s.params := rfl
@[simp] theorem withDraws_busy (n : Nat) (s : State) : (withDraws n s).port.busy = s.port.busy := rfl

theorem nextMove_withDraws (n : Nat) (s : State) : nextMove (withDraws n s) = nextMove s := rfl

theorem latchRead_withDraws {off : Word} {s : State} (n : Nat) :
    latchRead off (withDraws n s) = withDraws n (latchRead off s) := by
  unfold latchRead
  rw [apply_ite (withDraws n)]
  rfl

/-- Every register but STATUS at BUSY = 1 reads the same whatever draw comes next (R22). -/
theorem readReg_withDraws {s : State} {r : Reg} (n : Nat) (h : s.port.busy = true → r ≠ .status) :
    readReg (withDraws n s) r = ((readReg s r).1, withDraws n (readReg s r).2) := by
  cases r with
  | status =>
    have hb : s.port.busy = false := by simpa using mt h (by simp)
    simp only [readReg, readStatus, withDraws_busy, hb]
    rfl
  | outData =>
    simp only [readReg, readOut, show (withDraws n s).packer = s.packer from rfl]
    cases s.packer.out with
    | nil => exact congrArg (Prod.mk _) (latchRead_withDraws n)
    | cons w ws => rfl
  | symData =>
    simp only [readReg, readSym, show (withDraws n s).decoder = s.decoder from rfl]
    cases s.decoder.sym with
    | nil => exact congrArg (Prod.mk _) (latchRead_withDraws n)
    | cons w ws => rfl
  | _ => rfl

theorem writeReg_withDraws {s : State} {v : Word} {r : Reg} (n : Nat) :
    writeReg (withDraws n s) v r = withDraws n (writeReg s v r) := by
  cases r with
  | cmd =>
    unfold writeReg writeCmd
    dsimp only
    rw [apply_ite (withDraws n)]
    rfl
  | _ => rfl

/-- The one access that reaches STATUS (R61, R65). -/
theorem eq_readAt_of_status {s : State} {a : Access} (hw : inWindow s.params a = true)
    (hg : goodShape s.params a = true) (hop : a.op = .read) (hr : regAt (offsetOf s.params a) = .status) :
    a = readAt s 0x008 := by
  have hoff := regAt_status hr
  obtain ⟨addr, size, op⟩ := a
  simp only [inWindow, goodShape, offsetOf, Bool.and_eq_true, decide_eq_true_eq, beq_iff_eq] at hw hg hoff
  simp only [readAt, Access.mk.injEq]
  exact ⟨by omega, hg.1, hop⟩

/-- A read of the accepted shape (R63). -/
theorem serveAccess_of_read {s : State} {a : Access} (hw : inWindow s.params a = true)
    (hg : goodShape s.params a = true) (hop : a.op = .read) :
    serveAccess a s = answer (.readOkay (readReg s (regAt (offsetOf s.params a))).1)
      (readReg s (regAt (offsetOf s.params a))).2 := by
  rw [serveAccess, if_pos hw, if_pos hg, hop]

/-- A write of the accepted shape (R64). -/
theorem serveAccess_of_write {s : State} {a : Access} {v : Word} (hw : inWindow s.params a = true)
    (hg : goodShape s.params a = true) (hop : a.op = .write v) :
    serveAccess a s = answer .writeOkay (writeReg s v (regAt (offsetOf s.params a))) := by
  rw [serveAccess, if_pos hw, if_pos hg, hop]

/-- An access of another shape (R61). -/
theorem serveAccess_of_badShape {s : State} {a : Access} (hw : inWindow s.params a = true)
    (hg : goodShape s.params a ≠ true) : serveAccess a s = answer (errorResponse a.op) s := by
  rw [serveAccess, if_pos hw, if_neg hg]

/-- An access outside the window (R60). -/
theorem serveAccess_of_outside {s : State} {a : Access} (hw : inWindow s.params a ≠ true) :
    serveAccess a s = answer .byPlatform s := by
  rw [serveAccess, if_neg hw]

/-- Every access but a read of STATUS at BUSY = 1 is served the same whatever draw comes next. -/
theorem serveAccess_withDraws {s : State} {a : Access} (n : Nat) (h : s.port.busy = true → a ≠ readAt s 0x008) :
    serveAccess a (withDraws n s) = withDraws n (serveAccess a s) := by
  by_cases hw : inWindow s.params a = true
  · by_cases hg : goodShape s.params a = true
    · cases hop : a.op with
      | read =>
        rw [serveAccess_of_read hw hg hop, serveAccess_of_read (s := withDraws n s) hw hg hop, withDraws_params,
          readReg_withDraws n fun hb hr => h hb (eq_readAt_of_status hw hg hop hr)]
        rfl
      | write v =>
        rw [serveAccess_of_write hw hg hop, serveAccess_of_write (s := withDraws n s) hw hg hop, withDraws_params,
          writeReg_withDraws]
        rfl
    · rw [serveAccess_of_badShape hw hg, serveAccess_of_badShape (s := withDraws n s) hw hg]
      rfl
  · rw [serveAccess_of_outside hw, serveAccess_of_outside (s := withDraws n s) hw]
    rfl

theorem readReg_responses {s : State} {r : Reg} : (readReg s r).2.outside.responses = s.outside.responses := by
  cases r with
  | status =>
    simp only [readReg, readStatus]
    split <;> rfl
  | outData =>
    simp only [readReg, readOut, latchRead]
    split
    · rfl
    · split <;> rfl
  | symData =>
    simp only [readReg, readSym, latchRead]
    split
    · rfl
    · split <;> rfl
  | _ => rfl

/-- A served access gets exactly one answer, after the earlier ones. -/
theorem serveAccess_responses (a : Access) (s : State) :
    s.outside.responses <+: (serveAccess a s).outside.responses := by
  rcases serveAccess_cases a s with ⟨-, h⟩ | ⟨-, -, h⟩ | ⟨-, -, r, ⟨-, h⟩ | ⟨v, -, h⟩⟩ <;>
    rw [h, answer_responses]
  · exact List.prefix_append _ _
  · exact List.prefix_append _ _
  · rw [readReg_responses]
    exact List.prefix_append _ _
  · obtain ⟨-, -, ho⟩ := writeReg_units (s := s) (v := v) (r := r)
    rw [ho]
    exact List.prefix_append _ _

/-- A step leaves the earlier answers (R12). -/
theorem step_responses {s t : State} (h : step s = .next t) : s.outside.responses <+: t.outside.responses := by
  rcases step_next h with ⟨-, rfl⟩ | ⟨a, -, rfl⟩ | ⟨a, -, rfl⟩ | ⟨-, h⟩ | ⟨-, rfl⟩
  · unfold resetStep
    dsimp only
    split
    · exact List.prefix_rfl
    · exact List.prefix_append _ _
  · exact List.prefix_rfl
  · exact serveAccess_responses a (freeBus (takeInput s))
  · rw [completeStep_outside h]
    exact List.prefix_rfl
  · exact List.prefix_rfl

/-- Every step but a read of STATUS at BUSY = 1 is the same whatever draw comes next (R12, R22). -/
theorem step_withDraws {s t : State} (n : Nat) (h : step s = .next t)
    (hq : ¬ (s.port.busy = true ∧ nextMove s = .serve (readAt s 0x008))) :
    step (withDraws n s) = .next (withDraws n t) := by
  rcases step_next h with ⟨hm, rfl⟩ | ⟨a, hm, rfl⟩ | ⟨a, hm, rfl⟩ | ⟨hm, h⟩ | ⟨hm, rfl⟩ <;>
    rw [← nextMove_withDraws n] at hm
  · exact step_of_reset hm
  · exact step_of_hold hm
  · rw [step_of_serve hm]
    have hserve : serveMove a (withDraws n (takeInput s)) = withDraws n (serveMove a (takeInput s)) :=
      serveAccess_withDraws (s := freeBus (takeInput s)) n fun hb ha =>
        hq ⟨hb, by rw [← nextMove_withDraws n, hm, ha]; rfl⟩
    exact congrArg Host.Outcome.next hserve
  · rw [step_of_complete hm]
    have ht : withDraws n t = withOutside { (takeInput s).outside with draws := n } t := by
      rw [withDraws, completeStep_outside h]
    rw [ht]
    have hcomplete := completeStep_withOutside { (takeInput s).outside with draws := n } h
    exact hcomplete
  · exact step_of_idle hm

theorem draws_of_step {s t : State} (h : step s = .next t)
    (hq : ¬ (s.port.busy = true ∧ nextMove s = .serve (readAt s 0x008))) : t.outside.draws = s.outside.draws := by
  have hsame : step s = .next (withDraws s.outside.draws t) := step_withDraws s.outside.draws h hq
  rw [h] at hsame
  injection hsame with hsame
  exact congrArg (fun u => u.outside.draws) hsame

/-- What a step that serves a read of STATUS at BUSY = 1 leaves (R22): one draw is used, in the answer. -/
def afterStatusRead (s : State) : State :=
  answer (.readOkay (statusBusy s.outside.draws)) (withDraws (s.outside.draws + 1) (freeBus (takeInput s)))

theorem readStatus_of_busy {s : State} (hb : s.port.busy = true) :
    readStatus s = (statusBusy s.outside.draws, withDraws (s.outside.draws + 1) s) := by
  rw [readStatus, if_pos hb]
  rfl

theorem step_of_statusRead {s : State} (hb : s.port.busy = true) (hm : nextMove s = .serve (readAt s 0x008)) :
    step s = .next (afterStatusRead s) := by
  have hw : inWindow s.params (readAt s 0x008) = true := by simp [inWindow, readAt]
  have hoff : offsetOf s.params (readAt s 0x008) = 0x008 := by simp [offsetOf, readAt]
  have hg : goodShape s.params (readAt s 0x008) = true := by rw [goodShape, hoff]; rfl
  have hserve := serveAccess_of_read (s := freeBus (takeInput s)) hw hg rfl
  rw [show offsetOf (freeBus (takeInput s)).params (readAt s 0x008) = 0x008 from hoff,
    show regAt 0x008 = .status from rfl, readReg, readStatus_of_busy (s := freeBus (takeInput s)) hb] at hserve
  rw [step_of_serve hm]
  exact congrArg Host.Outcome.next hserve

theorem statusBusy_busy (n : Nat) : (statusBusy n).getLsbD 0 = true := by
  rw [statusBusy, BitVec.getLsbD_append]
  rfl

/-- Settles O60: a draw is used by a read of STATUS at BUSY = 1 alone, and goes into its answer. -/
theorem drawsReachOnlyAnswers : Obligations.DrawsReachOnlyAnswers := by
  intro s t n h
  by_cases hq : s.port.busy = true ∧ nextMove s = .serve (readAt s 0x008)
  · obtain ⟨hb, hm⟩ := hq
    obtain rfl : afterStatusRead s = t := by
      have hs := step_of_statusRead hb hm
      rw [h] at hs
      injection hs with hs
      exact hs.symm
    exact ⟨afterStatusRead (withDraws n s), step_of_statusRead (s := withDraws n s) hb hm, rfl,
      fun _ => ⟨_, _, rfl, rfl, statusBusy_busy _, statusBusy_busy _, rfl, rfl⟩, fun hq => absurd ⟨hb, hm⟩ hq⟩
  · exact ⟨withDraws n t, step_withDraws n h hq, rfl, fun hq' => absurd hq' hq,
      fun _ => ⟨step_responses h, rfl, draws_of_step h hq, rfl⟩⟩

end Sys2Proof.Machine
end

section
/-! What a command can do, said once (spec/60_exceptions.md R244, R245): its body ran and left its own writes, or an
error was latched. The frames and the invariants are case splits on this. -/

namespace Sys2Proof.Machine

/-! ### Effects -/

/-- What the body of each command leaves when it runs to its end: the guards it passed, and its own writes. -/
inductive Effect : Instr → State → State → Prop
  | nop {s : State} : Effect .nop s s
  | clear {s : State} : Effect .clear s (resetElements s)
  | errclr {s : State} : Effect .errclr s { s with port := { s.port with err := .none, errcmd := 0 } }
  | cnt {x : Byte} {s : State} {c : Counter} (h : forEach countOne [x] s.counter = .done c) :
      Effect (.cnt x) s { s with counter := c }
  | cntw {nb : BitVec 2} {s : State} {c : Counter} (h : forEach countOne (lanes s.port.arg0 nb) s.counter = .done c) :
      Effect (.cntw nb) s { s with counter := c }
  | build {s : State} {n : Nat} {r : NodeIdx} {a : Arena} {hp : Heap}
      (h : buildBody s = .done (installBuilt n r a hp s)) : Effect .build s (installBuilt n r a hp s)
  | gencodes {s : State} {c : Codes} (hv : s.tree.valid = true) (h : genCodes s.tree s.codes = .done c) :
      Effect .gencodes s { s with codes := { c with valid := true } }
  | getcode {x : Byte} {s : State} (hv : s.codes.valid = true) :
      Effect (.getcode x) s { s with results := getcodeResults s.codes x }
  | getentry {x : Byte} {s : State} (hv : s.codes.valid = true) :
      Effect (.getentry x) s { s with results := getentryResults s.codes x }
  | enc {x : Byte} {s : State} {p : Packer} (hv : s.codes.valid = true)
      (h : forEach (encodeSymbol s.params.outDepth s.codes) [x] s.packer = .done p) :
      Effect (.enc x) s { s with packer := p }
  | encw {nb : BitVec 2} {s : State} {p : Packer} (hv : s.codes.valid = true)
      (h : forEach (encodeSymbol s.params.outDepth s.codes) (lanes s.port.arg0 nb) s.packer = .done p) :
      Effect (.encw nb) s { s with packer := p }
  | flushNothing {s : State} (hp : s.packer.packcnt = 0#5) : Effect .flush s s
  | flushWord {s : State} (hp : s.packer.packcnt ≠ 0#5) (h : s.packer.out.length ≠ s.params.outDepth) :
      Effect .flush s
        { s with packer := { s.packer with pack := 0, packcnt := 0, out := s.packer.out ++ [s.packer.pack] } }
  | dec {nb : BitVec 5} {s : State} {d : Decoder} (hv : s.tree.valid = true)
      (h : forEach (decodeBit s.params.symDepth s.tree) (argBits s.port.arg0 nb) s.decoder = .done d) :
      Effect (.dec nb) s { s with decoder := d }
  | decend {s : State} (hv : s.tree.valid = true)
      (hend : s.tree.empty = true ∨ s.tree.single = true ∨ s.decoder.ptr = s.tree.root) : Effect .decend s s
  | decrst {s : State} (hv : s.tree.valid = true) :
      Effect .decrst s { s with decoder := { s.decoder with ptr := s.tree.root, count := 0 } }
  | noderd {x : NodeIdx} {s : State} {e : Node} (he : nodeAt s.tree.arena x = some e) (hk : e.kind ≠ .reserved) :
      Effect (.noderd x) s
        { s with results := { s.results with res0 := nodeWord e, res1 := e.freq, res2 := x.setWidth 32 } }
  | nodewr {x : NodeIdx} {s : State} (hx : x ≠ 511#9) (hl : legalNodeWord s.port.arg1 s.port.arg0 = true) :
      Effect (.nodewr x) s { s with
        tree := { s.tree with
          arena := s.tree.arena.setIfInBounds x.toNat (nodeOfWord s.port.arg1 s.port.arg0)
          valid := false, empty := false, single := false }
        codes := { s.codes with valid := false } }
  | setrootEmpty {s : State} : Effect (.setroot 511#9) s (installEmpty s)
  | setrootTree {x : NodeIdx} {s : State} {n : Nat} (hx : x ≠ 511#9)
      (h : treeOk s.tree.arena x = .done (some n)) :
      Effect (.setroot x) s (installTree x n s)

/-- The codes a completion can latch: every code but 0 and EMPTY_INPUT (R240, R241). -/
abbrev Raisable (e : ErrCode) : Prop := e ≠ .none ∧ e ≠ .emptyInput

/-- What a completed command is: its effect with BUSY = 0, or a latched error. -/
def Completed (i : Instr) (s t : State) : Prop :=
  (∃ u, Effect i s u ∧ t = clearBusy u) ∨ (s.port.err = .none ∧ ∃ e, Raisable e ∧ t = latched e s)

/-- A command whose body has this effect and raises only raisable codes. -/
theorem completed_of_complete {i : Instr} {pre : Bool} {body : State → Body State} {s t : State}
    (hexec : exec i s = complete pre body s) (hdone : ∀ u, pre = true → body s = .done u → Effect i s u)
    (hraised : ∀ e, body s = .raised e → Raisable e) (h : exec i s = .next t) : Completed i s t := by
  rcases complete_next (hexec.symm.trans h) with ⟨hp, u, hu, rfl⟩ | ⟨he, e, rfl, ⟨-, rfl⟩ | ⟨-, hb⟩⟩
  · exact .inl ⟨u, hdone u hp hu, rfl⟩
  · exact .inr ⟨he, _, by decide, rfl⟩
  · exact .inr ⟨he, e, hraised e hb, rfl⟩

/-- A command whose body always runs to its end. -/
theorem completed_of_done {i : Instr} {pre : Bool} {f : State → State} {s t : State}
    (hexec : exec i s = complete pre (fun s => .done (f s)) s) (hf : pre = true → Effect i s (f s))
    (h : exec i s = .next t) : Completed i s t :=
  completed_of_complete hexec (fun _ hp hu => by cases hu; exact hf hp) nofun h

/-- A body that stores the result of a part raises what the part raises. -/
theorem raised_of_andThen_done {α β : Type} {x : Body α} {f : α → β} {e : ErrCode}
    (h : (x.andThen fun a => .done (f a)) = .raised e) : x = .raised e := by
  rcases Body.andThen_eq_raised.mp h with h | ⟨_, -, h⟩
  · exact h
  · cases h

/-! ### The codes a body raises -/

theorem countBody_raises {syms : List Byte} {s : State} {e : ErrCode} (h : countBody syms s = .raised e) :
    Raisable e := by
  refine forEach_raised (fun _ _ e he => ?_) (raised_of_andThen_done h)
  obtain ⟨-, rfl⟩ := countOne_raised.mp he
  decide

theorem encodeSymbol_raises {depth : Nat} {c : Codes} {sym : Byte} {p : Packer} {e : ErrCode}
    (h : encodeSymbol depth c sym p = .raised e) : Raisable e := by
  rw [encodeSymbol_eq] at h
  split at h
  · cases h
    decide
  · refine forEach_raised (fun _ _ e he => ?_) h
    obtain ⟨-, -, rfl⟩ := appendBit_raised.mp he
    decide

theorem encodeBody_raises {syms : List Byte} {s : State} {e : ErrCode} (h : encodeBody syms s = .raised e) :
    Raisable e :=
  forEach_raised (fun _ _ _ => encodeSymbol_raises) (raised_of_andThen_done h)

theorem decodeBody_raises {bits : BitString} {s : State} {e : ErrCode} (h : decodeBody bits s = .raised e) :
    Raisable e := by
  refine forEach_raised (fun _ _ e he => ?_) (raised_of_andThen_done h)
  rcases decodeBit_raised he with rfl | rfl <;> decide

theorem genCodes_not_raised {t : Tree} {c : Codes} {e : ErrCode} : genCodes t c ≠ .raised e := by
  unfold genCodes
  split
  · simp
  · split
    · intro h
      rcases Body.andThen_eq_raised.mp h with h | ⟨_, -, h⟩
      · exact liveNode_not_raised h
      · exact record_not_raised h
    · exact walk_not_raised

theorem popMin_not_raised {a : Arena} {h : Heap} {e : ErrCode} : popMin a h ≠ .raised e := by
  unfold popMin
  split
  · simp
  · split <;> simp

theorem push_not_raised {a : Arena} {i : NodeIdx} {h : Heap} {e : ErrCode} : push a i h ≠ .raised e := by
  unfold push
  split <;> simp

theorem mergeOnce_not_raised {next : Nat} {a : Arena} {h : Heap} {e : ErrCode} : mergeOnce next a h ≠ .raised e := by
  intro hm
  rcases Body.andThen_eq_raised.mp hm with hm | ⟨x, -, hm⟩
  · exact popMin_not_raised hm
  · rcases Body.andThen_eq_raised.mp hm with hm | ⟨y, -, hm⟩
    · exact popMin_not_raised hm
    · split at hm
      · cases hm
      · exact push_not_raised (raised_of_andThen_done hm)

theorem mergeLoop_not_raised {fuel next : Nat} {a : Arena} {h : Heap} {e : ErrCode} :
    mergeLoop fuel next a h ≠ .raised e := by
  induction fuel generalizing next a h with
  | zero => simp [mergeLoop]
  | succ k ih =>
    rw [mergeLoop]
    split
    · simp
    · intro hm
      rcases Body.andThen_eq_raised.mp hm with hm | ⟨x, -, hm⟩
      · exact mergeOnce_not_raised hm
      · exact ih hm

theorem buildBody_not_raised {s : State} {e : ErrCode} : buildBody s ≠ .raised e := by
  unfold buildBody
  dsimp only
  split
  · simp
  · split
    · simp
    · intro hm
      rcases Body.andThen_eq_raised.mp (raised_of_andThen_done hm) with hm | ⟨x, -, hm⟩
      · exact mergeLoop_not_raised hm
      · exact popMin_not_raised (raised_of_andThen_done hm)

theorem treeTurn_not_raised {a : Arena} {i : NodeIdx} {w : TreeWork} {e : ErrCode} : treeTurn a i w ≠ .raised e := by
  unfold treeTurn
  repeat' split
  all_goals simp

theorem treeLoop_not_raised {a : Arena} {fuel : Nat} {w : TreeWork} {e : ErrCode} : treeLoop a fuel w ≠ .raised e := by
  induction fuel generalizing w with
  | zero => simp [treeLoop]
  | succ k ih =>
    rw [treeLoop]
    split
    · simp
    · intro h
      rcases Body.andThen_eq_raised.mp h with h | ⟨x, -, h⟩
      · exact treeTurn_not_raised h
      · cases x with
        | none => cases h
        | some w' => exact ih h

theorem setrootBody_raises {idx : NodeIdx} {s : State} {e : ErrCode} (h : setrootBody idx s = .raised e) :
    Raisable e := by
  unfold setrootBody at h
  split at h
  · cases h
  · rcases Body.andThen_eq_raised.mp h with h | ⟨x, -, h⟩
    · exact absurd h treeLoop_not_raised
    · cases x with
      | none => cases h; decide
      | some n => cases h

theorem nodewrBody_raises {idx : NodeIdx} {s : State} {e : ErrCode} (h : nodewrBody idx s = .raised e) :
    Raisable e := by
  unfold nodewrBody at h
  split at h
  · cases h; decide
  · split at h <;> cases h
    decide

theorem noderdBody_raises {idx : NodeIdx} {s : State} {e : ErrCode} (h : noderdBody idx s = .raised e) :
    Raisable e := by
  unfold noderdBody at h
  split at h
  · cases h; decide
  · split at h <;> cases h

theorem flushBody_raises {s : State} {e : ErrCode} (h : flushBody s = .raised e) : Raisable e := by
  unfold flushBody at h
  split at h
  · cases h
  · split at h <;> cases h
    decide

theorem decendBody_raises {s : State} {e : ErrCode} (h : decendBody s = .raised e) : Raisable e := by
  unfold decendBody at h
  split at h <;> cases h
  decide

/-! ### The effect of each body that chooses -/

theorem buildBody_effect {s u : State} (h : buildBody s = .done u) : Effect .build s u := by
  rcases buildBody_done h with ⟨-, rfl⟩ | ⟨-, rfl⟩ | ⟨-, a, hp, r, -, rfl⟩ <;> exact .build h

theorem flushBody_effect {s u : State} (h : flushBody s = .done u) : Effect .flush s u := by
  unfold flushBody at h
  split at h
  · cases h
    exact .flushNothing ‹_›
  · split at h
    · cases h
    · cases h
      exact .flushWord ‹_› ‹_›

theorem decendBody_effect {s u : State} (hv : s.tree.valid = true) (h : decendBody s = .done u) :
    Effect .decend s u := by
  unfold decendBody at h
  split at h <;> cases h
  rename_i hend
  exact .decend hv (by simpa [or_assoc, Classical.or_iff_not_imp_left] using hend)

theorem noderdBody_effect {idx : NodeIdx} {s u : State} (h : noderdBody idx s = .done u) :
    Effect (.noderd idx) s u := by
  unfold noderdBody at h
  split at h
  · cases h
  · split at h <;> cases h
    exact .noderd ‹_› ‹_›

theorem setrootBody_effect {idx : NodeIdx} {s u : State} (h : setrootBody idx s = .done u) :
    Effect (.setroot idx) s u := by
  rcases setrootBody_done h with ⟨rfl, rfl⟩ | ⟨hx, n, hn, rfl⟩
  · exact .setrootEmpty
  · exact .setrootTree hx hn

/-- Everything a command that completes can do (R244, R245). -/
theorem exec_completed {i : Instr} {s t : State} (h : exec i s = .next t) : Completed i s t := by
  cases i with
  | nop => exact completed_of_done (exec_nop s) (fun _ => .nop) h
  | clear => exact completed_of_done (exec_clear s) (fun _ => .clear) h
  | errclr => exact completed_of_done (exec_errclr s) (fun _ => .errclr) h
  | cnt x =>
    refine completed_of_complete (exec_cnt x s) (fun _ _ hu => ?_) (fun _ => countBody_raises) h
    obtain ⟨c, hc, rfl⟩ := countBody_done hu
    exact .cnt hc
  | cntw nb =>
    refine completed_of_complete (exec_cntw nb s) (fun _ _ hu => ?_) (fun _ => countBody_raises) h
    obtain ⟨c, hc, rfl⟩ := countBody_done hu
    exact .cntw hc
  | build =>
    exact completed_of_complete (exec_build s) (fun _ _ => buildBody_effect)
      (fun _ hr => absurd hr buildBody_not_raised) h
  | gencodes =>
    refine completed_of_complete (exec_gencodes s) (fun _ hv hu => ?_)
      (fun _ hr => absurd (raised_of_andThen_done hr) genCodes_not_raised) h
    obtain ⟨c, hc, rfl⟩ := gencodesBody_done hu
    exact .gencodes hv hc
  | getcode x => exact completed_of_done (exec_getcode x s) .getcode h
  | getentry x => exact completed_of_done (exec_getentry x s) .getentry h
  | enc x =>
    refine completed_of_complete (exec_enc x s) (fun _ hv hu => ?_) (fun _ => encodeBody_raises) h
    obtain ⟨p, hp, rfl⟩ := encodeBody_done hu
    exact .enc hv hp
  | encw nb =>
    refine completed_of_complete (exec_encw nb s) (fun _ hv hu => ?_) (fun _ => encodeBody_raises) h
    obtain ⟨p, hp, rfl⟩ := encodeBody_done hu
    exact .encw hv hp
  | flush => exact completed_of_complete (exec_flush s) (fun _ _ => flushBody_effect) (fun _ => flushBody_raises) h
  | dec nb =>
    refine completed_of_complete (exec_dec nb s) (fun _ hv hu => ?_) (fun _ => decodeBody_raises) h
    obtain ⟨d, hd, rfl⟩ := decodeBody_done hu
    exact .dec hv hd
  | decend => exact completed_of_complete (exec_decend s) (fun _ => decendBody_effect) (fun _ => decendBody_raises) h
  | decrst => exact completed_of_done (exec_decrst s) .decrst h
  | noderd x =>
    exact completed_of_complete (exec_noderd x s) (fun _ _ => noderdBody_effect) (fun _ => noderdBody_raises) h
  | nodewr x =>
    refine completed_of_complete (exec_nodewr x s) (fun _ _ hu => ?_) (fun _ => nodewrBody_raises) h
    obtain ⟨hx, hl, rfl⟩ := nodewrBody_done hu
    exact .nodewr hx hl
  | setroot x =>
    exact completed_of_complete (exec_setroot x s) (fun _ _ => setrootBody_effect) (fun _ => setrootBody_raises) h

/-- A completion step is a completed command, or an ILLEGAL word's latch (R97, R244). -/
theorem completeStep_completed {s t : State} (h : completeStep s = .next t) :
    (∃ i, decode s.port.pending = .ok i ∧ Completed i s t)
    ∨ (s.port.err = .none ∧ ∃ e, Raisable e ∧ t = latched e s) := by
  rcases completeStep_next h with ⟨i, hd, h⟩ | ⟨-, -, he, rfl⟩
  · exact .inl ⟨i, hd, exec_completed h⟩
  · exact .inr ⟨he, _, by decide, rfl⟩

end Sys2Proof.Machine
end

section
/-! Frames of the commands (spec/10_state.md R25 to R41): what each command leaves unchanged, one part of the state at a
time. -/

namespace Sys2Proof.Machine

section
variable {i : Instr} {s u : State}

/-! ### Port, parameters and result registers -/

theorem Effect.pending_eq (h : Effect i s u) : u.port.pending = s.port.pending := by
  cases h <;> rfl

theorem Effect.args_eq (h : Effect i s u) (hclear : i ≠ .clear) :
    u.port.arg0 = s.port.arg0 ∧ u.port.arg1 = s.port.arg1 := by
  cases h with
  | clear => exact absurd rfl hclear
  | _ => exact ⟨rfl, rfl⟩

theorem Effect.codew_eq (h : Effect i s u) (hclear : i ≠ .clear) (hcode : ∀ x, i ≠ .getcode x)
    (hentry : ∀ x, i ≠ .getentry x) : u.results.codew = s.results.codew := by
  cases h with
  | clear | getcode | getentry => simp_all
  | _ => rfl

theorem Effect.results_eq (h : Effect i s u) (hclear : i ≠ .clear) (hcode : ∀ x, i ≠ .getcode x)
    (hentry : ∀ x, i ≠ .getentry x) (hnode : ∀ x, i ≠ .noderd x) : u.results = s.results := by
  cases h with
  | clear | getcode | getentry | noderd => simp_all
  | _ => rfl

/-! ### Stores -/

theorem Effect.counter_eq (h : Effect i s u) (hclear : i ≠ .clear) (hcnt : ∀ x, i ≠ .cnt x)
    (hcntw : ∀ nb, i ≠ .cntw nb) : u.counter = s.counter := by
  cases h with
  | clear | cnt | cntw => simp_all
  | _ => rfl

theorem Effect.arena_eq (h : Effect i s u) (hclear : i ≠ .clear) (hbuild : i ≠ .build) (hwr : ∀ x, i ≠ .nodewr x) :
    u.tree.arena = s.tree.arena := by
  cases h with
  | clear | build | nodewr => simp_all
  | _ => rfl

theorem Effect.tree_eq (h : Effect i s u) (hclear : i ≠ .clear) (hbuild : i ≠ .build) (hwr : ∀ x, i ≠ .nodewr x)
    (hroot : ∀ x, i ≠ .setroot x) : u.tree = s.tree := by
  cases h with
  | clear | build | nodewr | setrootEmpty | setrootTree => simp_all
  | _ => rfl

/-- NODEWR writes the entry at its index alone (R151). -/
theorem Effect.entry_eq {x j : NodeIdx} (h : Effect (.nodewr x) s u) (hj : j ≠ x) :
    nodeAt u.tree.arena j = nodeAt s.tree.arena j := by
  cases h with
  | nodewr => exact nodeAt_set_ne fun he => hj (BitVec.eq_of_toNat_eq he)

theorem Effect.table_eq (h : Effect i s u) (hclear : i ≠ .clear) (hgen : i ≠ .gencodes) :
    u.codes.ct = s.codes.ct ∧ u.codes.order = s.codes.order ∧ u.codes.count = s.codes.count := by
  cases h with
  | clear | gencodes => simp_all
  | _ => exact ⟨rfl, rfl, rfl⟩

theorem Effect.codesValid_eq (h : Effect i s u) (hclear : i ≠ .clear) (hgen : i ≠ .gencodes) (hbuild : i ≠ .build)
    (hwr : ∀ x, i ≠ .nodewr x) (hroot : ∀ x, i ≠ .setroot x) : u.codes.valid = s.codes.valid := by
  cases h with
  | clear | gencodes | build | nodewr | setrootEmpty | setrootTree => simp_all
  | _ => rfl

theorem Effect.heap_eq (h : Effect i s u) (hclear : i ≠ .clear) (hbuild : i ≠ .build) : u.heap = s.heap := by
  cases h with
  | clear | build => simp_all
  | _ => rfl

/-! ### Packer and decoder -/

theorem Effect.packer_eq (h : Effect i s u) (hclear : i ≠ .clear) (henc : ∀ x, i ≠ .enc x)
    (hencw : ∀ nb, i ≠ .encw nb) (hflush : i ≠ .flush) : u.packer = s.packer := by
  cases h with
  | clear | enc | encw | flushNothing | flushWord => simp_all
  | _ => rfl

theorem Effect.bitcnt_eq_of_flush (h : Effect .flush s u) : u.packer.bitcnt = s.packer.bitcnt := by
  cases h <;> rfl

theorem appendBit_out_prefix {depth : Nat} {b : Bool} {p p' : Packer} (h : appendBit depth b p = .done p') :
    p.out <+: p'.out := by
  rcases appendBit_done h with ⟨-, -, rfl⟩ | ⟨-, rfl⟩
  · exact List.prefix_append _ _
  · exact List.prefix_rfl

theorem encodeSymbol_done {depth : Nat} {c : Codes} {sym : Byte} {p p' : Packer}
    (h : encodeSymbol depth c sym p = .done p') : forEach (appendBit depth) (c.ct[sym.toNat]).bits p = .done p' := by
  rw [encodeSymbol_eq] at h
  split at h
  · cases h
  · exact h

/-- What every appended bit keeps, encoding keeps (R190, R191). -/
theorem encode_invariant {depth : Nat} {c : Codes} {P : Packer → Prop}
    (hbit : ∀ b p p', P p → appendBit depth b p = .done p' → P p') {syms : List Byte} {p p' : Packer} (hp : P p)
    (h : forEach (encodeSymbol depth c) syms p = .done p') : P p' :=
  forEach_invariant (fun _ _ _ hp hs => forEach_invariant hbit hp (encodeSymbol_done hs)) hp h

theorem encode_out_prefix {depth : Nat} {c : Codes} {syms : List Byte} {p p' : Packer}
    (h : forEach (encodeSymbol depth c) syms p = .done p') : p.out <+: p'.out :=
  encode_invariant (P := fun q => p.out <+: q.out) (fun _ _ _ hp hb => hp.trans (appendBit_out_prefix hb))
    List.prefix_rfl h

theorem Effect.out_prefix (h : Effect i s u) (hclear : i ≠ .clear) : s.packer.out <+: u.packer.out := by
  cases h with
  | clear => exact absurd rfl hclear
  | enc _ h => exact encode_out_prefix h
  | encw _ h => exact encode_out_prefix h
  | flushWord => exact List.prefix_append _ _
  | _ => exact List.prefix_rfl

theorem Effect.sym_eq (h : Effect i s u) (hclear : i ≠ .clear) (hdec : ∀ nb, i ≠ .dec nb) :
    u.decoder.sym = s.decoder.sym := by
  cases h with
  | clear | dec => simp_all
  | _ => rfl

/-- A decoded bit leaves SYM, or emits one symbol while there is room (R212, R213, R215). -/
theorem decodeBit_sym {depth : Nat} {t : Tree} {b : Bool} {d d' : Decoder} (h : decodeBit depth t b d = .done d') :
    d'.sym = d.sym ∨ (d.sym.length ≠ depth ∧ ∃ v, d'.sym = d.sym ++ [v]) := by
  obtain ⟨-, ⟨-, -, e, -, hemit⟩ | ⟨-, e, e', -, -, -, ⟨-, hemit⟩ | ⟨-, rfl⟩⟩⟩ := decodeBit_done h
  · obtain ⟨hroom, rfl⟩ := emit_done.mp hemit
    exact .inr ⟨hroom, e.value, rfl⟩
  · obtain ⟨hroom, rfl⟩ := emit_done.mp hemit
    exact .inr ⟨hroom, e'.value, rfl⟩
  · exact .inl rfl

theorem decodeBit_sym_prefix {depth : Nat} {t : Tree} {b : Bool} {d d' : Decoder}
    (h : decodeBit depth t b d = .done d') : d.sym <+: d'.sym := by
  rcases decodeBit_sym h with h | ⟨-, v, h⟩ <;> rw [h]
  · exact List.prefix_append _ _

theorem Effect.sym_prefix (h : Effect i s u) (hclear : i ≠ .clear) : s.decoder.sym <+: u.decoder.sym := by
  cases h with
  | clear => exact absurd rfl hclear
  | dec _ h =>
    exact forEach_invariant (P := fun d => s.decoder.sym <+: d.sym)
      (fun _ _ _ hd hb => hd.trans (decodeBit_sym_prefix hb)) List.prefix_rfl h
  | _ => exact List.prefix_rfl

theorem Effect.decoder_eq (h : Effect i s u) (hclear : i ≠ .clear) (hdec : ∀ nb, i ≠ .dec nb) (hrst : i ≠ .decrst)
    (hbuild : i ≠ .build) (hroot : ∀ x, i ≠ .setroot x) : u.decoder = s.decoder := by
  cases h with
  | clear | dec | decrst | build | setrootEmpty | setrootTree => simp_all
  | _ => rfl

end

/-! ### The frames -/

/-- A completion leaves the other side of the bus. -/
theorem exec_outside {i : Instr} {s t : State} (h : exec i s = .next t) : t.outside = s.outside := by
  have hsame := exec_withOutside s.outside h
  rw [withOutside_self, h] at hsame
  injection hsame with hsame
  rw [hsame]
  rfl

/-- Settles O50, part by part; a latched error writes ERR, ERRCMD and BUSY only. -/
theorem commandRegistersFrame : Obligations.CommandRegistersFrame := by
  intro i s t h
  refine ⟨exec_params h, exec_outside h, ?_⟩
  rcases exec_completed h with ⟨u, hu, rfl⟩ | ⟨-, e, -, rfl⟩
  · exact ⟨rfl, hu.pending_eq, hu.args_eq, hu.codew_eq, hu.results_eq⟩
  · simp

/-- Settles O51, part by part. -/
theorem commandStoresFrame : Obligations.CommandStoresFrame := by
  intro i s t h hclear
  rcases exec_completed h with ⟨u, hu, rfl⟩ | ⟨-, e, -, rfl⟩
  · refine ⟨hu.counter_eq hclear, hu.arena_eq hclear, hu.tree_eq hclear, ?_, hu.table_eq hclear,
      hu.codesValid_eq hclear, hu.heap_eq hclear⟩
    rintro x rfl j hj
    exact hu.entry_eq hj
  · simp

/-- Settles O52, part by part. -/
theorem codecUnitsFrame : Obligations.CodecUnitsFrame := by
  intro i s t h hclear
  rcases exec_completed h with ⟨u, hu, rfl⟩ | ⟨-, e, -, rfl⟩
  · refine ⟨hu.packer_eq hclear, ?_, hu.out_prefix hclear, hu.sym_eq hclear, hu.sym_prefix hclear,
      hu.decoder_eq hclear⟩
    rintro rfl
    exact hu.bitcnt_eq_of_flush
  · simp

end Sys2Proof.Machine
end

section
/-! Invariants of every step (spec/00_scope.md R11): what a reset establishes and every access and every completed
command keeps, every step keeps. -/

namespace Sys2Proof.Machine

/-- While BUSY = 1 a read that nothing holds is of ID, PARAMS or STATUS, so it pops no FIFO (R62). -/
theorem serves_no_pop {s : State} {a : Access} (hm : nextMove s = .serve a) (hw : inWindow s.params a = true)
    (hb : s.port.busy = true) : regAt (offsetOf s.params a) ≠ .outData ∧ regAt (offsetOf s.params a) ≠ .symData := by
  have hheld : isHeld s a = false := (nextMove_serve hm).resolve_left (by simp [hb])
  have hlow : offsetOf s.params a ≤ 8 := by
    simp only [isHeld, neverHeld, hb, hw, Bool.true_and, Bool.not_eq_false', Bool.and_eq_true,
      decide_eq_true_eq] at hheld
    exact hheld.2
  exact ⟨fun h => by have := regAt_outData h; omega, fun h => by have := regAt_symData h; omega⟩

/-- The induction over the moves of one step: a completed command is its effect with BUSY = 0, or a latched error. -/
theorem step_invariant {P : State → Prop} (hreset : ∀ s, P (resetStep s))
    (hbus : ∀ o s, P s → P (withOutside o s))
    (hread : ∀ r s, (s.port.busy = true → r ≠ .outData ∧ r ≠ .symData) → P s → P (readReg s r).2)
    (hwrite : ∀ v r s, P s → P (writeReg s v r)) (hlatch : ∀ e s, Raisable e → P s → P (latched e s))
    (heffect : ∀ i s u, Effect i s u → P s → P (clearBusy u)) {s t : State} (hs : P s) (h : step s = .next t) :
    P t := by
  have htake : P (takeInput s) := hbus _ s hs
  rcases step_next h with ⟨-, rfl⟩ | ⟨a, -, rfl⟩ | ⟨a, hm, rfl⟩ | ⟨-, h⟩ | ⟨-, rfl⟩
  · exact hreset _
  · exact hbus _ _ htake
  · have hfree : P (freeBus (takeInput s)) := hbus _ _ htake
    show P (serveAccess a (freeBus (takeInput s)))
    by_cases hw : inWindow s.params a = true
    · by_cases hg : goodShape s.params a = true
      · cases hop : a.op with
        | read =>
          rw [serveAccess_of_read (s := freeBus (takeInput s)) hw hg hop]
          exact hbus _ _ (hread _ (freeBus (takeInput s)) (serves_no_pop (s := s) hm hw) hfree)
        | write v =>
          rw [serveAccess_of_write (s := freeBus (takeInput s)) hw hg hop]
          exact hbus _ _ (hwrite _ _ _ hfree)
      · rw [serveAccess_of_badShape (s := freeBus (takeInput s)) hw hg]
        exact hbus _ _ hfree
    · rw [serveAccess_of_outside (s := freeBus (takeInput s)) hw]
      exact hbus _ _ hfree
  · rcases completeStep_completed h with ⟨i, -, ⟨u, hu, rfl⟩ | ⟨-, e, he, rfl⟩⟩ | ⟨-, e, he, rfl⟩
    · exact heffect i _ u hu htake
    · exact hlatch e _ he htake
    · exact hlatch e _ he htake
  · exact htake

/-- Reads and writes leave DEC_PTR. -/
theorem readReg_ptr {s : State} {r : Reg} : (readReg s r).2.decoder.ptr = s.decoder.ptr := by
  cases r <;> simp only [readReg, readStatus, readOut, readSym, latchRead] <;> (repeat' split) <;> rfl

/-- `step_invariant` for what speaks of the stores and DEC_PTR alone, which only commands and a reset write. -/
theorem step_invariant_of_stores {P : State → Prop} (hreset : ∀ s, P (resetStep s))
    (hsame : ∀ s t, SameStores s t → t.decoder.ptr = s.decoder.ptr → P s → P t)
    (heffect : ∀ i s u, Effect i s u → P s → P u) {s t : State} (hs : P s) (h : step s = .next t) : P t :=
  step_invariant hreset (fun _ _ => hsame _ _ sameStores_refl rfl) (fun _ _ _ => hsame _ _ readReg_stores readReg_ptr)
    (fun _ _ _ => hsame _ _ writeReg_stores (by rw [writeReg_units.2.1]))
    (fun _ _ _ => hsame _ _ sameStores_refl rfl)
    (fun i s u hu hs => hsame u _ sameStores_refl rfl (heffect i s u hu hs)) hs h

/-! ### The counter -/

theorem reset_counterExact : CounterExact State.reset.counter := by
  have hzero : State.reset.counter.hist.toList = List.replicate 256 0#32 := Vector.toList_replicate
  rw [CounterExact, hzero, List.map_replicate, List.sum_replicate]
  rfl

theorem Effect.counterExact {i : Instr} {s u : State} (h : Effect i s u) (hs : CounterExact s.counter) :
    CounterExact u.counter := by
  cases h with
  | clear => exact reset_counterExact
  | cnt h => exact forEach_invariant (fun _ _ _ => countOne_keeps_exact) hs h
  | cntw h => exact forEach_invariant (fun _ _ _ => countOne_keeps_exact) hs h
  | _ => exact hs

/-- Settles O54: only CNT, CNTW, CLEAR and a reset write the counter, and a count adds to both sides. -/
theorem stepKeepsCounterExact : Obligations.StepKeepsCounterExact := by
  intro s t hs h
  refine step_invariant_of_stores (P := fun s => CounterExact s.counter) (fun _ => reset_counterExact) ?_
    (fun _ _ _ hu => hu.counterExact) hs h
  rintro s t ⟨-, -, hc, -⟩ - hs
  rwa [hc]

end Sys2Proof.Machine
end

section
/-! The bounds and small invariants of the units (spec/10_state.md R23, R33 to R36, R40, R41, R240, R245, R259), unit by
unit, kept by every step. -/

namespace Sys2Proof.Machine

/-! ### Packer -/

/-- The packer's part of the unit invariants (R36, R40). -/
structure PackerGood (depth : Nat) (p : Packer) : Prop where
  level : p.out.length ≤ depth
  clean : PackClean p

theorem packerGood_reset {depth : Nat} : PackerGood depth State.reset.packer where
  level := Nat.zero_le _
  clean _ _ := BitVec.getLsbD_zero

theorem appendBit_keeps_packerGood {depth : Nat} {b : Bool} {p p' : Packer} (hp : PackerGood depth p)
    (h : appendBit depth b p = .done p') : PackerGood depth p' := by
  obtain ⟨hlevel, hclean⟩ := hp
  rcases appendBit_done h with ⟨-, hroom, rfl⟩ | ⟨hfill, rfl⟩
  · refine ⟨?_, fun _ _ => BitVec.getLsbD_zero⟩
    rw [List.length_append, List.length_singleton]
    omega
  · refine ⟨hlevel, fun j hj => ?_⟩
    have hnext : (p.packcnt + 1#5).toNat = p.packcnt.toNat + 1 := by bv_omega
    dsimp only at hj ⊢
    rw [hnext] at hj
    rw [assignBit_getLsbD _ _ _ _ (by omega), if_neg (by omega)]
    exact hclean j (by omega)

theorem Effect.packerGood {i : Instr} {s u : State} (h : Effect i s u) (hs : PackerGood s.params.outDepth s.packer) :
    PackerGood u.params.outDepth u.packer := by
  cases h with
  | clear => exact packerGood_reset
  | enc _ h => exact encode_invariant (fun _ _ _ => appendBit_keeps_packerGood) hs h
  | encw _ h => exact encode_invariant (fun _ _ _ => appendBit_keeps_packerGood) hs h
  | flushWord _ hroom =>
    obtain ⟨hlevel, -⟩ := hs
    refine ⟨?_, fun _ _ => BitVec.getLsbD_zero⟩
    rw [List.length_append, List.length_singleton]
    dsimp only
    omega
  | _ => exact hs

/-! ### SYM -/

theorem decodeBit_keeps_symLevel {depth : Nat} {t : Tree} {b : Bool} {d d' : Decoder} (hd : d.sym.length ≤ depth)
    (h : decodeBit depth t b d = .done d') : d'.sym.length ≤ depth := by
  rcases decodeBit_sym h with hsym | ⟨hroom, v, hsym⟩ <;> rw [hsym]
  · exact hd
  · rw [List.length_append, List.length_singleton]
    omega

theorem Effect.symLevel {i : Instr} {s u : State} (h : Effect i s u) (hs : s.decoder.sym.length ≤ s.params.symDepth) :
    u.decoder.sym.length ≤ u.params.symDepth := by
  cases h with
  | clear => exact Nat.zero_le _
  | dec _ h => exact forEach_invariant (fun _ _ _ => decodeBit_keeps_symLevel) hs h
  | _ => exact hs

/-! ### Code table -/

/-- The code table's part of the unit invariants (R33, R34). -/
structure CodesGood (c : Codes) : Prop where
  count : c.count.toNat ≤ 256
  order : ∀ k, c.count.toNat ≤ k → k < 256 → c.order[k]? = some 0#8
  len : ∀ v : Byte, (c.ct[v.toNat]).bits.length ≤ 255

theorem codesGood_cleared (c : Codes) : CodesGood c.cleared where
  count := Nat.zero_le _
  order k _ hk := by simp [Codes.cleared, hk]
  len v := by simp [Codes.cleared, CtEntry.blank]

theorem record_keeps_codesGood (v : Byte) (f : Word) (p : BitString) (c c' : Codes) (hc : CodesGood c)
    (h : record v f p c = .done c') : CodesGood c' := by
  obtain ⟨-, horder, hlen⟩ := hc
  obtain ⟨hp, hroom, rfl⟩ := record_done.mp h
  have hnext : (c.count + 1#9).toNat = c.count.toNat + 1 := by bv_omega
  refine ⟨by dsimp only; omega, fun k hk hlt => ?_, fun w => ?_⟩
  · dsimp only at hk ⊢
    rw [Vector.getElem?_setIfInBounds_ne (by omega)]
    exact horder k (by omega) hlt
  · dsimp only
    rw [Vector.getElem_set]
    split
    · exact hp
    · exact hlen w

/-- What a cleared table meets and every record keeps, GENCODES establishes (R170, R172). -/
theorem genCodes_invariant {t : Tree} {c c' : Codes} {P : Codes → Prop} (hclear : P c.cleared)
    (hr : ∀ v f p c c', P c → record v f p c = .done c' → P c') (h : genCodes t c = .done c') : P c' := by
  unfold genCodes at h
  split at h
  · cases h
    exact hclear
  · split at h
    · obtain ⟨e, -, h⟩ := Body.andThen_eq_done.mp h
      exact hr _ _ _ _ _ hclear h
    · exact walk_invariant hr hclear h

theorem Effect.codesGood {i : Instr} {s u : State} (h : Effect i s u) (hs : CodesGood s.codes) : CodesGood u.codes := by
  have hoff : CodesGood { s.codes with valid := false } := ⟨hs.count, hs.order, hs.len⟩
  cases h with
  | clear => exact codesGood_cleared State.reset.codes
  | gencodes _ h =>
    obtain ⟨hcount, horder, hlen⟩ := genCodes_invariant (codesGood_cleared _) record_keeps_codesGood h
    exact ⟨hcount, horder, hlen⟩
  | build | nodewr | setrootEmpty | setrootTree => exact hoff
  | _ => exact hs

theorem Effect.codesNeedTree {i : Instr} {s u : State} (h : Effect i s u)
    (hs : s.codes.valid = true → s.tree.valid = true) : u.codes.valid = true → u.tree.valid = true := by
  cases h with
  | gencodes hv => exact fun _ => hv
  | clear | build | nodewr | setrootEmpty | setrootTree => exact nofun
  | _ => exact hs

/-! ### Heap -/

/-- A merge takes two elements and adds one (R130). -/
theorem mergeOnce_count {next : Nat} {a a' : Arena} {h h' : Heap} (hm : mergeOnce next a h = .done (a', h')) :
    h'.count = h.count - 1#9 := by
  obtain ⟨x, h1, y, h2, hx, hy, -, -, hpush⟩ := mergeOnce_done hm
  obtain ⟨-, -, hc1⟩ := popMin_done hx
  obtain ⟨-, -, hc2⟩ := popMin_done hy
  obtain ⟨-, hc3⟩ := push_done hpush
  rw [hc3, hc2, hc1]
  bv_omega

/-- The merge loop with turns enough ends with one element, and keeps what every turn keeps (R143). -/
theorem mergeLoop_invariant {P : Nat → Arena → Heap → Prop}
    (hturn : ∀ next a h a' h', P next a h → mergeOnce next a h = .done (a', h') → P (next + 1) a' h')
    {fuel next : Nat} {a a' : Arena} {h h' : Heap} (h1 : 1 ≤ h.count.toNat) (hfuel : h.count.toNat ≤ fuel)
    (hP : P next a h) (hm : mergeLoop fuel next a h = .done (a', h')) :
    h'.count = 1#9 ∧ ∃ next', P next' a' h' := by
  induction fuel generalizing next a h with
  | zero => omega
  | succ k ih =>
    rw [mergeLoop] at hm
    split at hm
    · cases hm
      exact ⟨by bv_omega, next, hP⟩
    · obtain ⟨⟨a₁, h₁⟩, hone, hm⟩ := Body.andThen_eq_done.mp hm
      have hcount := mergeOnce_count hone
      exact ih (h := h₁) (by bv_omega) (by bv_omega) (hturn _ _ _ _ _ hP hone) hm

/-- The merge empties the heap, and leaves what the heapified leaves meet and every turn keeps (R143). -/
theorem mergeLeaves_invariant {P : Nat → Arena → Heap → Prop}
    (hturn : ∀ next a h a' h', P next a h → mergeOnce next a h = .done (a', h') → P (next + 1) a' h')
    {n : Nat} {a a' : Arena} {h h' : Heap} {r : NodeIdx} (h1 : 1 ≤ n) (h2 : n ≤ 256)
    (hP : P n a (heapify a (firstIndices n) h)) (hm : mergeLeaves n a h = .done (a', h', r)) :
    h'.count = 0#9 ∧ ∃ next h₁, P next a' h₁ ∧ h₁.count = 1#9 ∧ popMin a' h₁ = .done (r, h') := by
  obtain ⟨⟨a₁, h₁⟩, hloop, hm⟩ := Body.andThen_eq_done.mp hm
  obtain ⟨⟨r₁, h₂⟩, hpop, hm⟩ := Body.andThen_eq_done.mp hm
  cases hm
  have hcount : (heapify a (firstIndices n) h).count.toNat = n := by
    rw [heapify_count (by simpa using h2), length_firstIndices]
  obtain ⟨hone, next, hP'⟩ := mergeLoop_invariant hturn (by omega) hcount.le hP hloop
  obtain ⟨-, -, hzero⟩ := popMin_done hpop
  exact ⟨by rw [hzero, hone]; rfl, next, h₁, hP', hone, hpop⟩

theorem buildLeaves_le (hist : Vector Word 256) : (buildLeaves hist).2 ≤ 256 := by
  obtain ⟨hle, -⟩ := layLeaves_sum (fs := hist.toList) (s := 0) (n := 0) (a := Vector.replicate 511 Node.blank)
    (by simp)
  simpa [buildLeaves] using hle

theorem buildBody_heapAtRest {s u : State} (hs : s.heap.count = 0#9) (h : buildBody s = .done u) :
    u.heap.count = 0#9 := by
  rcases buildBody_done h with ⟨-, rfl⟩ | ⟨-, rfl⟩ | ⟨htwo, a, hp, r, hm, rfl⟩
  · exact hs
  · exact hs
  · obtain ⟨hzero, -⟩ := mergeLeaves_invariant (P := fun _ _ _ => True) (fun _ _ _ _ _ _ _ => trivial) (by omega)
      (buildLeaves_le _) trivial hm
    exact hzero

theorem Effect.heapAtRest {i : Instr} {s u : State} (h : Effect i s u) (hs : s.heap.count = 0#9) :
    u.heap.count = 0#9 := by
  cases h with
  | clear => rfl
  | build h => exact buildBody_heapAtRest hs h
  | _ => exact hs

/-! ### The error latch -/

/-- The error registers' part of the unit invariants (R23, R240, R245). -/
structure PortGood (p : Port) : Prop where
  noErrorNoCmd : p.err = .none → p.errcmd = 0#32
  neverEmptyInput : p.err ≠ .emptyInput
  pendingInError : p.busy = true → p.err ≠ .none → acceptedInError p.pending = true

theorem portGood_noError {p : Port} (he : p.err = .none) (hc : p.errcmd = 0#32) : PortGood p :=
  ⟨fun _ => hc, by simp [he], fun _ hne => absurd he hne⟩

theorem Effect.portGood {i : Instr} {s u : State} (h : Effect i s u) (hs : PortGood s.port) : PortGood u.port := by
  cases h with
  | clear => exact portGood_noError rfl rfl
  | errclr => exact portGood_noError rfl rfl
  | _ => exact hs

theorem latchRead_portGood {off : Word} {s : State} (hb : s.port.busy = false) (hs : PortGood s.port) :
    PortGood (latchRead off s).port := by
  rcases latchRead_cases (off := off) (s := s) with ⟨-, h⟩ | ⟨-, h⟩ <;> rw [h]
  · exact ⟨nofun, nofun, fun hb' => absurd hb' (by simp [hb])⟩
  · exact hs

theorem readReg_portGood {s : State} {r : Reg} (hr : s.port.busy = true → r ≠ .outData ∧ r ≠ .symData)
    (hs : PortGood s.port) : PortGood (readReg s r).2.port := by
  cases r with
  | status =>
    rw [readReg, readStatus]
    split <;> exact hs
  | outData =>
    rw [readReg, readOut]
    split
    · exact hs
    · exact latchRead_portGood (by simpa using mt hr (by simp)) hs
  | symData =>
    rw [readReg, readSym]
    split
    · exact hs
    · exact latchRead_portGood (by simpa using mt hr (by simp)) hs
  | _ => exact hs

theorem writeReg_portGood {s : State} {v : Word} {r : Reg} (hs : PortGood s.port) :
    PortGood (writeReg s v r).port := by
  obtain ⟨hcmd, hempty, hpending⟩ := hs
  cases r with
  | cmd =>
    rw [writeReg, writeCmd]
    split
    · exact ⟨hcmd, hempty, hpending⟩
    · rename_i haccept
      exact ⟨hcmd, hempty, fun _ hne => by simpa using fun ha => haccept ⟨hne, ha⟩⟩
  | _ => exact ⟨hcmd, hempty, hpending⟩

/-! ### All units -/

theorem unitsGood_iff {s : State} : UnitsGood s ↔
    PackerGood s.params.outDepth s.packer ∧ s.decoder.sym.length ≤ s.params.symDepth ∧ CodesGood s.codes
    ∧ s.heap.count = 0#9 ∧ (s.codes.valid = true → s.tree.valid = true) ∧ PortGood s.port := by
  constructor
  · rintro ⟨h1, h2, h3, h4, h5, h6, h7, h8, h9, h10, h11⟩
    exact ⟨⟨h1, h3⟩, h2, ⟨h4, h5, h6⟩, h7, h8, ⟨h9, h10, h11⟩⟩
  · rintro ⟨⟨h1, h3⟩, h2, ⟨h4, h5, h6⟩, h7, h8, ⟨h9, h10, h11⟩⟩
    exact ⟨h1, h2, h3, h4, h5, h6, h7, h8, h9, h10, h11⟩

theorem resetStep_unitsGood (s : State) : UnitsGood (resetStep s) :=
  unitsGood_iff.mpr ⟨packerGood_reset, Nat.zero_le _, codesGood_cleared State.reset.codes, rfl, nofun,
    portGood_noError rfl rfl⟩

theorem PackerGood.of_read {depth : Nat} {s : State} {r : Reg} (hs : PackerGood depth s.packer) :
    PackerGood depth (readReg s r).2.packer := by
  obtain ⟨hlevel, hclean⟩ := hs
  refine ⟨(readReg_fifos.1.length_le).trans hlevel, ?_⟩
  cases r <;> simp only [readReg, readStatus, readOut, readSym, latchRead] <;> (repeat' split) <;> exact hclean

theorem readReg_unitsGood {s : State} {r : Reg} (hr : s.port.busy = true → r ≠ .outData ∧ r ≠ .symData)
    (hs : UnitsGood s) : UnitsGood (readReg s r).2 := by
  obtain ⟨hpacker, hsym, hcodes, hheap, hneed, hport⟩ := unitsGood_iff.mp hs
  obtain ⟨hp, -, -, ht, hc, hh⟩ := readReg_stores (s := s) (r := r)
  refine unitsGood_iff.mpr ⟨?_, ?_, by rwa [hc], by rwa [hh], by rwa [hc, ht], readReg_portGood hr hport⟩
  · rw [hp]
    exact hpacker.of_read
  · rw [hp]
    exact readReg_fifos.2.length_le.trans hsym

theorem writeReg_unitsGood {s : State} {v : Word} {r : Reg} (hs : UnitsGood s) : UnitsGood (writeReg s v r) := by
  obtain ⟨hpacker, hsym, hcodes, hheap, hneed, hport⟩ := unitsGood_iff.mp hs
  obtain ⟨hp, -, -, ht, hc, hh⟩ := writeReg_stores (s := s) (v := v) (r := r)
  obtain ⟨hpk, hd, -⟩ := writeReg_units (s := s) (v := v) (r := r)
  exact unitsGood_iff.mpr ⟨by rwa [hp, hpk], by rwa [hp, hd], by rwa [hc], by rwa [hh], by rwa [hc, ht],
    writeReg_portGood hport⟩

theorem latched_unitsGood {e : ErrCode} {s : State} (he : Raisable e) (hs : UnitsGood s) : UnitsGood (latched e s) := by
  obtain ⟨hpacker, hsym, hcodes, hheap, hneed, -⟩ := unitsGood_iff.mp hs
  obtain ⟨hne, hempty⟩ := he
  exact unitsGood_iff.mpr ⟨hpacker, hsym, hcodes, hheap, hneed, fun h => absurd h hne, hempty, nofun⟩

theorem Effect.unitsGood {i : Instr} {s u : State} (h : Effect i s u) (hs : UnitsGood s) : UnitsGood (clearBusy u) := by
  obtain ⟨hpacker, hsym, hcodes, hheap, hneed, hport⟩ := unitsGood_iff.mp hs
  obtain ⟨hcmd, hempty, -⟩ := h.portGood hport
  exact unitsGood_iff.mpr ⟨h.packerGood hpacker, h.symLevel hsym, h.codesGood hcodes, h.heapAtRest hheap,
    h.codesNeedTree hneed, hcmd, hempty, nofun⟩

/-- The unit invariants do not speak of the other side of the bus. -/
theorem UnitsGood.withOutside {s : State} (o : Outside) (hs : UnitsGood s) : UnitsGood (withOutside o s) := by
  have hunits := unitsGood_iff.mp hs
  exact unitsGood_iff.mpr hunits

/-- Settles O53, unit by unit. -/
theorem stepKeepsUnitsGood : Obligations.StepKeepsUnitsGood :=
  fun _ _ => step_invariant resetStep_unitsGood (fun o _ hs => hs.withOutside o)
    (fun _ _ => readReg_unitsGood) (fun _ _ _ => writeReg_unitsGood) (fun _ _ => latched_unitsGood)
    (fun _ _ _ => Effect.unitsGood)

end Sys2Proof.Machine
end

section
/-! The arena stays canonical (spec/10_state.md R30): every write stores a canonical entry. -/

namespace Sys2Proof.Machine

theorem arenaCanonical_blank : ArenaCanonical (Vector.replicate 511 Node.blank) := by
  rw [ArenaCanonical, Vector.toList_replicate]
  exact List.all_eq_true.mpr fun e he => by rw [List.eq_of_mem_replicate he]; rfl

theorem ArenaCanonical.set {a : Arena} {n : Nat} {e : Node} (ha : ArenaCanonical a) (he : e.canonical = true) :
    ArenaCanonical (a.setIfInBounds n e) := by
  rw [ArenaCanonical, Vector.toList_setIfInBounds]
  refine List.all_eq_true.mpr fun x hx => ?_
  rcases List.mem_or_eq_of_mem_set hx with hx | rfl
  · exact List.all_eq_true.mp ha x hx
  · exact he

theorem layLeaves_canonical {fs : List Word} {s n : Nat} {a : Arena} (ha : ArenaCanonical a) :
    ArenaCanonical (layLeaves fs s n a).1 := by
  induction fs generalizing s n a with
  | nil => exact ha
  | cons f fs ih =>
    rw [layLeaves]
    split
    · exact ih ha
    · exact ih (ha.set rfl)

theorem mergeOnce_canonical {next : Nat} {a a' : Arena} {h h' : Heap} (ha : ArenaCanonical a)
    (hm : mergeOnce next a h = .done (a', h')) : ArenaCanonical a' := by
  obtain ⟨x, -, y, -, -, -, -, rfl, -⟩ := mergeOnce_done hm
  exact ha.set rfl

theorem buildBody_canonical {s u : State} (h : buildBody s = .done u) : ArenaCanonical u.tree.arena := by
  have hleaves : ArenaCanonical (buildLeaves s.counter.hist).1 := layLeaves_canonical arenaCanonical_blank
  rcases buildBody_done h with ⟨-, rfl⟩ | ⟨-, rfl⟩ | ⟨htwo, a, hp, r, hm, rfl⟩
  · exact hleaves
  · exact hleaves
  · obtain ⟨-, -, -, ha, -⟩ := mergeLeaves_invariant (P := fun _ a _ => ArenaCanonical a)
      (fun _ _ _ _ _ => mergeOnce_canonical) (by omega) (buildLeaves_le _) hleaves hm
    exact ha

/-- A legal node word stands for a canonical entry (R152). -/
theorem canonical_of_legalNodeWord {nw f : Word} (h : legalNodeWord nw f = true) : (nodeOfWord nw f).canonical = true :=
  (Bool.and_eq_true_iff.mp h).2

theorem Effect.arenaCanonical {i : Instr} {s u : State} (h : Effect i s u) (hs : ArenaCanonical s.tree.arena) :
    ArenaCanonical u.tree.arena := by
  cases h with
  | clear => exact arenaCanonical_blank
  | build h => exact buildBody_canonical h
  | nodewr _ hl => exact hs.set (canonical_of_legalNodeWord hl)
  | _ => exact hs

/-- Settles O55: only BUILD, NODEWR, CLEAR and a reset write the arena. -/
theorem stepKeepsArenaCanonical : Obligations.StepKeepsArenaCanonical := by
  intro s t hs h
  refine step_invariant_of_stores (P := fun s => ArenaCanonical s.tree.arena) (fun _ => arenaCanonical_blank) ?_
    (fun _ _ _ hu => hu.arenaCanonical) hs h
  rintro s t ⟨-, -, -, ht, -⟩ - hs
  rwa [ht]

end Sys2Proof.Machine
end

section
/-! Forests in the arena: disjoint valid trees. tree_ok unfolds one from its list of work (spec/42_tree_builder.md
R154), the merge of BUILD joins one into a tree (R142, R143). -/

namespace Sys2Proof.Machine

/-! ### Trees after a write elsewhere -/

theorem nodeAt_set_ofNat {a : Arena} {n : Nat} {e : Node} (hn : n < 511) :
    nodeAt (a.setIfInBounds n e) (BitVec.ofNat 9 n) = some e := by
  have hi : (BitVec.ofNat 9 n).toNat = n := by rw [BitVec.toNat_ofNat]; omega
  have hget := nodeAt_set_self (a := a) (i := BitVec.ofNat 9 n) (e := e) (by bv_omega)
  rwa [hi] at hget

theorem valueAt_set_ne {a : Arena} {n : Nat} {i : NodeIdx} {e : Node} (h : i.toNat ≠ n) :
    valueAt (a.setIfInBounds n e) i = valueAt a i := by
  rw [valueAt, nodeAt_set_ne h, valueAt]

namespace IdxTree

theorem root_mem_indices (T : IdxTree) : T.root ∈ T.indices := by
  cases T <;> exact List.mem_cons_self

theorem leaves_subset_indices (T : IdxTree) : T.leaves ⊆ T.indices := by
  induction T with
  | leaf i => exact List.Subset.refl _
  | node i l r ihl ihr =>
    rw [leaves, indices]
    exact List.subset_cons_of_subset _ (List.append_subset.mpr
      ⟨List.Subset.trans ihl (List.subset_append_left _ _), List.Subset.trans ihr (List.subset_append_right _ _)⟩)

theorem leaves_length_pos (T : IdxTree) : 0 < T.leaves.length := Nat.zero_lt_of_lt T.depth_lt_length_leaves

/-- A write to no index of the tree leaves the tree in the arena. -/
theorem fits_set {a : Arena} {n : Nat} {e : Node} {T : IdxTree} (h : T.fits a = true)
    (hn : ∀ i ∈ T.indices, i.toNat ≠ n) : T.fits (a.setIfInBounds n e) = true := by
  induction T with
  | leaf i => rwa [fits_leaf, nodeAt_set_ne (hn i List.mem_cons_self), ← fits_leaf]
  | node i l r ihl ihr =>
    obtain ⟨hentry, hl, hr⟩ := fits_node.mp h
    have hnl : ∀ j ∈ l.indices, j.toNat ≠ n := fun j hj => hn j (by simp [indices, hj])
    have hnr : ∀ j ∈ r.indices, j.toNat ≠ n := fun j hj => hn j (by simp [indices, hj])
    refine fits_node.mpr ⟨?_, ihl hl hnl, ihr hr hnr⟩
    rwa [nodeAt_set_ne (hn i List.mem_cons_self), nodeAt_set_ne (hnl _ l.root_mem_indices),
      nodeAt_set_ne (hnr _ r.root_mem_indices)]

end IdxTree

/-! ### Forests -/

/-- The indices of all trees. -/
def forestIndices (Ts : List IdxTree) : List NodeIdx := Ts.flatMap IdxTree.indices

/-- The leaves' indices of all trees. -/
def forestLeaves (Ts : List IdxTree) : List NodeIdx := Ts.flatMap IdxTree.leaves

@[simp] theorem forestIndices_cons (T : IdxTree) (Ts : List IdxTree) :
    forestIndices (T :: Ts) = T.indices ++ forestIndices Ts := rfl

@[simp] theorem forestLeaves_cons (T : IdxTree) (Ts : List IdxTree) :
    forestLeaves (T :: Ts) = T.leaves ++ forestLeaves Ts := rfl

theorem forestIndices_join (i : NodeIdx) (L R : IdxTree) (Ts : List IdxTree) :
    forestIndices (.node i L R :: Ts) = i :: forestIndices (L :: R :: Ts) := by
  simp [IdxTree.indices]

theorem forestLeaves_join (i : NodeIdx) (L R : IdxTree) (Ts : List IdxTree) :
    forestLeaves (.node i L R :: Ts) = forestLeaves (L :: R :: Ts) := by
  simp [IdxTree.leaves]

theorem forestIndices_perm {Ts Us : List IdxTree} (h : Ts.Perm Us) : (forestIndices Ts).Perm (forestIndices Us) :=
  h.flatMap_right _

theorem forestLeaves_perm {Ts Us : List IdxTree} (h : Ts.Perm Us) : (forestLeaves Ts).Perm (forestLeaves Us) :=
  h.flatMap_right _

theorem mem_forestIndices {i : NodeIdx} {T : IdxTree} {Ts : List IdxTree} (hT : T ∈ Ts) (hi : i ∈ T.indices) :
    i ∈ forestIndices Ts := List.mem_flatMap.mpr ⟨T, hT, hi⟩

theorem forestLeaves_subset (Ts : List IdxTree) : forestLeaves Ts ⊆ forestIndices Ts := by
  intro i hi
  obtain ⟨T, hT, hi⟩ := List.mem_flatMap.mp hi
  exact mem_forestIndices hT (T.leaves_subset_indices hi)

/-- The trees stand in the arena, no index is in two places, and no two leaves have the same VALUE. -/
structure Forest (a : Arena) (Ts : List IdxTree) : Prop where
  fits : ∀ T ∈ Ts, T.fits a = true
  indices : (forestIndices Ts).Nodup
  values : ((forestLeaves Ts).map (valueAt a)).Nodup

namespace Forest

theorem perm {a : Arena} {Ts Us : List IdxTree} (h : Forest a Ts) (hp : Ts.Perm Us) : Forest a Us where
  fits T hT := h.fits T (hp.mem_iff.mpr hT)
  indices := (forestIndices_perm hp).nodup_iff.mp h.indices
  values := ((forestLeaves_perm hp).map _).nodup_iff.mp h.values

theorem set {a : Arena} {Ts : List IdxTree} {n : Nat} {e : Node} (h : Forest a Ts)
    (hn : ∀ i ∈ forestIndices Ts, i.toNat ≠ n) : Forest (a.setIfInBounds n e) Ts where
  fits T hT := IdxTree.fits_set (h.fits T hT) fun i hi => hn i (mem_forestIndices hT hi)
  indices := h.indices
  values := by
    rw [List.map_congr_left fun i hi => valueAt_set_ne (hn i (forestLeaves_subset Ts hi))]
    exact h.values

theorem cons_leaf {a : Arena} {Ts : List IdxTree} {i : NodeIdx} (h : Forest a Ts)
    (hi : i ∉ forestIndices Ts) (hv : valueAt a i ∉ (forestLeaves Ts).map (valueAt a))
    (hT : (IdxTree.leaf i).fits a = true) : Forest a (.leaf i :: Ts) where
  fits := List.forall_mem_cons.mpr ⟨hT, h.fits⟩
  indices := List.nodup_cons.mpr ⟨hi, h.indices⟩
  values := List.nodup_cons.mpr ⟨hv, h.values⟩

/-- An INTERNAL entry outside the forest joins two of its trees. -/
theorem join {a : Arena} {Ts : List IdxTree} {i : NodeIdx} {L R : IdxTree} {e el er : Node}
    (h : Forest a (L :: R :: Ts)) (hi : i ∉ forestIndices (L :: R :: Ts)) (he : nodeAt a i = some e)
    (hl : nodeAt a L.root = some el) (hr : nodeAt a R.root = some er) (hk : e.kind = .internal)
    (hleft : e.left = L.root) (hright : e.right = R.root) (hsum : e.freq.toNat = el.freq.toNat + er.freq.toNat) :
    Forest a (.node i L R :: Ts) where
  fits := by
    obtain ⟨hL, hR, hTs⟩ : L.fits a = true ∧ R.fits a = true ∧ ∀ T ∈ Ts, T.fits a = true := by simpa using h.fits
    exact List.forall_mem_cons.mpr
      ⟨IdxTree.fits_node.mpr ⟨⟨e, el, er, he, hl, hr, hk, hleft, hright, hsum⟩, hL, hR⟩, hTs⟩
  indices := by
    rw [forestIndices_join]
    exact List.nodup_cons.mpr ⟨hi, h.indices⟩
  values := by
    rw [forestLeaves_join]
    exact h.values

theorem isTree {a : Arena} {T : IdxTree} (h : Forest a [T]) : IsTree a T.root T :=
  ⟨rfl, h.fits T List.mem_cons_self, by simpa [forestIndices] using h.indices,
    by simpa [forestLeaves] using h.values⟩

end Forest

/-! ### tree_ok finds a forest -/

/-- What an answer n of tree_ok means for the work `w` (R154): valid trees hang from it, outside what has been visited
and with values not met yet, and n counts their leaves and the values met. -/
structure WorkForest (a : Arena) (w : TreeWork) (n : Nat) (Ts : List IdxTree) : Prop where
  roots : Ts.map IdxTree.root = w.work
  forest : Forest a Ts
  unvisited : ∀ i ∈ w.visited, i ∉ forestIndices Ts
  unmet : ∀ v ∈ w.values, v ∉ (forestLeaves Ts).map (valueAt a)
  count : n = w.values.length + (forestLeaves Ts).length

theorem workForest_nil {a : Arena} {w : TreeWork} (hw : w.work = []) : WorkForest a w w.values.length [] where
  roots := hw.symm
  forest := ⟨nofun, .nil, .nil⟩
  unvisited _ _ := nofun
  unmet _ _ := nofun
  count := rfl

/-- A turn at a LEAF puts it before the forest of the work left. -/
theorem WorkForest.cons_leaf {a : Arena} {vis : List NodeIdx} {vals : List Byte} {i : NodeIdx} {rest : List NodeIdx}
    {e : Node} {n : Nat} {Ts : List IdxTree} (h : WorkForest a ⟨i :: vis, e.value :: vals, rest⟩ n Ts)
    (hi : i ∉ vis) (he : nodeAt a i = some e) (hk : e.kind = .leaf) (hf : e.freq ≠ 0#32) (hv : e.value ∉ vals) :
    WorkForest a ⟨vis, vals, i :: rest⟩ n (.leaf i :: Ts) := by
  obtain ⟨hroots, hforest, hvis, hvals, hcount⟩ := h
  obtain ⟨hi', hvis⟩ := List.forall_mem_cons.mp hvis
  obtain ⟨hv', hvals⟩ := List.forall_mem_cons.mp hvals
  rw [← valueAt_eq he] at hv hv'
  refine ⟨congrArg (i :: ·) hroots, hforest.cons_leaf hi' hv' (IdxTree.fits_leaf.mpr ⟨e, he, hk, hf⟩), ?_, ?_, ?_⟩
  · exact fun j hj => List.not_mem_cons_of_ne_of_not_mem (fun hji => hi (hji ▸ hj)) (hvis j hj)
  · exact fun v hv' => List.not_mem_cons_of_ne_of_not_mem (fun hvi => hv (hvi ▸ hv')) (hvals v hv')
  · simp only [forestLeaves_cons, IdxTree.leaves, List.length_append, List.length_cons, List.length_nil] at hcount ⊢
    omega

/-- A turn at an INTERNAL entry joins the trees of its children, which hang from the end of the work left. -/
theorem WorkForest.join {a : Arena} {vis : List NodeIdx} {vals : List Byte} {i : NodeIdx} {rest : List NodeIdx}
    {e el er : Node} {n : Nat} {Ts : List IdxTree} (h : WorkForest a ⟨i :: vis, vals, rest ++ [e.left, e.right]⟩ n Ts)
    (hi : i ∉ vis) (he : nodeAt a i = some e) (hk : e.kind = .internal) (hl : nodeAt a e.left = some el)
    (hr : nodeAt a e.right = some er) (hsum : el.freq.toNat + er.freq.toNat = e.freq.toNat) :
    ∃ Us, WorkForest a ⟨vis, vals, i :: rest⟩ n Us := by
  obtain ⟨hroots, hforest, hvis, hvals, hcount⟩ := h
  obtain ⟨Us, Vs, rfl, hUs, hVs⟩ := List.map_eq_append_iff.mp hroots
  obtain ⟨L, Vs, rfl, hL, hVs⟩ := List.map_eq_cons_iff.mp hVs
  obtain ⟨R, Vs, rfl, hR, hVs⟩ := List.map_eq_cons_iff.mp hVs
  obtain rfl := List.map_eq_nil_iff.mp hVs
  have hperm : (Us ++ [L, R]).Perm (L :: R :: Us) := List.perm_append_comm
  have hindices := forestIndices_perm hperm
  have hleaves := forestLeaves_perm hperm
  obtain ⟨hi', hvis⟩ := List.forall_mem_cons.mp hvis
  rw [hindices.mem_iff] at hi'
  refine ⟨.node i L R :: Us, congrArg (i :: ·) hUs,
    (hforest.perm hperm).join hi' he (hL ▸ hl) (hR ▸ hr) hk hL.symm hR.symm hsum.symm, fun j hj => ?_,
    fun v hv => ?_, ?_⟩
  · rw [forestIndices_join]
    exact List.not_mem_cons_of_ne_of_not_mem (fun hji => hi (hji ▸ hj)) (hindices.mem_iff.not.mp (hvis j hj))
  · rw [forestLeaves_join, ← (hleaves.map _).mem_iff]
    exact hvals v hv
  · rw [forestLeaves_join, ← hleaves.length_eq]
    exact hcount

theorem treeLoop_forest {a : Arena} {fuel n : Nat} {w : TreeWork} (h : treeLoop a fuel w = .done (some n)) :
    ∃ Ts, WorkForest a w n Ts := by
  induction fuel generalizing w with
  | zero =>
    simp only [treeLoop, Body.done.injEq, Option.ite_none_right_eq_some, Option.some.injEq] at h
    obtain ⟨hw, rfl⟩ := h
    exact ⟨[], workForest_nil hw⟩
  | succ k ih =>
    obtain ⟨vis, vals, work⟩ := w
    cases work with
    | nil =>
      cases h
      exact ⟨[], workForest_nil rfl⟩
    | cons i rest =>
      obtain ⟨x, hturn, h⟩ := Body.andThen_eq_done.mp h
      cases x with
      | none => cases h
      | some w' =>
        obtain ⟨Ts, hTs⟩ := ih h
        obtain ⟨hi, e, he, ⟨hk, hf, hv, rfl⟩ | ⟨hk, ⟨el, er, hl, hr, hsum⟩, rfl⟩⟩ := treeTurn_done hturn
        · exact ⟨_, hTs.cons_leaf hi he hk hf hv⟩
        · exact hTs.join hi he hk hl hr hsum

/-- When tree_ok answers n, the valid tree at r has n leaves (R154). -/
theorem treeOk_sound {a : Arena} {r : NodeIdx} {n : Nat} (h : treeOk a r = .done (some n)) : ValidTree a r n := by
  obtain ⟨Ts, hroots, hforest, -, -, hcount⟩ := treeLoop_forest h
  obtain ⟨T, Us, rfl, rfl, hnil⟩ := List.map_eq_cons_iff.mp hroots
  obtain rfl := List.map_eq_nil_iff.mp hnil
  exact ⟨T, hforest.isTree, by simpa [forestLeaves] using hcount.symm⟩

end Sys2Proof.Machine
end

section
/-! BUILD makes a valid tree (spec/42_tree_builder.md R142 to R148): the leaves are a forest, every merge joins two of
its trees, and the one tree left hangs from ROOT. -/

namespace Sys2Proof.Machine

/-! ### The leaves -/

theorem nodup_firstIndices {n : Nat} (hn : n ≤ 511) : (firstIndices n).Nodup := by
  refine List.nodup_range.map_on fun j hj k hk h => ?_
  rw [List.mem_range] at hj hk
  bv_omega

/-- The leaves of symbols below `s` that build_leaves() has laid out at 0, …, n - 1 (R142). -/
structure LaidLeaves (s n : Nat) (a : Arena) : Prop where
  entry : ∀ i ∈ firstIndices n, (IdxTree.leaf i).fits a = true
  below : ∀ i ∈ firstIndices n, (valueAt a i).toNat < s
  distinct : ((firstIndices n).map (valueAt a)).Nodup

theorem LaidLeaves.skip {s n : Nat} {a : Arena} (h : LaidLeaves s n a) : LaidLeaves (s + 1) n a :=
  ⟨h.entry, fun i hi => (h.below i hi).trans (Nat.lt_succ_self s), h.distinct⟩

theorem LaidLeaves.lay {s n : Nat} {a : Arena} {f : Word} (h : LaidLeaves s n a) (hf : f ≠ 0#32) (hs : s < 256)
    (hn : n < 511) : LaidLeaves (s + 1) (n + 1) (a.setIfInBounds n (Node.mkLeaf f (BitVec.ofNat 8 s))) := by
  obtain ⟨hentry, hbelow, hdistinct⟩ := h
  have hne : ∀ i ∈ firstIndices n, i.toNat ≠ n := fun i hi => (lt_of_mem_firstIndices hi).ne
  have hnew : nodeAt (a.setIfInBounds n (Node.mkLeaf f (BitVec.ofNat 8 s))) (BitVec.ofNat 9 n)
      = some (Node.mkLeaf f (BitVec.ofNat 8 s)) := nodeAt_set_ofNat hn
  have hvalue : (BitVec.ofNat 8 s).toNat = s := by rw [BitVec.toNat_ofNat]; omega
  have hold : (firstIndices n).map (valueAt (a.setIfInBounds n (Node.mkLeaf f (BitVec.ofNat 8 s))))
      = (firstIndices n).map (valueAt a) := List.map_congr_left fun i hi => valueAt_set_ne (hne i hi)
  refine ⟨fun i hi => ?_, fun i hi => ?_, ?_⟩
  · rw [firstIndices_succ, List.mem_append, List.mem_singleton] at hi
    rcases hi with hi | rfl
    · exact IdxTree.fits_set (hentry i hi) fun j hj => by rw [List.mem_singleton.mp hj]; exact hne i hi
    · exact IdxTree.fits_leaf.mpr ⟨_, hnew, rfl, hf⟩
  · rw [firstIndices_succ, List.mem_append, List.mem_singleton] at hi
    rcases hi with hi | rfl
    · rw [valueAt_set_ne (hne i hi)]
      exact (hbelow i hi).trans (Nat.lt_succ_self s)
    · rw [valueAt_eq hnew]
      exact (hvalue.trans_lt (Nat.lt_succ_self s))
  · rw [firstIndices_succ, List.map_append, hold, List.map_singleton, valueAt_eq hnew]
    refine List.nodup_append.mpr ⟨hdistinct, List.nodup_singleton _, fun v hv w hw hvw => ?_⟩
    obtain ⟨i, hi, rfl⟩ := List.mem_map.mp hv
    have hlt := hbelow i hi
    rw [hvw, List.mem_singleton.mp hw] at hlt
    exact absurd hvalue hlt.ne

theorem layLeaves_laid {fs : List Word} {s n : Nat} {a : Arena} (h : LaidLeaves s n a) (hns : n ≤ s)
    (hs : s + fs.length ≤ 256) : LaidLeaves (s + fs.length) (layLeaves fs s n a).2 (layLeaves fs s n a).1 := by
  induction fs generalizing s n a with
  | nil => exact h
  | cons f fs ih =>
    rw [List.length_cons] at hs ⊢
    rw [show s + (fs.length + 1) = s + 1 + fs.length by omega, layLeaves]
    split
    · exact ih h.skip (by omega) (by omega)
    · exact ih (h.lay ‹_› (by omega) (by omega)) (by omega) (by omega)

/-- The leaves of build_leaves() are LEAF entries of distinct symbols (R142). -/
theorem buildLeaves_laid (hist : Vector Word 256) : LaidLeaves 256 (buildLeaves hist).2 (buildLeaves hist).1 := by
  have hlaid := layLeaves_laid (fs := hist.toList) (s := 0) (n := 0) (a := Vector.replicate 511 Node.blank)
    ⟨nofun, nofun, .nil⟩ le_rfl (by simp)
  simpa [buildLeaves] using hlaid

theorem LaidLeaves.forest {s n : Nat} {a : Arena} (h : LaidLeaves s n a) (hn : n ≤ 511) :
    Forest a ((firstIndices n).map .leaf) where
  fits := List.forall_mem_map.mpr h.entry
  indices := by simpa [forestIndices, List.flatMap_map, IdxTree.indices] using nodup_firstIndices hn
  values := by simpa [forestLeaves, List.flatMap_map, IdxTree.leaves] using h.distinct

/-! ### The merge -/

/-- The forest of the merge (R143) when the next free entry is `next`: its trees hang from the heap's elements, stand
below `next`, and have n leaves in all; the entries still to be written exist. -/
structure MergeForest (n next : Nat) (a : Arena) (h : Heap) (Ts : List IdxTree) : Prop where
  forest : Forest a Ts
  roots : (Ts.map IdxTree.root).Perm (heapElems h)
  written : ∀ i ∈ forestIndices Ts, i.toNat < next
  leaves : (forestLeaves Ts).length = n
  atMost : h.count.toNat ≤ 256
  room : next + h.count.toNat ≤ 512

/-- The tree that hangs from a given element, and the rest of the forest. -/
theorem exists_perm_cons_of_map_perm {α β : Type} {f : α → β} {xs : List α} {y : β} {ys : List β}
    (h : (xs.map f).Perm (y :: ys)) : ∃ x xs', xs.Perm (x :: xs') ∧ f x = y ∧ (xs'.map f).Perm ys := by
  obtain ⟨x, hx, rfl⟩ := List.mem_map.mp (h.mem_iff.mpr List.mem_cons_self)
  obtain ⟨us, vs, rfl⟩ := List.append_of_mem hx
  have hperm : (us ++ x :: vs).Perm (x :: (us ++ vs)) := List.perm_middle
  exact ⟨x, us ++ vs, hperm, rfl, ((hperm.map f).symm.trans h).cons_inv⟩

theorem mergeForest_heapify {a : Arena} {s n : Nat} (h : Heap) (hl : LaidLeaves s n a) (hn : n ≤ 256) :
    MergeForest n n a (heapify a (firstIndices n) h) ((firstIndices n).map .leaf) := by
  have hlen : (firstIndices n).length ≤ 256 := by simpa using hn
  have hcount : (heapify a (firstIndices n) h).count.toNat = n := by simpa using heapify_count (a := a) (h := h) hlen
  exact {
    forest := hl.forest (by omega)
    roots := by
      rw [List.map_map, show IdxTree.root ∘ IdxTree.leaf = id from rfl, List.map_id]
      exact (heapElems_heapify hlen).symm
    written := fun i hi => lt_of_mem_firstIndices (by simpa [forestIndices, List.flatMap_map, IdxTree.indices] using hi)
    leaves := by simp [forestLeaves, List.flatMap_map, IdxTree.leaves]
    atMost := by omega
    room := by omega }

theorem MergeForest.perm {n next : Nat} {a : Arena} {h : Heap} {Ts Us : List IdxTree} (hf : MergeForest n next a h Ts)
    (hp : Ts.Perm Us) : MergeForest n next a h Us where
  forest := hf.forest.perm hp
  roots := (hp.map _).symm.trans hf.roots
  written i hi := hf.written i ((forestIndices_perm hp).mem_iff.mpr hi)
  leaves := (forestLeaves_perm hp).length_eq.symm.trans hf.leaves
  atMost := hf.atMost
  room := hf.room

/-- The element pop_min takes is the root of a tree, and the other trees hang from the elements left. -/
theorem MergeForest.exists_popped {n next : Nat} {a : Arena} {h h' : Heap} {x : NodeIdx} {Ts : List IdxTree}
    (hf : MergeForest n next a h Ts) (hx : popMin a h = .done (x, h')) :
    ∃ X Us, X.root = x ∧ MergeForest n next a h (X :: Us) ∧ (Us.map IdxTree.root).Perm (heapElems h')
      ∧ h.count.toNat = h'.count.toNat + 1 := by
  obtain ⟨hcount, hp⟩ := heapElems_popMin hf.atMost hx
  obtain ⟨X, Us, hperm, hX, hUs⟩ := exists_perm_cons_of_map_perm (hf.roots.trans hp)
  exact ⟨X, Us, hX, hf.perm hperm, hUs, hcount⟩

/-- A new entry above two trees of the forest, pushed in their place, joins them (R143). -/
theorem MergeForest.join {n next : Nat} {a : Arena} {h h₂ h' : Heap} {X Y : IdxTree} {Ts : List IdxTree}
    (hf : MergeForest n next a h (Y :: X :: Ts)) (hTs : (Ts.map IdxTree.root).Perm (heapElems h₂))
    (hcount : h.count.toNat = h₂.count.toNat + 2)
    (hfit : (freqAt a X.root).toNat + (freqAt a Y.root).toNat < 2 ^ 32)
    (hpush : (heapElems h').Perm (BitVec.ofNat 9 next :: heapElems h₂))
    (hcount' : h'.count.toNat = h₂.count.toNat + 1) :
    MergeForest n (next + 1)
      (a.setIfInBounds next (Node.mkInternal (freqAt a X.root + freqAt a Y.root) Y.root X.root)) h'
      (.node (BitVec.ofNat 9 next) Y X :: Ts) := by
  obtain ⟨hforest, -, hwritten, hleaves, hmost, hroom⟩ := hf
  have hnext : (BitVec.ofNat 9 next).toNat = next := by rw [BitVec.toNat_ofNat]; omega
  have hentry : ∀ T ∈ Y :: X :: Ts, ∃ e, nodeAt a T.root = some e ∧ T.root.toNat ≠ next := fun T hT => by
    obtain ⟨e, he, -⟩ := IdxTree.root_landsIn_inner (hforest.fits T hT)
    exact ⟨e, he, (hwritten _ (mem_forestIndices hT T.root_mem_indices)).ne⟩
  obtain ⟨ey, hey, hy⟩ := hentry Y (by simp)
  obtain ⟨ex, hex, hx⟩ := hentry X (by simp)
  rw [freqAt_eq hex, freqAt_eq hey] at hfit ⊢
  exact {
    forest := (hforest.set fun i hi => (hwritten i hi).ne).join (fun hi => (hwritten _ hi).ne hnext)
      (nodeAt_set_ofNat (by omega)) ((nodeAt_set_ne hy).trans hey) ((nodeAt_set_ne hx).trans hex) rfl rfl rfl
      (by rw [Node.mkInternal, BitVec.toNat_add]; omega)
    roots := (hTs.cons _).trans hpush.symm
    written := by
      rw [forestIndices_join]
      exact List.forall_mem_cons.mpr ⟨by omega, fun i hi => (hwritten i hi).trans (Nat.lt_succ_self next)⟩
    leaves := by rwa [forestLeaves_join]
    atMost := by omega
    room := by omega }

/-- A turn of the merge keeps a forest (R143). -/
theorem mergeOnce_keeps_forest {n next : Nat} {a a' : Arena} {h h' : Heap} (hf : ∃ Ts, MergeForest n next a h Ts)
    (hm : mergeOnce next a h = .done (a', h')) : ∃ Ts, MergeForest n (next + 1) a' h' Ts := by
  obtain ⟨Ts, hf⟩ := hf
  obtain ⟨x, h1, y, h2, hx, hy, hfit, rfl, hpush⟩ := mergeOnce_done hm
  obtain ⟨X, Us, rfl, hf, hUs, hc1⟩ := hf.exists_popped hx
  obtain ⟨hc2, hp2⟩ := heapElems_popMin (by have := hf.atMost; omega) hy
  obtain ⟨Y, Vs, hY, rfl, hVs⟩ := exists_perm_cons_of_map_perm (hUs.trans hp2)
  obtain ⟨hc3, hp3⟩ := heapElems_push hpush
  exact ⟨_, (hf.perm ((hY.cons X).trans (.swap _ _ _))).join hVs (by omega) hfit hp3 hc3⟩

/-- The merge of n leaves makes a valid tree with n leaves at the answered root (R143, R145). -/
theorem mergeLeaves_validTree {s n : Nat} {a a' : Arena} {h h' : Heap} {r : NodeIdx} (hl : LaidLeaves s n a)
    (h1 : 1 ≤ n) (h2 : n ≤ 256) (hm : mergeLeaves n a h = .done (a', h', r)) : ValidTree a' r n := by
  obtain ⟨hzero, next, h₁, ⟨Ts, hf⟩, -, hpop⟩ := mergeLeaves_invariant
    (P := fun next a h => ∃ Ts, MergeForest n next a h Ts) (fun _ _ _ _ _ => mergeOnce_keeps_forest) h1 h2
    ⟨_, mergeForest_heapify h hl h2⟩ hm
  obtain ⟨T, Us, rfl, hf, hUs, -⟩ := hf.exists_popped hpop
  have hempty : heapElems h' = [] := by simp [heapElems, hzero]
  rw [hempty] at hUs
  obtain rfl := List.map_eq_nil_iff.mp hUs.eq_nil
  exact ⟨T, hf.forest.isTree, by simpa [forestLeaves] using hf.leaves⟩

end Sys2Proof.Machine
end

section
/-! The tree registers, the decoder's pointer and the code table stay consistent with the tree (spec/10_state.md R32,
R34, spec/45_decoder.md R210, spec/43_code_table.md R179). -/

namespace Sys2Proof.Machine

/-! ### Tree registers -/

/-- The KIND at the root tells a bare leaf from a larger tree. -/
theorem IsTree.kind_root {a : Arena} {r : NodeIdx} {T : IdxTree} (h : IsTree a r T) :
    (kindAt a r = .leaf ∧ T.leaves.length = 1) ∨ (kindAt a r = .internal ∧ 2 ≤ T.leaves.length) := by
  obtain ⟨rfl, hfits, -⟩ := h
  cases T with
  | leaf i =>
    obtain ⟨e, he, hk, -⟩ := IdxTree.fits_leaf.mp hfits
    exact .inl ⟨(kindAt_eq_iff (by simp)).mpr ⟨e, he, hk⟩, rfl⟩
  | node i l r =>
    obtain ⟨⟨e, -, -, he, -, -, hk, -⟩, -⟩ := IdxTree.fits_node.mp hfits
    have hl := l.leaves_length_pos
    have hr := r.leaves_length_pos
    exact .inr ⟨(kindAt_eq_iff (by simp)).mpr ⟨e, he, hk⟩, by rw [IdxTree.leaves, List.length_append]; omega⟩

/-- A valid tree of n leaves with its registers set is consistent (R32). -/
theorem treeConsistent_of_validTree {t : Tree} {n : Nat} (ht : ValidTree t.arena t.root n) (he : t.empty = false)
    (hn : t.nleaf = BitVec.ofNat 9 n) (hs : t.single = (n == 1)) (hv : t.valid = true) : TreeConsistent t := by
  obtain ⟨T, hT, rfl⟩ := ht
  have hle := hT.length_leaves_le
  rw [TreeConsistent, if_pos hv]
  rcases hT.kind_root with ⟨hk, hone⟩ | ⟨hk, htwo⟩
  · rw [hone] at hn hs
    exact .inr (.inl ⟨he, hs, hk, hn⟩)
  · have hcount : t.nleaf.toNat = T.leaves.length := by rw [hn, BitVec.toNat_ofNat]; omega
    exact .inr (.inr ⟨he, by rw [hs, beq_eq_false_iff_ne]; omega, hk, ⟨T, hT, hcount.symm⟩, by omega⟩)

theorem treeConsistent_empty {t : Tree} (he : t.empty = true) (hs : t.single = false) (hr : t.root = Config.noneIdx)
    (hn : t.nleaf = 0#9) (hv : t.valid = true) : TreeConsistent t := by
  rw [TreeConsistent, if_pos hv]
  exact .inl ⟨he, hs, hr, hn⟩

theorem treeConsistent_invalid {t : Tree} (hv : t.valid = false) (he : t.empty = false) (hs : t.single = false) :
    TreeConsistent t := by
  rw [TreeConsistent, if_neg (by simp [hv])]
  exact ⟨he, hs⟩

/-- One leaf is a valid tree by itself (R148). -/
theorem LaidLeaves.validTree_one {s : Nat} {a : Arena} (h : LaidLeaves s 1 a) : ValidTree a 0#9 1 := by
  have hforest : Forest a [.leaf 0#9] := h.forest (by decide)
  exact ⟨.leaf 0#9, hforest.isTree, rfl⟩

theorem buildBody_treeConsistent {s u : State} (h : buildBody s = .done u) : TreeConsistent u.tree := by
  have hlaid := buildLeaves_laid s.counter.hist
  rcases buildBody_done h with ⟨-, rfl⟩ | ⟨hone, rfl⟩ | ⟨htwo, a, hp, r, hm, rfl⟩
  · exact treeConsistent_empty rfl rfl rfl rfl rfl
  · rw [hone] at hlaid
    exact treeConsistent_of_validTree (n := 1) hlaid.validTree_one rfl rfl rfl rfl
  · have hvalid := mergeLeaves_validTree hlaid (by omega) (buildLeaves_le _) hm
    exact treeConsistent_of_validTree hvalid (beq_eq_false_iff_ne.mpr (by omega)) rfl rfl rfl

/-- What SETROOT installs is consistent: tree_ok has found a valid tree (R153, R156). -/
theorem installTree_treeConsistent {r : NodeIdx} {n : Nat} {s : State} (h : treeOk s.tree.arena r = .done (some n)) :
    TreeConsistent (installTree r n s).tree := by
  have hvalid := treeOk_sound h
  refine treeConsistent_of_validTree hvalid rfl rfl ?_ rfl
  obtain ⟨T, hT, rfl⟩ := hvalid
  show ((nodeAt s.tree.arena r).map Node.kind == some .leaf) = (T.leaves.length == 1)
  rcases hT.kind_root with ⟨hk, hone⟩ | ⟨hk, htwo⟩
  · obtain ⟨e, he, hk⟩ := (kindAt_eq_iff (by simp)).mp hk
    simp [he, hk, hone]
  · obtain ⟨e, he, hk⟩ := (kindAt_eq_iff (by simp)).mp hk
    simp [he, hk, show T.leaves.length ≠ 1 by omega]

theorem Effect.treeConsistent {i : Instr} {s u : State} (h : Effect i s u) (hs : TreeConsistent s.tree) :
    TreeConsistent u.tree := by
  cases h with
  | clear | nodewr => exact treeConsistent_invalid rfl rfl rfl
  | build h => exact buildBody_treeConsistent h
  | setrootEmpty => exact treeConsistent_empty rfl rfl rfl rfl rfl
  | setrootTree _ h => exact installTree_treeConsistent h
  | _ => exact hs

/-! ### The decoder -/

/-- DEC_PTR at ROOT is on a consistent tree (R210). -/
theorem TreeConsistent.decoderAtRoot {t : Tree} {d : Decoder} (h : TreeConsistent t) (hd : d.ptr = t.root) :
    DecoderOnTree t d := by
  intro hv
  rw [TreeConsistent, if_pos hv] at h
  rcases h with ⟨he, hs, hr, -⟩ | ⟨he, hs, -⟩ | ⟨he, hs, hk, ⟨T, hT, hn⟩, htwo⟩
  · exact ⟨fun _ => hd.trans hr, by simp [hs], by simp [he]⟩
  · exact ⟨by simp [he], fun _ => hd, by simp [hs]⟩
  · refine ⟨by simp [he], by simp [hs], fun _ _ => ⟨T, hT, ?_⟩⟩
    obtain ⟨hroot, -⟩ := hT
    rw [hd, ← hroot]
    cases T with
    | leaf i => simp [IdxTree.leaves] at hn; omega
    | node i l r => exact List.mem_cons_self

theorem decoderOnTree_of_ptr {t : Tree} {d d' : Decoder} (hd : DecoderOnTree t d) (h : d'.ptr = d.ptr) :
    DecoderOnTree t d' := by
  unfold DecoderOnTree
  rw [h]
  exact hd

theorem Effect.decoderOnTree {i : Instr} {s u : State} (h : Effect i s u) (ht : TreeConsistent s.tree)
    (hd : DecoderOnTree s.tree s.decoder) : DecoderOnTree u.tree u.decoder := by
  have ht' := h.treeConsistent ht
  cases h with
  | clear | nodewr => exact nofun
  | build | decrst | setrootEmpty | setrootTree => exact ht'.decoderAtRoot rfl
  | dec _ h => exact forEach_invariant (fun _ _ _ => decodeBit_keeps_onTree) hd h
  | _ => exact hd

/-! ### The code table -/

/-- The code table with another CODES_VALID. -/
def Codes.withValid (b : Bool) (c : Codes) : Codes := { c with valid := b }

theorem record_withValid (b : Bool) (v : Byte) (f : Word) (p : BitString) (c : Codes) :
    record v f p (c.withValid b) = (record v f p c).andThen fun c' => .done (c'.withValid b) := by
  by_cases hlen : Config.maxLen < p.length
  · simp [record, hlen]
  · by_cases hroom : 256 ≤ c.count.toNat <;> simp [record, Codes.withValid, hlen, hroom]

/-- The walk neither reads nor writes CODES_VALID (R171). -/
theorem walk_withValid (b : Bool) {a : Arena} {fuel : Nat} {i : NodeIdx} {p : BitString} {c : Codes} :
    walk a fuel i p (c.withValid b) = (walk a fuel i p c).andThen fun c' => .done (c'.withValid b) := by
  induction fuel generalizing i p c with
  | zero => rfl
  | succ k ih =>
    rw [walk, walk, Body.andThen_assoc]
    refine congrArg _ (funext fun e => ?_)
    split
    · exact record_withValid b _ _ _ _
    · rw [ih, Body.andThen_assoc, Body.andThen_assoc]
      exact congrArg _ (funext fun c' => ih)

theorem genCodes_withValid (b : Bool) (t : Tree) (c : Codes) :
    genCodes t (c.withValid b) = (genCodes t c).andThen fun c' => .done (c'.withValid b) := by
  have hcleared : (c.withValid b).cleared = c.cleared.withValid b := rfl
  unfold genCodes
  rw [hcleared]
  split
  · rfl
  · split
    · rw [Body.andThen_assoc]
      exact congrArg _ (funext fun e => record_withValid b _ _ _ _)
    · exact walk_withValid b

/-- GENCODES reads nothing of the code table but what clearing keeps (R170). -/
theorem genCodes_congr {t : Tree} {c d : Codes} (h : c.cleared = d.cleared) : genCodes t c = genCodes t d := by
  unfold genCodes
  rw [h]

/-- The table of GENCODES is what another GENCODES would make (R34). -/
theorem genCodes_codesOfTree {t : Tree} {c c' : Codes} (h : genCodes t c = .done c') :
    CodesOfTree t (c'.withValid true) := by
  intro _
  have hsame : genCodes t (c'.withValid true) = genCodes t (c.withValid true) := genCodes_congr rfl
  rw [hsame, genCodes_withValid, h]
  exact ⟨_, rfl, rfl, rfl, rfl⟩

theorem Effect.codesOfTree {i : Instr} {s u : State} (h : Effect i s u) (hs : CodesOfTree s.tree s.codes) :
    CodesOfTree u.tree u.codes := by
  cases h with
  | clear | build | nodewr | setrootEmpty | setrootTree => exact nofun
  | gencodes _ h => exact genCodes_codesOfTree h
  | _ => exact hs

/-! ### Together -/

/-- The tree registers, the decoder's pointer and the code table agree with the tree (R32, R210, R34). -/
structure TreeSide (s : State) : Prop where
  tree : TreeConsistent s.tree
  decoder : DecoderOnTree s.tree s.decoder
  codes : CodesOfTree s.tree s.codes

theorem resetStep_treeSide (s : State) : TreeSide (resetStep s) where
  tree := treeConsistent_invalid rfl rfl rfl
  decoder := nofun
  codes := nofun

theorem TreeSide.of_sameStores {s t : State} (h : SameStores s t) (hp : t.decoder.ptr = s.decoder.ptr)
    (hs : TreeSide s) : TreeSide t := by
  obtain ⟨htree, hdecoder, hcodes⟩ := hs
  obtain ⟨-, -, -, ht, hc, -⟩ := h
  exact ⟨by rwa [ht], by rw [ht]; exact decoderOnTree_of_ptr hdecoder hp, by rwa [ht, hc]⟩

theorem Effect.treeSide {i : Instr} {s u : State} (h : Effect i s u) (hs : TreeSide s) : TreeSide u where
  tree := h.treeConsistent hs.tree
  decoder := h.decoderOnTree hs.tree hs.decoder
  codes := h.codesOfTree hs.codes

/-- Settles O56: BUILD and SETROOT install valid trees, DEC walks on them, and GENCODES depends on the tree alone. -/
theorem stepKeepsTreeConsistent : Obligations.StepKeepsTreeConsistent := by
  intro s t _ htree hdecoder hcodes h
  obtain ⟨htree', hdecoder', hcodes'⟩ := step_invariant_of_stores resetStep_treeSide
    (fun _ _ => TreeSide.of_sameStores) (fun _ _ _ => Effect.treeSide) ⟨htree, hdecoder, hcodes⟩ h
  exact ⟨htree', hdecoder', hcodes'⟩

end Sys2Proof.Machine
end

section
/-! STATUS (spec/10_state.md R22): each field at its bits. -/

namespace Sys2Proof.Machine

theorem readStatus_of_idle {s : State} (hb : s.port.busy = false) : readStatus s = (statusIdle s, s) := by
  simp [readStatus, hb]

/-- Bits 0 to 5 of STATUS while BUSY = 0 (R22). -/
theorem statusIdle_flags (s : State) :
    (statusIdle s).getLsbD 0 = false ∧ (statusIdle s).getLsbD 1 = s.tree.valid
    ∧ (statusIdle s).getLsbD 2 = s.tree.empty ∧ (statusIdle s).getLsbD 3 = s.tree.single
    ∧ (statusIdle s).getLsbD 4 = s.codes.valid ∧ (statusIdle s).getLsbD 5 = decAtRoot s := by
  simp only [statusIdle, BitVec.getLsbD_append]
  simp

theorem statusIdle_reserved (s : State) : (statusIdle s).extractLsb' 6 2 = 0#2 := by
  unfold statusIdle
  repeat rw [BitVec.extractLsb'_append_eq_of_le (by decide)]
  exact BitVec.extractLsb'_append_eq_right

theorem statusIdle_err (s : State) : (statusIdle s).extractLsb' 8 8 = errBits s.port.err := by
  unfold statusIdle
  repeat rw [BitVec.extractLsb'_append_eq_of_le (by decide)]
  exact BitVec.extractLsb'_append_eq_right

theorem statusIdle_outLevel (s : State) :
    (statusIdle s).extractLsb' 16 8 = BitVec.ofNat 8 s.packer.out.length := by
  unfold statusIdle
  repeat rw [BitVec.extractLsb'_append_eq_of_le (by decide)]
  exact BitVec.extractLsb'_append_eq_right

theorem statusIdle_symLevel (s : State) :
    (statusIdle s).extractLsb' 24 8 = BitVec.ofNat 8 s.decoder.sym.length := by
  unfold statusIdle
  repeat rw [BitVec.extractLsb'_append_eq_of_le (by decide)]
  exact BitVec.extractLsb'_eq_self

theorem statusBusy_draw (n : Nat) : (statusBusy n).extractLsb' 1 31 = Config.statusDraw n :=
  BitVec.extractLsb'_append_eq_left

/-- Settles O48, field by field. -/
theorem statusFields : Obligations.StatusFields := by
  refine ⟨fun s hb => ?_, fun s hb hout hsym => ?_, fun _ _ => rfl, rfl, rfl⟩
  · rw [readStatus_of_busy hb]
    exact ⟨statusBusy_busy _, statusBusy_draw _, rfl⟩
  · obtain ⟨h0, h1, h2, h3, h4, h5⟩ := statusIdle_flags s
    rw [readStatus_of_idle hb]
    refine ⟨rfl, h0, h1, h2, h3, h4, ?_, statusIdle_reserved s, statusIdle_err s, ?_, ?_⟩
    · rw [h5, decAtRoot, Bool.and_eq_true, beq_iff_eq]
    · rw [statusIdle_outLevel, BitVec.toNat_ofNat]
      omega
    · rw [statusIdle_symLevel, BitVec.toNat_ofNat]
      omega

end Sys2Proof.Machine
end

section
/-! Bus accesses (spec/20_memory.md R60 to R72): which move an access next on the bus makes, and what one that is served
answers and leaves, in the state before the event was taken. -/

namespace Sys2Proof.Machine

/-! ### The event is taken -/

/-- `s` with other events to come. -/
def withInputsLeft (es : List Event) (s : State) : State := withOutside { s.outside with inputs := es } s

theorem answer_withInputsLeft {es : List Event} {s : State} {r : BusResponse} :
    answer r (withInputsLeft es s) = answered s es r := rfl

theorem latchRead_withInputsLeft {es : List Event} {off : Word} {s : State} :
    latchRead off (withInputsLeft es s) = withInputsLeft es (latchRead off s) := by
  unfold latchRead
  rw [apply_ite (withInputsLeft es)]
  rfl

/-- A read neither looks at the events to come nor changes them. -/
theorem readReg_withInputsLeft {es : List Event} {s : State} {r : Reg} :
    readReg (withInputsLeft es s) r = ((readReg s r).1, withInputsLeft es (readReg s r).2) := by
  cases r with
  | status =>
    cases hb : s.port.busy with
    | false =>
      rw [readReg, readReg, readStatus_of_idle hb, readStatus_of_idle (s := withInputsLeft es s) hb]
      rfl
    | true =>
      rw [readReg, readReg, readStatus_of_busy hb, readStatus_of_busy (s := withInputsLeft es s) hb]
      rfl
  | outData =>
    simp only [readReg, readOut, show (withInputsLeft es s).packer = s.packer from rfl]
    cases s.packer.out with
    | nil => exact congrArg (Prod.mk _) latchRead_withInputsLeft
    | cons w ws => rfl
  | symData =>
    simp only [readReg, readSym, show (withInputsLeft es s).decoder = s.decoder from rfl]
    cases s.decoder.sym with
    | nil => exact congrArg (Prod.mk _) latchRead_withInputsLeft
    | cons b bs => rfl
  | _ => rfl

/-- Nor does a write. -/
theorem writeReg_withInputsLeft {es : List Event} {s : State} {v : Word} {r : Reg} :
    writeReg (withInputsLeft es s) v r = withInputsLeft es (writeReg s v r) := by
  cases r with
  | cmd =>
    rw [writeReg, writeReg, writeCmd, writeCmd, apply_ite (withInputsLeft es)]
    rfl
  | _ => rfl

theorem takeInput_of_next {s : State} {a : Access} {rest : List Event} (h : Next s a rest) :
    takeInput s = withInputsLeft rest s :=
  takeInput_of_left (by simp [inputsLeft, h.1, h.2])

/-- With no event to come a step takes none. -/
theorem takeInput_of_no_inputs {s : State} (h : s.outside.inputs = []) : takeInput s = s :=
  takeInput_of_left (es := s.outside.inputs) (by simp [inputsLeft, h])

/-! ### Held and served accesses -/

theorem inWindow_iff {p : Params} {a : Access} : inWindow p a = true ↔ p.base ≤ a.addr ∧ a.addr < p.base + 0x800 := by
  rw [inWindow, Bool.and_eq_true, decide_eq_true_eq, decide_eq_true_eq]

theorem goodShape_iff {p : Params} {a : Access} : goodShape p a = true ↔ a.size = 4 ∧ (a.addr - p.base) % 4 = 0 := by
  rw [goodShape, Bool.and_eq_true, beq_iff_eq, beq_iff_eq, offsetOf]

/-- The three reads BUSY never holds (R62). -/
theorem neverHeld_iff {p : Params} {a : Access} (h : p.base ≤ a.addr) :
    neverHeld p a = true
      ↔ a.op = .read ∧ a.size = 4 ∧ (a.addr = p.base ∨ a.addr = p.base + 4 ∨ a.addr = p.base + 8) := by
  rw [neverHeld, Bool.and_eq_true, Bool.and_eq_true, goodShape_iff, beq_iff_eq, decide_eq_true_eq, offsetOf]
  constructor
  · rintro ⟨⟨⟨hsize, hmod⟩, hop⟩, hle⟩
    exact ⟨hop, hsize, by omega⟩
  · rintro ⟨hop, hsize, haddr⟩
    exact ⟨⟨⟨hsize, by omega⟩, hop⟩, by omega⟩

theorem isHeld_iff {s : State} {a : Access} :
    isHeld s a = true ↔ s.port.busy = true ∧ inWindow s.params a = true ∧ neverHeld s.params a = false := by
  rw [isHeld, Bool.and_eq_true, Bool.and_eq_true, Bool.not_eq_true', and_assoc]

theorem not_isHeld_of_idle {s : State} {a : Access} (hb : s.port.busy = false) : ¬ isHeld s a = true := by
  simp [isHeld, hb]

/-- An access that BUSY holds waits on the bus (R62). -/
theorem step_of_held {s : State} {a : Access} {rest : List Event} (h : Next s a rest) (hheld : isHeld s a = true) :
    step s = .next (holdAccess a (withInputsLeft rest s)) := by
  rw [step_of_hold (a := a) (by rw [nextMove_access h.1 h.2, if_pos hheld]), takeInput_of_next h]

theorem freeBus_of_free {s : State} (h : s.outside.held = none) : freeBus s = s := by
  rw [freeBus, ← h]
  rfl

theorem serveMove_eq {a : Access} {s : State} : serveMove a s = serveAccess a (freeBus s) := rfl

/-- An access that nothing holds is served at once (R11(a)). -/
theorem step_of_unheld {s : State} {a : Access} {rest : List Event} (h : Next s a rest) (hheld : ¬ isHeld s a = true) :
    step s = .next (serveAccess a (withInputsLeft rest s)) := by
  have hfree : freeBus (withInputsLeft rest s) = withInputsLeft rest s := freeBus_of_free h.2
  rw [step_of_serve (a := a) (by rw [nextMove_access h.1 h.2, if_neg hheld]), takeInput_of_next h, serveMove_eq, hfree]

/-! ### Aligned 4-byte accesses -/

theorem offsetOf_of_addr {p : Params} {a : Access} {off : Nat} (ha : a.addr = p.base + off) : offsetOf p a = off := by
  rw [offsetOf, ha, Nat.add_sub_cancel_left]

theorem inWindow_of_addr {p : Params} {a : Access} {off : Nat} (ha : a.addr = p.base + off) (hlt : off < 0x800) :
    inWindow p a = true :=
  inWindow_iff.mpr (by omega)

theorem goodShape_of_addr {p : Params} {a : Access} {off : Nat} (ha : a.addr = p.base + off) (hsize : a.size = 4)
    (hmod : off % 4 = 0) : goodShape p a = true :=
  goodShape_iff.mpr ⟨hsize, by rwa [← offsetOf, offsetOf_of_addr ha]⟩

theorem readAt_neverHeld {s : State} {off : Nat} (hmod : off % 4 = 0) (hle : off ≤ 8) :
    neverHeld s.params (readAt s off) = true := by
  have haddr : (readAt s off).addr = s.params.base + off := rfl
  exact (neverHeld_iff (by omega)).mpr ⟨rfl, rfl, by omega⟩

/-- A read of the accepted shape that BUSY does not hold answers what the register reads (R61, R63). -/
theorem step_of_read {s : State} {off : Nat} {rest : List Event} (h : Next s (readAt s off) rest) (hlt : off < 0x800)
    (hmod : off % 4 = 0) (hb : s.port.busy = true → off ≤ 8) :
    step s = .next (answered (readReg s (regAt off)).2 rest (.readOkay (readReg s (regAt off)).1)) := by
  have hheld : ¬ isHeld s (readAt s off) = true := fun hh => by
    obtain ⟨hbusy, -, hnever⟩ := isHeld_iff.mp hh
    rw [readAt_neverHeld hmod (hb hbusy)] at hnever
    cases hnever
  rw [step_of_unheld h hheld, serveAccess_of_read (s := withInputsLeft rest s) (inWindow_of_addr rfl hlt)
    (goodShape_of_addr rfl rfl hmod) rfl, readReg_withInputsLeft, answer_withInputsLeft, offsetOf_of_addr rfl]

/-- A write of the accepted shape while BUSY = 0 is answered OKAY, whatever it does (R61, R64). -/
theorem step_of_write {s : State} {off : Nat} {v : Word} {rest : List Event} (h : Next s (writeAt s off v) rest)
    (hlt : off < 0x800) (hmod : off % 4 = 0) (hb : s.port.busy = false) :
    step s = .next (answered (writeReg s v (regAt off)) rest .writeOkay) := by
  rw [step_of_unheld h (not_isHeld_of_idle hb), serveAccess_of_write (s := withInputsLeft rest s)
    (inWindow_of_addr rfl hlt) (goodShape_of_addr rfl rfl hmod) rfl, writeReg_withInputsLeft, answer_withInputsLeft,
    offsetOf_of_addr rfl]

/-! ### Single registers -/

theorem acceptedInError_iff {w : Word} : acceptedInError w = true ↔ w = 0x01000000#32 ∨ w = 0x02000000#32 := by
  rw [acceptedInError, Bool.or_eq_true, beq_iff_eq, beq_iff_eq]

theorem writeCmd_of_refused {s : State} {w : Word} (he : s.port.err ≠ .none) (hw : acceptedInError w = false) :
    writeCmd w s = s :=
  if_pos ⟨he, hw⟩

theorem writeCmd_of_accepted {s : State} {w : Word} (h : s.port.err = .none ∨ acceptedInError w = true) :
    writeCmd w s = { s with port := { s.port with pending := w, busy := true } } :=
  if_neg fun ⟨he, hw⟩ => h.elim he (by simp [hw])

theorem completeStep_of_illegal {s : State} {e : Illegal} (he : s.port.err = .none)
    (hd : decode s.port.pending = .error e) : completeStep s = .next (latched .illegalCmd s) := by
  rw [completeStep, fetch, hd]
  exact completeIllegal_next.mpr ⟨he, rfl⟩

theorem readOut_cons {s : State} {w : Word} {ws : List Word} (h : s.packer.out = w :: ws) :
    readOut s = (w, { s with packer := { s.packer with out := ws } }) := by
  rw [readOut, h]

theorem readOut_nil {s : State} (h : s.packer.out = []) : readOut s = (0#32, latchRead 0x050#32 s) := by
  rw [readOut, h]

theorem readSym_cons {s : State} {b : Byte} {bs : List Byte} (h : s.decoder.sym = b :: bs) :
    readSym s = (b.setWidth 32, { s with decoder := { s.decoder with sym := bs } }) := by
  rw [readSym, h]

theorem readSym_nil {s : State} (h : s.decoder.sym = []) : readSym s = (0#32, latchRead 0x054#32 s) := by
  rw [readSym, h]

theorem latchRead_of_noError {s : State} {off : Word} (he : s.port.err = .none) :
    latchRead off s = { s with port := { s.port with err := .readEmpty, errcmd := off } } :=
  if_pos he

theorem latchRead_of_error {s : State} {off : Word} (he : s.port.err ≠ .none) : latchRead off s = s := if_neg he

theorem regAt_codew_index (k : BitVec 3) : regAt (0x030 + 4 * k.toNat) = .codew k.toNat := by
  rw [regAt_codew (Nat.le_add_right _ _) (by omega), Nat.add_sub_cancel_left, Nat.mul_div_cancel_left _ (by decide)]

theorem regAt_hist_symbol (x : Byte) : regAt (0x400 + 4 * x.toNat) = .hist x := by
  rw [regAt_hist (Nat.le_add_right _ _), Nat.add_sub_cancel_left, Nat.mul_div_cancel_left _ (by decide),
    BitVec.ofNat_toNat, BitVec.setWidth_eq]

/-- The reserved words (R66). -/
theorem regAt_of_reserved {off : Nat} (h : off = 0x01C ∨ off = 0x02C ∨ (0x07C ≤ off ∧ off ≤ 0x3FC)) :
    regAt off = .reserved := by
  refine regAt_reserved (fun o ho he => ?_) (by omega) (by omega)
  simp only [List.mem_cons, List.not_mem_nil, or_false] at ho
  omega

/-- A short register read as a word: its own bits below zeros. -/
theorem setWidth_eq_zero_append {k : Nat} (m : Nat) (x : BitVec k) : x.setWidth (m + k) = 0#m ++ x := by
  apply BitVec.eq_of_toNat_eq
  rw [BitVec.toNat_setWidth_of_le (Nat.le_add_left k m), BitVec.toNat_append]
  simp

/-! ### The obligations of the window -/

/-- Settles O42: the write is served by `writeCmd`, whose two branches are the two clauses. -/
theorem cmdWriteAcceptance : Obligations.CmdWriteAcceptance := by
  refine ⟨fun s w rest hb h => ?_, fun s e => completeStep_of_illegal⟩
  rw [step_of_write h (by decide) (by decide) hb]
  refine ⟨fun ⟨he, h1, h2⟩ => ?_, fun hacc => ?_⟩ <;> rw [show regAt 0x010 = .cmd from rfl, writeReg]
  · have hw : acceptedInError w = false := by
      rw [← Bool.not_eq_true, acceptedInError_iff]
      exact not_or.mpr ⟨h1, h2⟩
    rw [writeCmd_of_refused he hw]
  · rw [writeCmd_of_accepted (hacc.imp_right acceptedInError_iff.mpr)]

/-- Settles O43: hold, the three reads served at once, and completion before service. -/
theorem busyHoldsAccesses : Obligations.BusyHoldsAccesses := by
  refine ⟨fun s a rest hb h hlo hhi hne => ?_, fun s rest hb => ⟨fun h => ?_, fun h => ?_, fun h => ?_⟩,
    fun s a hh hi => ⟨fun hb => ?_, fun hb => ?_⟩⟩
  · have hnever : neverHeld s.params a = false := by rwa [← Bool.not_eq_true, neverHeld_iff hlo]
    exact step_of_held h (isHeld_iff.mpr ⟨hb, inWindow_iff.mpr ⟨hlo, hhi⟩, hnever⟩)
  · exact step_of_read h (by decide) (by decide) (by simp)
  · exact step_of_read h (by decide) (by decide) (by simp)
  · refine ⟨statusBusy s.outside.draws, statusBusy_busy _, ?_⟩
    rw [step_of_read h (by decide) (by decide) (by simp), show regAt 0x008 = .status from rfl, readReg,
      readStatus_of_busy hb]
    rfl
  · rw [step_of_complete (nextMove_of_busy hb (by simp [hi]) (.inl (by simp [hh]))), takeInput_of_no_inputs hi]
  · rw [step_of_serve (a := a) (by rw [nextMove_held (by simp [hi]) hh, hb]; rfl), takeInput_of_no_inputs hi]
    rfl

/-- Settles O44: the access is not held, and `serveAccess` answers an error of its kind. -/
theorem badShapeAccess : Obligations.BadShapeAccess := by
  intro s a rest hb h hlo hhi hshape
  have hw : inWindow s.params a = true := inWindow_iff.mpr ⟨hlo, hhi⟩
  have hg : goodShape s.params a ≠ true := by
    rw [ne_eq, goodShape_iff]
    exact not_and_or.mpr hshape
  have hstep : step s = .next (answered s rest (errorResponse a.op)) := by
    rw [step_of_unheld h (not_isHeld_of_idle hb), serveAccess_of_badShape (s := withInputsLeft rest s) hw hg,
      answer_withInputsLeft]
  rw [hstep]
  exact ⟨fun hop => by rw [hop]; rfl, fun v hop => by rw [hop]; rfl⟩

/-- Settles O45: the read changes nothing, and its value is the register's. The map gives a named word's register by
computation; the two ranges and the reserved words are found by their offset. -/
theorem windowReads : Obligations.WindowReads := by
  intro s off rest hb h hlt hmod hout hsym
  have hquiet : (readReg s (regAt off)).2 = s := readReg_quiet hb (mt regAt_outData hout) (mt regAt_symData hsym)
  have hstep := step_of_read h hlt hmod (by simp [hb])
  rw [hquiet] at hstep
  refine ⟨_, hstep, (· ▸ rfl), (· ▸ rfl), (· ▸ congrArg Prod.fst (readStatus_of_idle hb)), (· ▸ rfl), (· ▸ rfl),
    (· ▸ rfl), (· ▸ rfl), (· ▸ rfl), (· ▸ rfl), (· ▸ rfl), fun k ho => ?_, (· ▸ rfl), (· ▸ rfl), (· ▸ rfl), (· ▸ rfl),
    (· ▸ rfl), (· ▸ setWidth_eq_zero_append 27 s.packer.packcnt), (· ▸ rfl),
    (· ▸ setWidth_eq_zero_append 23 s.decoder.ptr), (· ▸ setWidth_eq_zero_append 23 s.codes.count), fun ho => ?_,
    fun x ho => ?_⟩
  · rw [ho, regAt_codew_index, readReg, Vector.getElem?_eq_getElem, Option.getD_some]
  · rw [regAt_of_reserved ho, readReg]
  · rw [ho, regAt_hist_symbol, readReg]

/-- Settles O46: a FIFO with a head gives it up; an empty one latches unless an error stands. -/
theorem fifoReads : Obligations.FifoReads := by
  intro s rest hb
  refine ⟨fun h => ?_, fun h => ?_⟩ <;> rw [step_of_read h (by decide) (by decide) (by simp [hb])]
  · rw [show regAt 0x050 = .outData from rfl, readReg]
    refine ⟨fun w ws ho => ?_, fun ho he => ?_, fun ho he => ?_⟩
    · rw [readOut_cons ho]
    · rw [readOut_nil ho, latchRead_of_noError he]
    · rw [readOut_nil ho, latchRead_of_error he]
  · rw [show regAt 0x054 = .symData from rfl, readReg]
    refine ⟨fun b bs ho => ?_, fun ho he => ?_, fun ho he => ?_⟩
    · rw [readSym_cons ho]
    · rw [readSym_nil ho, latchRead_of_noError he]
    · rw [readSym_nil ho, latchRead_of_error he]

/-- Settles O47: three words take the value, and every other ignores it. -/
theorem windowWrites : Obligations.WindowWrites := by
  intro s off v rest hb h hlt hmod
  rw [step_of_write h hlt hmod hb]
  refine ⟨?_, ?_, ?_, fun h1 h2 h3 => ?_⟩
  · rintro rfl
    rfl
  · rintro rfl
    rfl
  · rintro rfl
    rfl
  · have hnone : ¬ (regAt off = .cmd ∨ regAt off = .arg0 ∨ regAt off = .arg1) :=
      mt regAt_written (by simp [h1, h2, h3])
    rw [not_or, not_or] at hnone
    obtain ⟨hcmd, harg0, harg1⟩ := hnone
    rw [writeReg_ignored hcmd harg0 harg1]

end Sys2Proof.Machine
end

section
/-! Command words (spec/30_encoding.md R90 to R104): a word is an OP, a reserved field and an operand, and `decode`, `encode`
and the rows of the opcode map agree field by field. -/

namespace Sys2Proof.Machine

/-! ### The fields of a word -/

/-- How many low bits of its word a command's operand takes (R91 to R95). -/
def operandWidth : Instr → Nat
  | .nop | .clear | .errclr | .build | .gencodes | .flush | .decend | .decrst => 0
  | .cnt _ | .getcode _ | .getentry _ | .enc _ => 8
  | .cntw _ | .encw _ => 2
  | .dec _ => 5
  | .noderd _ | .nodewr _ | .setroot _ => 9

/-- The bits between the operand and OP, which every format wants to be 0. -/
def reservedField (k : Nat) (w : Word) : BitVec (24 - k) := w.extractLsb' k (24 - k)

/-- The extra condition of the command's row holds of the word (R96). -/
def indexAllowed (i : Instr) (w : Word) : Bool := !(rowOf i).notIndex511 || w.extractLsb' 0 9 != Config.noneIdx

/-- The command of the row of `i` whose operand the word carries. -/
def withOperandOf (w : Word) : Instr → Instr
  | .nop => .nop
  | .clear => .clear
  | .errclr => .errclr
  | .cnt _ => .cnt (w.extractLsb' 0 8)
  | .cntw _ => .cntw (w.extractLsb' 0 2)
  | .build => .build
  | .gencodes => .gencodes
  | .getcode _ => .getcode (w.extractLsb' 0 8)
  | .getentry _ => .getentry (w.extractLsb' 0 8)
  | .enc _ => .enc (w.extractLsb' 0 8)
  | .encw _ => .encw (w.extractLsb' 0 2)
  | .flush => .flush
  | .dec _ => .dec (w.extractLsb' 0 5)
  | .decend => .decend
  | .decrst => .decrst
  | .noderd _ => .noderd (w.extractLsb' 0 9)
  | .nodewr _ => .nodewr (w.extractLsb' 0 9)
  | .setroot _ => .setroot (w.extractLsb' 0 9)

@[simp] theorem rowOf_withOperandOf (w : Word) (i : Instr) : rowOf (withOperandOf w i) = rowOf i := by
  cases i <;> rfl

@[simp] theorem operandWidth_withOperandOf (w : Word) (i : Instr) :
    operandWidth (withOperandOf w i) = operandWidth i := by
  cases i <;> rfl

@[simp] theorem withOperandOf_withOperandOf (w w' : Word) (i : Instr) :
    withOperandOf w (withOperandOf w' i) = withOperandOf w i := by
  cases i <;> rfl

theorem wellFormed_withOperandOf (w : Word) (i : Instr) : WellFormed (withOperandOf w i) = indexAllowed i w := by
  cases i <;> rfl

theorem withOperandOf_encode (i : Instr) : withOperandOf (encode i) i = i := by
  cases i with
  | cnt | cntw | getcode | getentry | enc | encw | dec | noderd | nodewr | setroot =>
    rw [withOperandOf, encode, BitVec.extractLsb'_append_eq_right]
  | _ => rfl

theorem operand_eq_of_withOperandOf_eq {w w' : Word} {i : Instr} (h : withOperandOf w i = withOperandOf w' i) :
    w.extractLsb' 0 (operandWidth i) = w'.extractLsb' 0 (operandWidth i) := by
  cases i with
  | nop | clear | errclr | build | gencodes | flush | decend | decrst => exact Subsingleton.elim (α := BitVec 0) _ _
  | _ => injection h

/-! ### Words bit by bit -/

/-- OP and the reserved field are the bits from the operand's width on. -/
theorem op_and_reserved_eq_iff {k : Nat} {w w' : Word} (hk : k ≤ 24) :
    opOf w = opOf w' ∧ reservedField k w = reservedField k w' ↔
      ∀ j, k ≤ j → j < 32 → w.getLsbD j = w'.getLsbD j := by
  unfold opOf reservedField
  refine ⟨fun ⟨hop, hres⟩ j hkj hj => ?_, fun h => ⟨?_, ?_⟩⟩
  · by_cases h24 : j < 24
    · simpa [hkj, show j - k < 24 - k by omega] using congrArg (·.getLsbD (j - k)) hres
    · simpa [show j - 24 < 8 by omega, show 24 + (j - 24) = j by omega] using congrArg (·.getLsbD (j - 24)) hop
  · refine BitVec.eq_of_getLsbD_eq fun j hj => ?_
    simp [hj, h (24 + j) (by omega) (by omega)]
  · refine BitVec.eq_of_getLsbD_eq fun j hj => ?_
    simp [hj, h (k + j) (by omega) (by omega)]

/-- No bit of a word lies outside its three fields. -/
theorem eq_of_fields_eq {k : Nat} {w w' : Word} (hk : k ≤ 24) (hop : opOf w = opOf w')
    (hres : reservedField k w = reservedField k w') (hoperand : w.extractLsb' 0 k = w'.extractLsb' 0 k) : w = w' := by
  refine BitVec.eq_of_getLsbD_eq fun j hj => ?_
  by_cases hkj : k ≤ j
  · exact (op_and_reserved_eq_iff hk).mp ⟨hop, hres⟩ j hkj hj
  · simpa [show j < k by omega] using congrArg (·.getLsbD j) hoperand

theorem getLsbD_and_mask {k j : Nat} {w : Word} (hj : j < 32) :
    (w &&& 0xFFFFFFFF#32 <<< k).getLsbD j = (decide (k ≤ j) && w.getLsbD j) := by
  rw [show 0xFFFFFFFF#32 = BitVec.allOnes 32 from rfl, BitVec.getLsbD_and, BitVec.getLsbD_shiftLeft,
    BitVec.getLsbD_allOnes, decide_eq_true hj, decide_eq_true (show j - k < 32 by omega), Bool.and_comm]
  simp [← decide_not]

theorem and_mask_eq_iff {k : Nat} {w w' : Word} :
    w &&& 0xFFFFFFFF#32 <<< k = w' &&& 0xFFFFFFFF#32 <<< k ↔ ∀ j, k ≤ j → j < 32 → w.getLsbD j = w'.getLsbD j := by
  refine ⟨fun h j hk hj => ?_, fun h => BitVec.eq_of_getLsbD_eq fun j hj => ?_⟩
  · simpa only [getLsbD_and_mask hj, hk, decide_true, Bool.true_and] using congrArg (·.getLsbD j) h
  · rw [getLsbD_and_mask hj, getLsbD_and_mask hj]
    by_cases hk : k ≤ j
    · rw [h j hk hj]
    · rw [decide_eq_false hk, Bool.false_and, Bool.false_and]

/-! ### The rows of the opcode map -/

/-- A row does not depend on its command's operand: what holds of the sample of every row holds of every command's row. -/
theorem row_of_sample {P : OpRow → Nat → Prop} (h : ∀ i ∈ rowSamples, P (rowOf i) (operandWidth i)) (i : Instr) :
    P (rowOf i) (operandWidth i) := by
  have hmem : withOperandOf 0 i ∈ rowSamples := by cases i <;> simp [withOperandOf, rowSamples]
  simpa using h _ hmem

theorem rowOf_mem_opcodeMap (i : Instr) : rowOf i ∈ opcodeMap :=
  row_of_sample (P := fun r _ => r ∈ opcodeMap) (by decide) i

theorem operandWidth_le (i : Instr) : operandWidth i ≤ 24 := row_of_sample (P := fun _ k => k ≤ 24) (by decide) i

theorem mask_rowOf (i : Instr) : (rowOf i).mask = 0xFFFFFFFF#32 <<< operandWidth i :=
  row_of_sample (P := fun r k => r.mask = 0xFFFFFFFF#32 <<< k) (by decide) i

theorem pattern_and_mask (i : Instr) : (rowOf i).pattern &&& (rowOf i).mask = (rowOf i).pattern :=
  row_of_sample (P := fun r _ => r.pattern &&& r.mask = r.pattern) (by decide) i

theorem reservedField_pattern (i : Instr) : reservedField (operandWidth i) (rowOf i).pattern = 0 :=
  row_of_sample (P := fun r k => reservedField k r.pattern = 0) (by decide) i

/-- A word has the row's fixed bits when it has the row's OP and its reserved field is 0. -/
theorem and_mask_eq_pattern_iff {i : Instr} {w : Word} :
    w &&& (rowOf i).mask = (rowOf i).pattern ↔
      opOf w = opOf (rowOf i).pattern ∧ reservedField (operandWidth i) w = 0 := by
  rw [← reservedField_pattern i, op_and_reserved_eq_iff (operandWidth_le i), ← and_mask_eq_iff, ← mask_rowOf,
    pattern_and_mask]

theorem selects_rowOf_iff {i : Instr} {w : Word} :
    (rowOf i).selects w = true ↔
      (opOf w = opOf (rowOf i).pattern ∧ reservedField (operandWidth i) w = 0) ∧ indexAllowed i w = true := by
  rw [OpRow.selects, Bool.and_eq_true, beq_iff_eq, and_mask_eq_pattern_iff, indexAllowed]

/-- The word of a well-formed command selects the command's row. -/
theorem selects_encode : ∀ {i : Instr}, WellFormed i = true → (rowOf i).selects (encode i) = true
  | .nop, h => (Laws.RowBits.nop h).2
  | .clear, h => (Laws.RowBits.clear h).2
  | .errclr, h => (Laws.RowBits.errclr h).2
  | .cnt x, h => (Laws.RowBits.cnt x h).2
  | .cntw x, h => (Laws.RowBits.cntw x h).2
  | .build, h => (Laws.RowBits.build h).2
  | .gencodes, h => (Laws.RowBits.gencodes h).2
  | .getcode x, h => (Laws.RowBits.getcode x h).2
  | .getentry x, h => (Laws.RowBits.getentry x h).2
  | .enc x, h => (Laws.RowBits.enc x h).2
  | .encw x, h => (Laws.RowBits.encw x h).2
  | .flush, h => (Laws.RowBits.flush h).2
  | .dec x, h => (Laws.RowBits.dec x h).2
  | .decend, h => (Laws.RowBits.decend h).2
  | .decrst, h => (Laws.RowBits.decrst h).2
  | .noderd x, h => (Laws.RowBits.noderd x h).2
  | .nodewr x, h => (Laws.RowBits.nodewr x h).2
  | .setroot x, h => (Laws.RowBits.setroot x h).2

/-! ### The decoder, said once -/

/-- A word with a row's OP decodes by that row's format (R97, R98). -/
theorem decode_of_op {i : Instr} {w : Word} (h : opOf w = opOf (rowOf i).pattern) :
    decode w = if reservedField (operandWidth i) w = 0 then
        if indexAllowed i w then .ok (withOperandOf w i) else .error .index511
      else .error .reservedBits := by
  rw [decode, h]
  cases i with
  | noderd x | nodewr x => simp [rowOf, opOf, formatI510, indexAllowed, reservedField, operandWidth, withOperandOf]
  | _ => dsimp only [rowOf]; rfl

/-- Every OP is a row's, or the word is ILLEGAL for it. -/
theorem op_listed_or_unlistedOp (w : Word) :
    (∃ i, opOf w = opOf (rowOf i).pattern) ∨ decode w = .error .unlistedOp := by
  unfold decode
  split
  exacts [.inl ⟨.nop, ‹_›⟩, .inl ⟨.clear, ‹_›⟩, .inl ⟨.errclr, ‹_›⟩, .inl ⟨.cnt 0, ‹_›⟩, .inl ⟨.cntw 0, ‹_›⟩,
    .inl ⟨.build, ‹_›⟩, .inl ⟨.gencodes, ‹_›⟩, .inl ⟨.getcode 0, ‹_›⟩, .inl ⟨.getentry 0, ‹_›⟩, .inl ⟨.enc 0, ‹_›⟩,
    .inl ⟨.encw 0, ‹_›⟩, .inl ⟨.flush, ‹_›⟩, .inl ⟨.dec 0, ‹_›⟩, .inl ⟨.decend, ‹_›⟩, .inl ⟨.decrst, ‹_›⟩,
    .inl ⟨.noderd 0, ‹_›⟩, .inl ⟨.nodewr 0, ‹_›⟩, .inl ⟨.setroot 0, ‹_›⟩, .inr rfl]

theorem decode_of_selects {i : Instr} {w : Word} (h : (rowOf i).selects w = true) :
    decode w = .ok (withOperandOf w i) := by
  obtain ⟨⟨hop, hres⟩, hindex⟩ := selects_rowOf_iff.mp h
  rw [decode_of_op hop, if_pos hres, if_pos hindex]

/-- A word decodes to a command exactly when it selects the command's row and carries the command's operand. -/
theorem decode_eq_ok_iff {i : Instr} {w : Word} :
    decode w = .ok i ↔ (rowOf i).selects w = true ∧ withOperandOf w i = i := by
  refine ⟨fun h => ?_, fun ⟨hsel, hi⟩ => by rw [decode_of_selects hsel, hi]⟩
  rcases op_listed_or_unlistedOp w with ⟨j, hop⟩ | hunlisted
  · rw [decode_of_op hop] at h
    split at h
    · split at h
      · cases h
        simpa using selects_rowOf_iff.mpr ⟨⟨hop, ‹_›⟩, ‹_›⟩
      · cases h
    · cases h
  · rw [hunlisted] at h
    cases h

/-- Two words with one decoding are equal: the row fixes OP and the reserved field, and the command fixes the operand. -/
theorem decode_ok_injective {w w' : Word} {i : Instr} (h : decode w = .ok i) (h' : decode w' = .ok i) : w = w' := by
  obtain ⟨hsel, hi⟩ := decode_eq_ok_iff.mp h
  obtain ⟨hsel', hi'⟩ := decode_eq_ok_iff.mp h'
  obtain ⟨⟨hop, hres⟩, -⟩ := selects_rowOf_iff.mp hsel
  obtain ⟨⟨hop', hres'⟩, -⟩ := selects_rowOf_iff.mp hsel'
  exact eq_of_fields_eq (operandWidth_le i) (hop.trans hop'.symm) (hres.trans hres'.symm)
    (operand_eq_of_withOperandOf_eq (hi.trans hi'.symm))

theorem decode_encode {i : Instr} (h : WellFormed i = true) : decode (encode i) = .ok i :=
  decode_eq_ok_iff.mpr ⟨selects_encode h, withOperandOf_encode i⟩

theorem wellFormed_of_decode {w : Word} {i : Instr} (h : decode w = .ok i) : WellFormed i = true := by
  obtain ⟨hsel, hi⟩ := decode_eq_ok_iff.mp h
  rw [← hi, wellFormed_withOperandOf]
  exact (selects_rowOf_iff.mp hsel).2

theorem exists_rowOf_of_mem {r : OpRow} (h : r ∈ opcodeMap) : ∃ i, rowOf i = r := by
  obtain ⟨i, -, hi⟩ := List.mem_map.mp h
  exact ⟨i, hi⟩

/-! ### The obligations -/

/-- Settles O1: the word selects the command's row and carries its operand. -/
theorem decodeOfEncode : Obligations.DecodeOfEncode := fun _ => decode_encode

/-- Settles O2: the word and the command's own word decode to the same command. -/
theorem encodeOfDecode : Obligations.EncodeOfDecode := fun _ _ h =>
  have hwf := wellFormed_of_decode h
  ⟨decode_ok_injective (decode_encode hwf) h, hwf⟩

/-- Settles O3: a word has one decoding, and it is a command of the row the word selects. -/
theorem decodeSelectsRow : Obligations.DecodeSelectsRow := by
  have hrow : ∀ (w : Word) (r : OpRow), r ∈ opcodeMap → r.selects w = true → ∃ i, decode w = .ok i ∧ rowOf i = r := by
    intro w r hr hsel
    obtain ⟨i, rfl⟩ := exists_rowOf_of_mem hr
    exact ⟨_, decode_of_selects hsel, rowOf_withOperandOf w i⟩
  refine ⟨fun w i h => ⟨rowOf_mem_opcodeMap i, (decode_eq_ok_iff.mp h).1⟩, hrow, fun w r r' hr hr' hsel hsel' => ?_,
    fun s hnone he => ?_⟩
  · obtain ⟨i, hd, rfl⟩ := hrow w r hr hsel
    obtain ⟨i', hd', rfl⟩ := hrow w r' hr' hsel'
    rw [Except.ok.inj (hd.symm.trans hd')]
  · cases hd : decode s.port.pending with
    | ok i => simpa [hnone _ (rowOf_mem_opcodeMap i)] using (decode_eq_ok_iff.mp hd).1
    | error e => exact completeStep_of_illegal he hd

/-- Settles O4, clause by clause: the OPs of the rows are the listed ones, and a mismatch under a row's OP lies in the
reserved field. -/
theorem illegalWordLatches : Obligations.IllegalWordLatches := by
  refine ⟨fun w hop => ?_, fun w r hr hop hne => ?_, by decide, by decide, fun s w he => writeCmd_of_accepted (.inl he),
    fun s e hd he => completeStep_of_illegal he hd, fun s idx hl he => ?_⟩
  · refine (op_listed_or_unlistedOp w).resolve_left fun ⟨i, hi⟩ => hop ?_
    rw [hi]
    exact row_of_sample (P := fun r _ => (opOf r.pattern).toNat ∈ [0x00, 0x01, 0x02, 0x10, 0x11, 0x20, 0x30, 0x31,
      0x32, 0x40, 0x41, 0x42, 0x50, 0x51, 0x52, 0x60, 0x61, 0x62]) (by decide) i
  · obtain ⟨i, rfl⟩ := exists_rowOf_of_mem hr
    rw [decode_of_op hop, if_neg fun hres => hne (and_mask_eq_pattern_iff.mpr ⟨hop, hres⟩)]
  · have hraise : nodewrBody idx s = .raised .illegalCmd := by simp [nodewrBody, hl]
    exact complete_of_raised rfl hraise he

/-- Settles O5, word by word. -/
theorem workedEncodings : Obligations.WorkedEncodings := by
  unfold Obligations.WorkedEncodings
  decide

end Sys2Proof.Machine
end

section
/-! The frequency counter (spec/40_frequency_counter.md R111 to R113): a count adds one to one histogram entry and to TOTAL,
and a list of counts runs to its end exactly when TOTAL has room for all of it. -/

namespace Sys2Proof.Machine

/-! ### Illegal words -/

theorem rejects_of_decode_error {w : Word} {e : Illegal} (h : decode w = .error e) : Rejects w :=
  ⟨⟨e, h⟩, fun _ hw he => completeStep_of_illegal he (hw ▸ h)⟩

/-- A word with the OP of a row that allows every index is the row's command, or ILLEGAL for its reserved field (R98). -/
theorem decode_or_rejects_of_op {i : Instr} {w : Word} (hop : opOf w = opOf (rowOf i).pattern)
    (hindex : (rowOf i).notIndex511 = false) :
    if reservedField (operandWidth i) w = 0 then decode w = .ok (withOperandOf w i) else Rejects w := by
  have hdecode := decode_of_op hop
  have hallowed : indexAllowed i w = true := by simp [indexAllowed, hindex]
  split
  · rw [hdecode, if_pos ‹_›, if_pos hallowed]
  · exact rejects_of_decode_error (hdecode.trans (if_neg ‹_›))

/-! ### One count -/

/-- While TOTAL is below 2^32 - 1 so is every entry, because no entry exceeds TOTAL (R111). -/
theorem hist_ne_max {c : Counter} (h : CounterExact c) (ht : c.total ≠ 0xFFFFFFFF#32) (sym : Byte) :
    c.hist[sym.toNat] ≠ 0xFFFFFFFF#32 := by
  have hle := hist_le_total h sym
  bv_omega

theorem countOne_of_room {sym : Byte} {c : Counter} (h : CounterExact c) (ht : c.total ≠ 0xFFFFFFFF#32) :
    countOne sym c
      = .done { hist := c.hist.set sym.toNat (c.hist[sym.toNat] + 1#32), total := c.total + 1#32 } :=
  countOne_done.mpr ⟨ht, hist_ne_max h ht sym, rfl⟩

theorem countOne_total {sym : Byte} {c c' : Counter} (h : countOne sym c = .done c') :
    c'.total.toNat = c.total.toNat + 1 := by
  obtain ⟨ht, -, rfl⟩ := countOne_done.mp h
  bv_omega

theorem countOne_hist {sym : Byte} {c c' : Counter} (h : countOne sym c = .done c') (v : Byte) :
    (c'.hist[v.toNat]).toNat = (c.hist[v.toNat]).toNat + [sym].count v := by
  obtain ⟨-, hh, rfl⟩ := countOne_done.mp h
  by_cases hv : sym = v
  · subst hv
    simp only [Vector.getElem_set_self, List.count_singleton_self]
    bv_omega
  · simp [Vector.getElem_set_ne _ _ (mt BitVec.eq_of_toNat_eq hv), hv]

/-! ### A list of counts -/

/-- With room for every symbol each is counted, and the counts add up. -/
theorem forEach_countOne_of_room {syms : List Byte} {c : Counter} (h : CounterExact c)
    (hroom : c.total.toNat + syms.length < 2 ^ 32) :
    ∃ c', forEach countOne syms c = .done c' ∧ c'.total.toNat = c.total.toNat + syms.length
      ∧ ∀ v : Byte, (c'.hist[v.toNat]).toNat = (c.hist[v.toNat]).toNat + syms.count v := by
  induction syms generalizing c with
  | nil => exact ⟨c, rfl, rfl, fun _ => rfl⟩
  | cons x xs ih =>
    rw [List.length_cons] at hroom
    have hx := countOne_of_room (sym := x) h (by bv_omega)
    have htotal := countOne_total hx
    obtain ⟨c', hxs, htotal', hhist'⟩ := ih (countOne_keeps_exact h hx) (by omega)
    refine ⟨c', ?_, ?_, fun v => ?_⟩
    · rw [forEach_cons, hx, Body.andThen_done, hxs]
    · rw [htotal', htotal, List.length_cons]
      omega
    · rw [hhist', countOne_hist hx, Nat.add_assoc, ← List.count_append, List.singleton_append]

/-- Without room for every symbol one of them finds TOTAL at 2^32 - 1. -/
theorem forEach_countOne_of_no_room {syms : List Byte} {c : Counter} (h : CounterExact c)
    (hroom : 2 ^ 32 ≤ c.total.toNat + syms.length) : forEach countOne syms c = .raised .countOverflow := by
  induction syms generalizing c with
  | nil => exact absurd hroom (Nat.not_le.mpr c.total.isLt)
  | cons x xs ih =>
    by_cases ht : c.total = 0xFFFFFFFF#32
    · rw [forEach_cons, countOne_raised.mpr ⟨ht, rfl⟩, Body.andThen_raised]
    · have hx := countOne_of_room (sym := x) h ht
      rw [forEach_cons, hx, Body.andThen_done]
      refine ih (countOne_keeps_exact h hx) ?_
      rw [countOne_total hx]
      rw [List.length_cons] at hroom
      omega

/-! ### The commands -/

theorem countBody_of_done {syms : List Byte} {s : State} {c : Counter}
    (h : forEach countOne syms s.counter = .done c) : countBody syms s = .done { s with counter := c } := by
  rw [countBody, h, Body.andThen_done]

theorem countBody_of_raised {syms : List Byte} {s : State} {e : ErrCode}
    (h : forEach countOne syms s.counter = .raised e) : countBody syms s = .raised e := by
  rw [countBody, h, Body.andThen_raised]

theorem exec_cnt_of_done {sym : Byte} {s : State} {c : Counter} (h : countOne sym s.counter = .done c) :
    exec (.cnt sym) s = .next (clearBusy { s with counter := c }) :=
  complete_of_done rfl (countBody_of_done (by rwa [forEach_singleton]))

/-- One CNT per symbol is the loop over the symbols: BUSY is all the completions in between write besides the counter. -/
theorem execAll_cnt_of_done {x : Byte} {xs : List Byte} {s : State} {c : Counter}
    (h : forEach countOne (x :: xs) s.counter = .done c) :
    execAll ((x :: xs).map .cnt) s = .next (clearBusy { s with counter := c }) := by
  obtain ⟨c', hx, hxs⟩ := Body.andThen_eq_done.mp h
  rw [List.map_cons, execAll, exec_cnt_of_done hx]
  cases xs with
  | nil => cases hxs; rfl
  | cons y ys => exact execAll_cnt_of_done (s := clearBusy { s with counter := c' }) hxs

theorem length_lanes (w : Word) (nb : BitVec 2) : (lanes w nb).length = nb.toNat + 1 := by simp [lanes]

/-- Settles O10: no entry is at its maximum below TOTAL's, so `countOne` counts exactly when TOTAL has room. -/
theorem cntCountsOneSymbol : Obligations.CntCountsOneSymbol := by
  refine ⟨fun s sym hexact => ⟨fun ht => ⟨hist_ne_max hexact ht sym, ?_⟩, fun ht he => ?_⟩,
    fun w hop => decode_or_rejects_of_op (i := .cnt 0) hop rfl⟩
  · exact exec_cnt_of_done (countOne_of_room hexact ht)
  · refine complete_of_raised rfl (countBody_of_raised ?_) he
    rw [forEach_singleton, countOne_raised.mpr ⟨ht, rfl⟩]

/-- Settles O11: the loop over the lanes runs to its end exactly when TOTAL has room for them, and is one CNT per lane. -/
theorem cntwCountsLanes : Obligations.CntwCountsLanes := by
  refine ⟨fun s nb hexact => ⟨fun hroom => ?_, fun hroom he => ?_⟩,
    fun w hop => decode_or_rejects_of_op (i := .cntw 0) hop rfl⟩
  · obtain ⟨c, hc, htotal, hhist⟩ := forEach_countOne_of_room (syms := lanes s.port.arg0 nb) hexact
      (by rw [length_lanes]; omega)
    have hexec : exec (.cntw nb) s = .next (clearBusy { s with counter := c }) :=
      complete_of_done rfl (countBody_of_done hc)
    refine ⟨⟨c, hexec, ?_, hhist⟩, ?_⟩
    · rw [htotal, length_lanes, Nat.add_assoc]
    · obtain ⟨x, xs, hlanes⟩ := List.exists_cons_of_length_eq_add_one (length_lanes s.port.arg0 nb)
      rw [hlanes] at hc ⊢
      rw [hexec, execAll_cnt_of_done hc]
  · exact complete_of_raised rfl (countBody_of_raised (forEach_countOne_of_no_room hexact
      (by rw [length_lanes]; omega))) he

end Sys2Proof.Machine
end

section
/-! The order of the priority queue (spec/41_priority_queue.md R120 to R130): the heap invariant of each operation, the
least element at the top, and the merge as one on a set of indices. -/

namespace Sys2Proof.Machine

/-! ### The key order -/

/-- The key (FREQ, index) of an element as one number (R120). -/
def keyOf (a : Arena) (i : NodeIdx) : Nat := (freqAt a i).toNat * 512 + i.toNat

theorem less_iff_keyOf {a : Arena} {i j : NodeIdx} : less a i j = true ↔ keyOf a i < keyOf a j := by
  have hi := i.isLt
  have hj := j.isLt
  simp only [less, keyOf, Bool.or_eq_true, Bool.and_eq_true, decide_eq_true_eq, beq_iff_eq, BitVec.lt_def,
    ← BitVec.toNat_inj]
  omega

theorem less_eq_false_iff_keyOf {a : Arena} {i j : NodeIdx} : less a i j = false ↔ keyOf a j ≤ keyOf a i := by
  rw [← Bool.not_eq_true, less_iff_keyOf, Nat.not_lt]

theorem keyOf_injective (a : Arena) : Function.Injective (keyOf a) := fun i j h => by
  have hi := i.isLt
  have hj := j.isLt
  unfold keyOf at h
  exact BitVec.eq_of_toNat_eq (by omega)

theorem keyOf_set_ne {a : Arena} {n : Nat} {i : NodeIdx} {e : Node} (h : i.toNat ≠ n) :
    keyOf (a.setIfInBounds n e) i = keyOf a i := by
  rw [keyOf, freqAt_set_ne h, keyOf]

/-! ### Keys in the heap -/

/-- The key of HEAP[j]. -/
def keyAt (a : Arena) (c : HeapCells) (j : Nat) : Nat := keyOf a (cell c j)

theorem cell_set {c : HeapCells} {p : Nat} (i : NodeIdx) (j : Nat) (hp : p < 256) :
    cell (c.setIfInBounds p i) j = if j = p then i else cell c j := by
  unfold cell
  rw [Vector.getElem?_setIfInBounds]
  simp only [eq_comm (a := p), hp, if_true]
  split <;> rfl

theorem keyAt_set_ne {a : Arena} {c : HeapCells} {p j : Nat} {i : NodeIdx} (hp : p < 256) (h : j ≠ p) :
    keyAt a (c.setIfInBounds p i) j = keyAt a c j := by
  rw [keyAt, cell_set i j hp, if_neg h, keyAt]

theorem keyAt_swapCells_right {a : Arena} {c : HeapCells} {p m : Nat} (hm : m < 256) :
    keyAt a (swapCells c p m) m = keyAt a c p := by
  rw [keyAt, swapCells, cell_set _ _ hm, if_pos rfl, keyAt]

theorem keyAt_swapCells_left {a : Arena} {c : HeapCells} {p m : Nat} (hp : p < 256) (hm : m < 256) :
    keyAt a (swapCells c p m) p = keyAt a c m := by
  rw [keyAt, swapCells, cell_set _ _ hm, cell_set _ _ hp, if_pos rfl]
  split
  · rename_i h
    rw [h, keyAt]
  · rfl

theorem keyAt_swapCells_ne {a : Arena} {c : HeapCells} {p m j : Nat} (hp : p < 256) (hm : m < 256) (hjp : j ≠ p)
    (hjm : j ≠ m) : keyAt a (swapCells c p m) j = keyAt a c j := by
  rw [keyAt, swapCells, cell_set _ _ hm, if_neg hjm, cell_set _ _ hp, if_neg hjp, keyAt]

/-! ### The invariant, whole and with a gap -/

/-- The order of R122 at every position whose parent is k or later. -/
def OrderedFrom (a : Arena) (n k : Nat) (c : HeapCells) : Prop :=
  ∀ j, 1 ≤ j → j < n → k ≤ (j - 1) / 2 → keyAt a c ((j - 1) / 2) ≤ keyAt a c j

theorem heapOrdered_iff {a : Arena} {h : Heap} :
    HeapOrdered a h ↔ h.count.toNat ≤ 256 ∧ OrderedFrom a h.count.toNat 0 h.cells := by
  simp only [HeapOrdered, OrderedFrom, keyAt, less_eq_false_iff_keyOf, Nat.zero_le, true_imp_iff]

/-- What sift_down works on (R123): the order may fail between p and its children, and these stand below p's parent. -/
structure GapBelow (a : Arena) (n k p : Nat) (c : HeapCells) : Prop where
  order : ∀ j, 1 ≤ j → j < n → k ≤ (j - 1) / 2 → (j - 1) / 2 ≠ p → keyAt a c ((j - 1) / 2) ≤ keyAt a c j
  across : ∀ j, 1 ≤ p → k ≤ (p - 1) / 2 → 1 ≤ j → j < n → (j - 1) / 2 = p → keyAt a c ((p - 1) / 2) ≤ keyAt a c j

/-- What sift_up works on (R124): the order may fail between p and its parent, which stands above p's children. -/
structure GapAbove (a : Arena) (n p : Nat) (c : HeapCells) : Prop where
  order : ∀ j, 1 ≤ j → j < n → j ≠ p → keyAt a c ((j - 1) / 2) ≤ keyAt a c j
  across : ∀ j, 1 ≤ p → 1 ≤ j → j < n → (j - 1) / 2 = p → keyAt a c ((p - 1) / 2) ≤ keyAt a c j

/-! ### sift_down -/

/-- sift_down moves to a position of the least key among p and its children (R123). -/
theorem keyAt_smallestChild_le {a : Arena} {n : Nat} {c : HeapCells} {p : Nat} :
    keyAt a c (smallestChild a n c p) ≤ keyAt a c p
    ∧ ∀ j, 1 ≤ j → j < n → (j - 1) / 2 = p → keyAt a c (smallestChild a n c p) ≤ keyAt a c j := by
  have hchild : ∀ j, 1 ≤ j → (j - 1) / 2 = p → j = 2 * p + 1 ∨ j = 2 * p + 2 := fun j _ _ => by omega
  unfold smallestChild
  simp only [Bool.and_eq_true, decide_eq_true_eq, less_iff_keyOf, keyAt]
  refine ⟨by split_ifs <;> omega, fun j h1 hn hj => ?_⟩
  rcases hchild j h1 hj with rfl | rfl <;> split_ifs <;> omega

theorem parent_smallestChild {a : Arena} {n : Nat} {c : HeapCells} {p : Nat} (h : smallestChild a n c p ≠ p) :
    (smallestChild a n c p - 1) / 2 = p := by
  unfold smallestChild at h ⊢
  dsimp only at h ⊢
  split_ifs at h ⊢ <;> omega

/-- A turn of sift_down moves the gap to the child it swaps with. -/
theorem GapBelow.swap {a : Arena} {n k p m : Nat} {c : HeapCells} (hg : GapBelow a n k p c) (hn : n ≤ 256) (hk : k ≤ p)
    (hpm : p < m) (hmn : m < n) (hparent : (m - 1) / 2 = p) (hmp : keyAt a c m ≤ keyAt a c p)
    (hleast : ∀ j, 1 ≤ j → j < n → (j - 1) / 2 = p → keyAt a c m ≤ keyAt a c j) :
    GapBelow a n k m (swapCells c p m) := by
  have hp : p < 256 := by omega
  have hm : m < 256 := by omega
  constructor
  · intro j h1 hjn hkj hjm
    by_cases hj : j = m
    · rwa [hj, hparent, keyAt_swapCells_left hp hm, keyAt_swapCells_right hm]
    · by_cases hjp : j = p
      · subst hjp
        rw [keyAt_swapCells_left hp hm, keyAt_swapCells_ne hp hm (by omega) hjm]
        exact hg.across m h1 hkj (by omega) hmn hparent
      · rw [keyAt_swapCells_ne hp hm hjp hj]
        by_cases hsib : (j - 1) / 2 = p
        · rw [hsib, keyAt_swapCells_left hp hm]
          exact hleast j h1 hjn hsib
        · rw [keyAt_swapCells_ne hp hm hsib hjm]
          exact hg.order j h1 hjn hkj hsib
  · intro j _ _ h1 hjn hjm
    rw [hparent, keyAt_swapCells_left hp hm, keyAt_swapCells_ne hp hm (by omega) (by omega), ← hjm]
    exact hg.order j h1 hjn (by omega) (by omega)

/-- sift_down closes the gap (R123). -/
theorem GapBelow.orderedFrom_siftDown {a : Arena} {n k p fuel : Nat} {c : HeapCells} (hg : GapBelow a n k p c)
    (hn : n ≤ 256) (hk : k ≤ p) (hfuel : n ≤ p + fuel) : OrderedFrom a n k (siftDown a n fuel p c) := by
  induction fuel generalizing p c with
  | zero => exact fun j h1 hjn hkj => hg.order j h1 hjn hkj (by omega)
  | succ fuel ih =>
    obtain ⟨hmp, hleast⟩ := keyAt_smallestChild_le (a := a) (n := n) (c := c) (p := p)
    rw [siftDown]
    split
    · rename_i hstay
      rw [hstay] at hleast
      intro j h1 hjn hkj
      by_cases hj : (j - 1) / 2 = p
      · rw [hj]
        exact hleast j h1 hjn hj
      · exact hg.order j h1 hjn hkj hj
    · rename_i hmove
      obtain ⟨hlt, hin⟩ := smallestChild_lt hmove
      exact ih (hg.swap hn hk hlt hin (parent_smallestChild hmove) hmp hleast) (by omega) (by omega)

theorem OrderedFrom.siftAll_ordered {a : Arena} {n k : Nat} {c : HeapCells} (ho : OrderedFrom a n k c) (hn : n ≤ 256) :
    OrderedFrom a n 0 (siftAll a n k c) := by
  induction k generalizing c with
  | zero => exact ho
  | succ k ih =>
    have hgap : GapBelow a n k k c :=
      ⟨fun j h1 hjn hkj hj => ho j h1 hjn (by omega), fun j h1 hkk => by omega⟩
    exact ih (hgap.orderedFrom_siftDown hn le_rfl (by omega))

/-! ### sift_up -/

/-- A turn of sift_up moves the gap to the parent it swaps with. -/
theorem GapAbove.swap {a : Arena} {n p : Nat} {c : HeapCells} (hg : GapAbove a n p c) (hn : n ≤ 256) (h0 : p ≠ 0)
    (hpn : p < n) (hlt : keyAt a c p < keyAt a c ((p - 1) / 2)) :
    GapAbove a n ((p - 1) / 2) (swapCells c p ((p - 1) / 2)) := by
  obtain ⟨q, hq⟩ : ∃ q, (p - 1) / 2 = q := ⟨_, rfl⟩
  obtain ⟨horder, hacross⟩ := hg
  rw [hq] at hlt hacross ⊢
  have hp : p < 256 := by omega
  have hq256 : q < 256 := by omega
  constructor
  · intro j h1 hjn hjq
    by_cases hj : j = p
    · rw [hj, hq, keyAt_swapCells_left hp hq256, keyAt_swapCells_right hq256]
      exact hlt.le
    · rw [keyAt_swapCells_ne hp hq256 hj hjq]
      by_cases hchild : (j - 1) / 2 = p
      · rw [hchild, keyAt_swapCells_left hp hq256]
        exact hacross j (by omega) h1 hjn hchild
      · have hedge := horder j h1 hjn hj
        by_cases hsib : (j - 1) / 2 = q
        · rw [hsib] at hedge ⊢
          rw [keyAt_swapCells_right hq256]
          exact hlt.le.trans hedge
        · rwa [keyAt_swapCells_ne hp hq256 hchild hsib]
  · intro j hq1 h1 hjn hjq
    have habove := horder q hq1 (by omega) (by omega)
    rw [keyAt_swapCells_ne hp hq256 (by omega) (by omega : (q - 1) / 2 ≠ q)]
    by_cases hj : j = p
    · rwa [hj, keyAt_swapCells_left hp hq256]
    · have hedge := horder j h1 hjn hj
      rw [hjq] at hedge
      rw [keyAt_swapCells_ne hp hq256 hj (by omega)]
      exact habove.trans hedge

/-- sift_up closes the gap (R124). -/
theorem GapAbove.orderedFrom_siftUp {a : Arena} {n p fuel : Nat} {c : HeapCells} (hg : GapAbove a n p c)
    (hn : n ≤ 256) (hpn : p < n) (hfuel : p ≤ fuel) : OrderedFrom a n 0 (siftUp a fuel p c) := by
  induction fuel generalizing p c with
  | zero => exact fun j h1 hjn _ => hg.order j h1 hjn (by omega)
  | succ fuel ih =>
    rw [siftUp]
    split
    · exact fun j h1 hjn _ => hg.order j h1 hjn (by omega)
    · split
      · rename_i h0 hless
        exact ih (hg.swap hn h0 hpn (less_iff_keyOf.mp hless)) (by omega) (by omega)
      · rename_i h0 hnot
        intro j h1 hjn _
        by_cases hj : j = p
        · rw [hj]
          exact less_eq_false_iff_keyOf.mp (Bool.eq_false_of_not_eq_true hnot)
        · exact hg.order j h1 hjn hj

/-! ### The three operations keep the invariant -/

theorem heapify_ordered {a : Arena} {is : List NodeIdx} {h : Heap} (hl : is.length ≤ 256) :
    HeapOrdered a (heapify a is h) := by
  rw [heapOrdered_iff, heapify_count hl]
  have hleaves : OrderedFrom a is.length (is.length / 2) (fillCells 0 is h.cells) := fun j _ _ _ => by omega
  exact ⟨hl, hleaves.siftAll_ordered hl⟩

theorem push_ordered {a : Arena} {i : NodeIdx} {h h' : Heap} (ho : HeapOrdered a h) (hp : push a i h = .done h') :
    HeapOrdered a h' := by
  obtain ⟨hlt, -⟩ := push_done hp
  obtain ⟨hcount, -⟩ := heapElems_push hp
  obtain ⟨-, ho⟩ := heapOrdered_iff.mp ho
  rw [push, if_pos hlt] at hp
  rw [heapOrdered_iff, hcount]
  cases hp
  have hgap : GapAbove a (h.count.toNat + 1) h.count.toNat (h.cells.setIfInBounds h.count.toNat i) :=
    ⟨fun j h1 hjn hj => by
      rw [keyAt_set_ne hlt (by omega), keyAt_set_ne hlt hj]
      exact ho j h1 (by omega) (Nat.zero_le _), fun j _ h1 hjn hj => by omega⟩
  exact ⟨by omega, hgap.orderedFrom_siftUp (by omega) (by omega) (by omega)⟩

theorem popMin_ordered {a : Arena} {h h' : Heap} {i : NodeIdx} (ho : HeapOrdered a h)
    (hp : popMin a h = .done (i, h')) : HeapOrdered a h' := by
  obtain ⟨hle, ho⟩ := heapOrdered_iff.mp ho
  obtain ⟨hcount, -⟩ := heapElems_popMin hle hp
  rw [heapOrdered_iff]
  refine ⟨by omega, ?_⟩
  unfold popMin at hp
  split at hp
  · cases hp
  · split at hp
    · cases hp
      exact fun j _ hj => absurd hj (Nat.not_lt_zero j)
    · cases hp
      replace hcount : h.count.toNat = (h.count - 1#9).toNat + 1 := hcount
      have hgap : GapBelow a (h.count - 1#9).toNat 0 0
          (h.cells.setIfInBounds 0 (cell h.cells (h.count - 1#9).toNat)) :=
        ⟨fun j h1 hjn _ hj => by
          rw [keyAt_set_ne (by decide) hj, keyAt_set_ne (by decide) (by omega)]
          exact ho j h1 (by omega) (Nat.zero_le _), fun j h1 => by omega⟩
      exact hgap.orderedFrom_siftDown (by omega) le_rfl (by omega)

/-! ### The top is the least element -/

theorem OrderedFrom.keyAt_zero_le {a : Arena} {n : Nat} {c : HeapCells} (ho : OrderedFrom a n 0 c) {j : Nat}
    (hj : j < n) : keyAt a c 0 ≤ keyAt a c j := by
  induction j using Nat.strong_induction_on with
  | _ j ih =>
    rcases Nat.eq_zero_or_pos j with rfl | h1
    · exact le_rfl
    · exact (ih _ (by omega) (by omega)).trans (ho j h1 hj (Nat.zero_le _))

theorem mem_heapElems_iff {h : Heap} {i : NodeIdx} (hle : h.count.toNat ≤ 256) :
    i ∈ heapElems h ↔ ∃ j, j < h.count.toNat ∧ cell h.cells j = i := by
  simp only [heapElems, List.mem_take_iff_getElem, Vector.length_toList, min_eq_left hle]
  refine exists_congr fun j => ⟨fun ⟨hj, hi⟩ => ⟨hj, ?_⟩, fun ⟨hj, hi⟩ => ⟨hj, ?_⟩⟩
  · rwa [cell_eq_getElem h.cells (by omega)]
  · rwa [cell_eq_getElem h.cells (by omega)] at hi

/-- pop_min answers an element of the least key (R121, R127). -/
theorem popMin_keyOf_le {a : Arena} {h h' : Heap} {i j : NodeIdx} (ho : HeapOrdered a h)
    (hp : popMin a h = .done (i, h')) (hj : j ∈ heapElems h) : keyOf a i ≤ keyOf a j := by
  obtain ⟨-, rfl, -⟩ := popMin_done hp
  obtain ⟨hle, ho⟩ := heapOrdered_iff.mp ho
  obtain ⟨k, hk, rfl⟩ := (mem_heapElems_iff hle).mp hj
  exact ho.keyAt_zero_le hk

/-- Settles O12: sift_down closes a gap below a position, sift_up one above it, and both only move elements. -/
theorem heapifyAndPushKeepOrder : Obligations.HeapifyAndPushKeepOrder := by
  refine ⟨fun a is h hl _ => ⟨heapify_ordered hl, heapElems_heapify hl⟩,
    fun a i h ho _ => ⟨fun hlt => ?_, fun hfull => ?_⟩⟩
  · obtain ⟨h', hp⟩ := push_completes (a := a) (i := i) hlt
    obtain ⟨-, hperm⟩ := heapElems_push hp
    exact ⟨h', hp, push_ordered ho hp, hperm⟩
  · exact if_neg (by omega)

/-- Settles O13: every key is at least its parent's, so the top's is the least, and distinct indices have distinct
keys. -/
theorem popMinIsLeast : Obligations.PopMinIsLeast := by
  refine fun a h ho _ => ⟨fun h0 => if_pos h0, fun h0 => ?_⟩
  obtain ⟨i, h', hp⟩ := popMin_completes (a := a) h0
  obtain ⟨-, hperm⟩ := heapElems_popMin ho.1 hp
  refine ⟨i, h', hp, hperm.mem_iff.mpr List.mem_cons_self, fun j hj hne => ?_, popMin_ordered ho hp, ?_⟩
  · exact less_iff_keyOf.mpr ((popMin_keyOf_le ho hp hj).lt_of_ne fun he => hne (keyOf_injective a he.symm))
  · simpa using (hperm.erase i).symm

/-! ### The queue as a set -/

theorem leastOf_mem (a : Arena) (i : NodeIdx) (js : List NodeIdx) : leastOf a i js ∈ i :: js := by
  induction js generalizing i with
  | nil => exact List.mem_singleton_self i
  | cons j js ih =>
    rw [leastOf]
    rcases List.mem_cons.mp (ih (if less a j i then j else i)) with h | h
    · rw [h]
      split <;> simp
    · simp [h]

theorem keyOf_leastOf_le (a : Arena) (i : NodeIdx) (js : List NodeIdx) :
    ∀ j ∈ i :: js, keyOf a (leastOf a i js) ≤ keyOf a j := by
  induction js generalizing i with
  | nil => simp [leastOf]
  | cons j js ih =>
    rw [leastOf]
    obtain ⟨hhead, htail⟩ := List.forall_mem_cons.mp (ih (if less a j i then j else i))
    have hmin : keyOf a (if less a j i then j else i) ≤ keyOf a i
        ∧ keyOf a (if less a j i then j else i) ≤ keyOf a j := by
      split
      · rename_i h
        exact ⟨(less_iff_keyOf.mp h).le, le_rfl⟩
      · rename_i h
        exact ⟨le_rfl, less_eq_false_iff_keyOf.mp (Bool.eq_false_of_not_eq_true h)⟩
    exact List.forall_mem_cons.mpr ⟨hhead.trans hmin.1, List.forall_mem_cons.mpr ⟨hhead.trans hmin.2, htail⟩⟩

/-- The heap `h` holds the elements `is`, and all are entries below `next`. -/
structure HoldsSet (next : Nat) (a : Arena) (h : Heap) (is : List NodeIdx) : Prop where
  ordered : HeapOrdered a h
  elems : (heapElems h).Perm is
  written : ∀ i ∈ is, i.toNat < next

theorem HoldsSet.length {next : Nat} {a : Arena} {h : Heap} {is : List NodeIdx} (hs : HoldsSet next a h is) :
    is.length = h.count.toNat := by
  rw [← hs.elems.length_eq, length_heapElems hs.ordered.1]

/-- pop_min removes the least of the set (R121). -/
theorem HoldsSet.of_popMin {next : Nat} {a : Arena} {h h' : Heap} {x i : NodeIdx} {js : List NodeIdx}
    (hs : HoldsSet next a h (i :: js)) (hp : popMin a h = .done (x, h')) :
    x = leastOf a i js ∧ HoldsSet next a h' ((i :: js).erase x) := by
  obtain ⟨ho, helems, hwritten⟩ := hs
  obtain ⟨-, hperm⟩ := heapElems_popMin ho.1 hp
  have hx : x ∈ i :: js := helems.mem_iff.mp (hperm.mem_iff.mpr List.mem_cons_self)
  have hleast : leastOf a i js ∈ heapElems h := helems.mem_iff.mpr (leastOf_mem a i js)
  exact ⟨keyOf_injective a (le_antisymm (popMin_keyOf_le ho hp hleast) (keyOf_leastOf_le a i js x hx)), {
    ordered := popMin_ordered ho hp
    elems := by simpa using (hperm.symm.trans helems).erase x
    written := fun k hk => hwritten k (List.mem_of_mem_erase hk) }⟩

/-- A write past the elements leaves their order. -/
theorem HoldsSet.of_set {next : Nat} {a : Arena} {h : Heap} {is : List NodeIdx} {e : Node} (hs : HoldsSet next a h is) :
    HoldsSet next (a.setIfInBounds next e) h is := by
  obtain ⟨ho, helems, hwritten⟩ := hs
  obtain ⟨hle, ho⟩ := heapOrdered_iff.mp ho
  have hkey : ∀ j, j < h.count.toNat → keyAt (a.setIfInBounds next e) h.cells j = keyAt a h.cells j := fun j hj => by
    have hmem : cell h.cells j ∈ heapElems h := (mem_heapElems_iff hle).mpr ⟨j, hj, rfl⟩
    exact keyOf_set_ne (hwritten _ (helems.mem_iff.mp hmem)).ne
  refine ⟨heapOrdered_iff.mpr ⟨hle, fun j h1 hjn h0 => ?_⟩, helems, hwritten⟩
  rw [hkey j hjn, hkey _ (by omega)]
  exact ho j h1 hjn h0

theorem HoldsSet.of_push {next : Nat} {a : Arena} {h h' : Heap} {is : List NodeIdx} (hs : HoldsSet next a h is)
    (hp : push a (BitVec.ofNat 9 next) h = .done h') : HoldsSet (next + 1) a h' (BitVec.ofNat 9 next :: is) where
  ordered := push_ordered hs.ordered hp
  elems := (heapElems_push hp).2.trans (hs.elems.cons _)
  written := List.forall_mem_cons.mpr ⟨by rw [BitVec.toNat_ofNat]; exact Nat.lt_succ_of_le (Nat.mod_le _ _),
    fun i hi => (hs.written i hi).trans (Nat.lt_succ_self next)⟩

theorem holdsSet_heapify {a : Arena} {n : Nat} (h : Heap) (hn : n ≤ 256) :
    HoldsSet n a (heapify a (firstIndices n) h) (firstIndices n) :=
  have hlen : (firstIndices n).length ≤ 256 := by simpa using hn
  { ordered := heapify_ordered hlen
    elems := heapElems_heapify hlen
    written := fun _ => lt_of_mem_firstIndices }

/-- A turn of the set's merge (R129). -/
theorem setMerge_turn {fuel next : Nat} {a : Arena} {i j k : NodeIdx} {js ks : List NodeIdx}
    (hrest : (i :: j :: js).erase (leastOf a i (j :: js)) = k :: ks) :
    setMerge (fuel + 1) next a (i :: j :: js)
      = setMerge fuel (next + 1)
        (a.setIfInBounds next (Node.mkInternal
          (freqAt a (leastOf a i (j :: js)) + freqAt a (leastOf a k ks)) (leastOf a k ks) (leastOf a i (j :: js))))
        (BitVec.ofNat 9 next :: (k :: ks).erase (leastOf a k ks)) := by
  rw [setMerge]
  dsimp only
  rw [hrest]
  rfl

/-- A turn of the merge is a turn on the set. -/
theorem HoldsSet.of_mergeOnce {fuel next : Nat} {a a' : Arena} {h h' : Heap} {is : List NodeIdx}
    (hs : HoldsSet next a h is) (htwo : 2 ≤ h.count.toNat) (hm : mergeOnce next a h = .done (a', h')) :
    ∃ is', HoldsSet (next + 1) a' h' is' ∧ setMerge (fuel + 1) next a is = setMerge fuel (next + 1) a' is' := by
  obtain ⟨x, h1, y, h2, hx, hy, -, rfl, hpush⟩ := mergeOnce_done hm
  have hlen := hs.length
  obtain ⟨i, j, js, rfl⟩ : ∃ i j js, is = i :: j :: js := by
    match is, hlen with
    | i :: j :: js, _ => exact ⟨i, j, js, rfl⟩
    | [_], hlen | [], hlen => simp at hlen; omega
  obtain ⟨hxleast, hs1⟩ := hs.of_popMin hx
  obtain ⟨k, ks, hrest⟩ : ∃ k ks, (i :: j :: js).erase x = k :: ks := by
    refine List.exists_cons_of_ne_nil fun hnil => ?_
    have hone := hs1.length
    have hcount := (heapElems_popMin hs.ordered.1 hx).1
    rw [hnil, List.length_nil] at hone
    omega
  rw [hrest] at hs1
  obtain ⟨hyleast, hs2⟩ := hs1.of_popMin hy
  refine ⟨_, hs2.of_set.of_push hpush, ?_⟩
  subst hxleast hyleast
  exact setMerge_turn hrest

/-- The merge on the heap is the merge on the set it holds (R129). -/
theorem HoldsSet.setMerge_of_mergeLoop {fuel next : Nat} {a a' : Arena} {h h' h'' : Heap} {r : NodeIdx}
    {is : List NodeIdx} (hs : HoldsSet next a h is) (h1 : 1 ≤ h.count.toNat) (hfuel : h.count.toNat ≤ fuel)
    (hm : mergeLoop fuel next a h = .done (a', h')) (hpop : popMin a' h' = .done (r, h'')) :
    setMerge fuel next a is = some (a', r) := by
  induction fuel generalizing next a h is with
  | zero => omega
  | succ fuel ih =>
    rw [mergeLoop] at hm
    split at hm
    · cases hm
      obtain ⟨i, rfl⟩ := List.length_eq_one_iff.mp (hs.length.trans (by omega))
      rw [(hs.of_popMin hpop).1]
      rfl
    · obtain ⟨⟨a₁, h₁⟩, hone, hm⟩ := Body.andThen_eq_done.mp hm
      obtain ⟨is₁, hs₁, hturn⟩ := hs.of_mergeOnce (fuel := fuel) (by omega) hone
      have hcount := mergeOnce_count hone
      rw [hturn]
      exact ih (h := h₁) hs₁ (by bv_omega) (by bv_omega) hm

/-- Settles O14: every turn of the merge is a turn on the set of elements the heap holds. -/
theorem buildRefinesSetQueue : Obligations.BuildRefinesSetQueue := by
  intro n a a' h h' r h2 hn hm
  obtain ⟨⟨a₁, h₁⟩, hloop, hm⟩ := Body.andThen_eq_done.mp hm
  obtain ⟨⟨r₁, h₂⟩, hpop, hm⟩ := Body.andThen_eq_done.mp hm
  cases hm
  have hs := holdsSet_heapify (a := a) h hn
  have hcount := hs.length
  rw [length_firstIndices] at hcount
  exact hs.setMerge_of_mergeLoop (by omega) hcount.ge hloop hpop

end Sys2Proof.Machine
end

section
/-! The arena's commands (spec/42_tree_builder.md R150 to R156): NODERD, NODEWR and SETROOT case by case, and their
words. -/

namespace Sys2Proof.Machine

/-! ### Node words -/

theorem kindOf_eq_iff {b : BitVec 2} {k : Kind} : kindOf b = k ↔ b = kindBits k := by
  revert b
  cases k <;> decide

/-- The fields each KIND leaves unused are 0 (R30). -/
theorem Node.canonical_iff {e : Node} :
    e.canonical = true ↔
      e.kind ≠ .reserved
      ∧ (e.kind = .none → e.left = 0#9 ∧ e.right = 0#9 ∧ e.value = 0#8 ∧ e.freq = 0#32)
      ∧ (e.kind = .leaf → e.left = 0#9 ∧ e.right = 0#9)
      ∧ (e.kind = .internal → e.value = 0#8) := by
  unfold Node.canonical
  cases e.kind <;> simp [and_left_comm, and_comm]

/-- Settles O21: a word's KIND is given by its two bits, and legality is that the reserved bits are 0 and the entry is
canonical. -/
theorem nodeWordLegality : Obligations.NodeWordLegality := by
  refine fun nw f => ⟨?_, canonical_of_legalNodeWord⟩
  rw [legalNodeWord, Bool.and_eq_true, Bool.and_eq_true, beq_iff_eq, beq_iff_eq, Node.canonical_iff]
  simp only [nodeOfWord, ne_eq, kindOf_eq_iff, kindBits]
  tauto

/-! ### NODERD and NODEWR -/

/-- A word with the OP of a row that shuts out index 511 is the row's command, or ILLEGAL for its reserved field or its
index (R98). -/
theorem decode_or_rejects_of_op_notIndex511 {i : Instr} {w : Word} (hop : opOf w = opOf (rowOf i).pattern)
    (hindex : (rowOf i).notIndex511 = true) :
    if reservedField (operandWidth i) w = 0 ∧ w.extractLsb' 0 9 ≠ 511#9 then decode w = .ok (withOperandOf w i)
    else Rejects w := by
  have hdecode := decode_of_op hop
  have hallowed : indexAllowed i w = true ↔ w.extractLsb' 0 9 ≠ 511#9 := by simp [indexAllowed, hindex, Config.noneIdx]
  split
  · rename_i h
    rw [hdecode, if_pos h.1, if_pos (hallowed.mpr h.2)]
  · rename_i h
    by_cases hres : reservedField (operandWidth i) w = 0
    · exact rejects_of_decode_error (hdecode.trans ((if_pos hres).trans (if_neg fun ha => h ⟨hres, hallowed.mp ha⟩)))
    · exact rejects_of_decode_error (hdecode.trans (if_neg hres))

theorem noderdBody_of_entry {idx : NodeIdx} {s : State} {e : Node} (he : nodeAt s.tree.arena idx = some e)
    (hk : e.kind ≠ .reserved) :
    noderdBody idx s = .done { s with results := { s.results with
      res0 := nodeWord e, res1 := e.freq, res2 := idx.setWidth 32 } } := by
  simp [noderdBody, he, hk]

/-- Settles O19: an entry of a stored KIND is read. -/
theorem noderdReadsEntry : Obligations.NoderdReadsEntry :=
  ⟨fun _ _ _ he hk => complete_of_done rfl (noderdBody_of_entry he hk),
    fun _ hop => decode_or_rejects_of_op_notIndex511 (i := .noderd 0) hop rfl⟩

theorem nodewrBody_of_legal {idx : NodeIdx} {s : State} (hi : idx ≠ 511#9)
    (hl : legalNodeWord s.port.arg1 s.port.arg0 = true) :
    nodewrBody idx s = .done { s with
      tree := { s.tree with
        arena := s.tree.arena.setIfInBounds idx.toNat (nodeOfWord s.port.arg1 s.port.arg0)
        valid := false, empty := false, single := false }
      codes := { s.codes with valid := false } } :=
  (if_neg hi).trans (if_pos hl)

theorem nodewrBody_of_illegal {idx : NodeIdx} {s : State} (hl : legalNodeWord s.port.arg1 s.port.arg0 = false) :
    nodewrBody idx s = .raised .illegalCmd := by
  simp [nodewrBody, hl]

/-- Settles O20: a legal node word is written, an illegal one raises. -/
theorem nodewrWritesEntry : Obligations.NodewrWritesEntry :=
  ⟨fun _ _ hi => ⟨fun hl => complete_of_done rfl (nodewrBody_of_legal hi hl),
      fun hl he => complete_of_raised rfl (nodewrBody_of_illegal hl) he⟩,
    fun _ hop => decode_or_rejects_of_op_notIndex511 (i := .nodewr 0) hop rfl⟩

/-! ### SETROOT -/

theorem setrootBody_of_tree {r : NodeIdx} {n : Nat} {s : State} (hr : r ≠ Config.noneIdx)
    (h : treeOk s.tree.arena r = .done (some n)) : setrootBody r s = .done (installTree r n s) := by
  simp [setrootBody, hr, h]

theorem setrootBody_of_noTree {r : NodeIdx} {s : State} (hr : r ≠ Config.noneIdx)
    (h : treeOk s.tree.arena r = .done none) :
    setrootBody r s = .raised .badTree := by
  simp [setrootBody, hr, h]

/-- TREE_SINGLE as SETROOT installs it: the entry at the root is a LEAF (R156). -/
theorem installTree_single (r : NodeIdx) (n : Nat) (s : State) :
    (installTree r n s).tree.single = (kindAt s.tree.arena r == .leaf) := by
  unfold installTree kindAt
  cases nodeAt s.tree.arena r <;> rfl

theorem installTree_eq (r : NodeIdx) (n : Nat) (s : State) :
    installTree r n s = { s with
      tree := { s.tree with
        root := r, nleaf := BitVec.ofNat 9 n, valid := true, empty := false, single := kindAt s.tree.arena r == .leaf }
      codes := { s.codes with valid := false }
      decoder := { s.decoder with ptr := r, count := 0#32 } } := by
  rw [← installTree_single r n s]
  rfl

/-- Settles O23: index 511 installs the empty tree, and tree_ok decides at every other index. -/
theorem setrootInstalls : Obligations.SetrootInstalls := by
  refine ⟨fun s => rfl, fun s r n hr h => ?_, fun s r hr h he => ?_,
    fun w hop => decode_or_rejects_of_op (i := .setroot 0) hop rfl⟩
  · rw [← installTree_eq]
    exact complete_of_done rfl (setrootBody_of_tree hr h)
  · exact complete_of_raised rfl (setrootBody_of_noTree hr h) he

end Sys2Proof.Machine
end

section
/-! tree_ok decides validity (spec/42_tree_builder.md R154): on the work of a forest every turn visits one of its
indices, so the loop ends within its turns and counts the forest's leaves. -/

namespace Sys2Proof.Machine

/-! ### Sizes -/

/-- A tree has one INTERNAL entry fewer than leaves. -/
theorem IdxTree.length_indices (T : IdxTree) : T.indices.length + 1 = 2 * T.leaves.length := by
  induction T with
  | leaf i => rfl
  | node i l r ihl ihr =>
    simp only [indices, leaves, List.length_cons, List.length_append]
    omega

theorem IsTree.length_indices_le {a : Arena} {r : NodeIdx} {T : IdxTree} (h : IsTree a r T) :
    T.indices.length ≤ 511 := by
  have hleaves := h.length_leaves_le
  have hindices := T.length_indices
  omega

/-! ### Taking a forest apart -/

theorem Forest.tail {a : Arena} {T : IdxTree} {Ts : List IdxTree} (h : Forest a (T :: Ts)) : Forest a Ts where
  fits U hU := h.fits U (List.mem_cons_of_mem _ hU)
  indices := h.indices.of_append_right
  values := by
    have hvalues := h.values
    rw [forestLeaves_cons, List.map_append] at hvalues
    exact hvalues.of_append_right

/-- Without its root a tree leaves two; the converse of `Forest.join`. -/
theorem Forest.split {a : Arena} {i : NodeIdx} {L R : IdxTree} {Ts : List IdxTree}
    (h : Forest a (.node i L R :: Ts)) : i ∉ forestIndices (L :: R :: Ts) ∧ Forest a (L :: R :: Ts) := by
  obtain ⟨hfits, hindices, hvalues⟩ := h
  rw [forestIndices_join, List.nodup_cons] at hindices
  rw [forestLeaves_join] at hvalues
  obtain ⟨hT, hTs⟩ := List.forall_mem_cons.mp hfits
  obtain ⟨-, hL, hR⟩ := IdxTree.fits_node.mp hT
  exact ⟨hindices.1, List.forall_mem_cons.mpr ⟨hL, List.forall_mem_cons.mpr ⟨hR, hTs⟩⟩, hindices.2, hvalues⟩

/-! ### The turns -/

theorem treeTurn_of_leaf {a : Arena} {i : NodeIdx} {w : TreeWork} {e : Node} (hi : i ∉ w.visited)
    (he : nodeAt a i = some e) (hk : e.kind = .leaf) (hf : e.freq ≠ 0#32) (hv : e.value ∉ w.values) :
    treeTurn a i w = .done (some { w with visited := i :: w.visited, values := e.value :: w.values }) := by
  simp [treeTurn, hi, he, hk, hf, hv]

theorem treeTurn_of_internal {a : Arena} {i : NodeIdx} {w : TreeWork} {e el er : Node} (hi : i ∉ w.visited)
    (he : nodeAt a i = some e) (hk : e.kind = .internal) (hl : nodeAt a e.left = some el)
    (hr : nodeAt a e.right = some er) (hsum : e.freq.toNat = el.freq.toNat + er.freq.toNat) :
    treeTurn a i w
      = .done (some { w with visited := i :: w.visited, work := w.work ++ [e.left, e.right] }) := by
  simp [treeTurn, hi, he, hk, hl, hr, hsum]

/-- With no tree left the answer is the number of values met. -/
theorem WorkForest.treeLoop_nil {a : Arena} {fuel n : Nat} {w : TreeWork} (h : WorkForest a w n []) :
    treeLoop a fuel w = .done (some n) := by
  have hw : w.work = [] := h.roots.symm
  have hn : n = w.values.length := h.count
  cases fuel <;> simp [treeLoop, hw, hn]

theorem treeLoop_of_turn {a : Arena} {fuel : Nat} {i : NodeIdx} {rest : List NodeIdx} {w w' : TreeWork}
    (hw : w.work = i :: rest) (h : treeTurn a i { w with work := rest } = .done (some w')) :
    treeLoop a (fuel + 1) w = treeLoop a fuel w' := by
  simp [treeLoop, hw, h]

/-- A turn at a bare leaf takes it from the forest. -/
theorem WorkForest.turn_leaf {a : Arena} {w : TreeWork} {n : Nat} {i : NodeIdx} {Ts : List IdxTree}
    (h : WorkForest a w n (.leaf i :: Ts)) :
    ∃ w', treeTurn a i { w with work := Ts.map IdxTree.root } = .done (some w') ∧ WorkForest a w' n Ts := by
  obtain ⟨-, hforest, hvis, hvals, hcount⟩ := h
  obtain ⟨e, he, hk, hf⟩ := IdxTree.fits_leaf.mp (hforest.fits _ List.mem_cons_self)
  have hindices := hforest.indices
  have hvalues := hforest.values
  simp only [forestIndices_cons, forestLeaves_cons, IdxTree.indices, IdxTree.leaves, List.singleton_append,
    List.map_cons, valueAt_eq he, List.nodup_cons, List.length_cons] at hvis hvals hcount hindices hvalues
  refine ⟨_, treeTurn_of_leaf (fun hi => hvis i hi List.mem_cons_self) he hk hf
    (fun hv => hvals _ hv List.mem_cons_self), rfl, hforest.tail, ?_, ?_, ?_⟩
  · exact List.forall_mem_cons.mpr ⟨hindices.1, fun j hj => List.not_mem_of_not_mem_cons (hvis j hj)⟩
  · exact List.forall_mem_cons.mpr ⟨hvalues.1, fun v hv => List.not_mem_of_not_mem_cons (hvals v hv)⟩
  · exact hcount.trans (Nat.succ_add_eq_add_succ _ _).symm

/-- A turn at the root of a larger tree puts its two subtrees at the forest's end. -/
theorem WorkForest.turn_node {a : Arena} {w : TreeWork} {n : Nat} {i : NodeIdx} {L R : IdxTree} {Ts : List IdxTree}
    (h : WorkForest a w n (.node i L R :: Ts)) :
    ∃ w', treeTurn a i { w with work := Ts.map IdxTree.root } = .done (some w')
      ∧ WorkForest a w' n (Ts ++ [L, R]) := by
  obtain ⟨-, hforest, hvis, hvals, hcount⟩ := h
  obtain ⟨⟨e, el, er, he, hl, hr, hk, hleft, hright, hsum⟩, -⟩ :=
    IdxTree.fits_node.mp (hforest.fits _ List.mem_cons_self)
  have hperm : (L :: R :: Ts).Perm (Ts ++ [L, R]) := List.perm_append_comm (l₁ := [L, R])
  have hindices := forestIndices_perm hperm
  have hleaves := forestLeaves_perm hperm
  obtain ⟨hi, hsplit⟩ := hforest.split
  rw [forestIndices_join] at hvis
  rw [forestLeaves_join] at hvals hcount
  refine ⟨_, treeTurn_of_internal (fun hi => hvis i hi List.mem_cons_self) he hk (hleft ▸ hl) (hright ▸ hr) hsum,
    ?_, hsplit.perm hperm, ?_, ?_, ?_⟩
  · rw [List.map_append, hleft, hright]
    rfl
  · exact List.forall_mem_cons.mpr ⟨hindices.mem_iff.not.mp hi,
      fun j hj => hindices.mem_iff.not.mp (List.not_mem_of_not_mem_cons (hvis j hj))⟩
  · exact fun v hv => (hleaves.map _).mem_iff.not.mp (hvals v hv)
  · rw [← hleaves.length_eq]
    exact hcount

/-- tree_ok counts the leaves of every forest its turns can visit; the converse of `treeLoop_forest`. -/
theorem WorkForest.treeLoop_eq {a : Arena} {fuel n : Nat} {w : TreeWork} {Ts : List IdxTree}
    (h : WorkForest a w n Ts) (hfuel : (forestIndices Ts).length ≤ fuel) : treeLoop a fuel w = .done (some n) := by
  induction fuel generalizing w Ts with
  | zero =>
    cases Ts with
    | nil => exact h.treeLoop_nil
    | cons T Ts =>
      have hpos := List.length_pos_of_mem (mem_forestIndices (Ts := T :: Ts) List.mem_cons_self T.root_mem_indices)
      omega
  | succ fuel ih =>
    cases Ts with
    | nil => exact h.treeLoop_nil
    | cons T Ts =>
      have hwork : w.work = T.root :: Ts.map IdxTree.root := h.roots.symm
      cases T with
      | leaf i =>
        obtain ⟨w', hturn, h'⟩ := h.turn_leaf
        rw [treeLoop_of_turn hwork hturn]
        refine ih h' ?_
        simp only [forestIndices_cons, IdxTree.indices, List.singleton_append, List.length_cons] at hfuel
        omega
      | node i L R =>
        obtain ⟨w', hturn, h'⟩ := h.turn_node
        rw [treeLoop_of_turn hwork hturn]
        refine ih h' ?_
        rw [forestIndices_join, List.length_cons] at hfuel
        rw [(forestIndices_perm (List.perm_append_comm (l₁ := Ts) (l₂ := [L, R]))).length_eq]
        exact Nat.le_of_succ_le_succ hfuel

/-- On a valid tree with n leaves tree_ok answers n (R154). -/
theorem treeOk_complete {a : Arena} {r : NodeIdx} {n : Nat} (h : ValidTree a r n) : treeOk a r = .done (some n) := by
  obtain ⟨T, hT, rfl⟩ := h
  have hindices := hT.length_indices_le
  obtain ⟨rfl, hfits, hnodup, hvalues⟩ := hT
  have hforest : Forest a [T] :=
    ⟨by simpa using hfits, by simpa [forestIndices] using hnodup, by simpa [forestLeaves] using hvalues⟩
  exact WorkForest.treeLoop_eq (Ts := [T])
    ⟨rfl, hforest, nofun, nofun, by simp [forestLeaves]⟩ (by simpa [forestIndices] using hindices)

theorem treeOk_eq_some_iff {a : Arena} {r : NodeIdx} {n : Nat} : treeOk a r = .done (some n) ↔ ValidTree a r n :=
  ⟨treeOk_sound, treeOk_complete⟩

/-- On a canonical arena tree_ok answers (R30, R154). -/
theorem treeOk_answers {a : Arena} (h : ArenaCanonical a) (r : NodeIdx) : ∃ x, treeOk a r = .done x := by
  cases hx : treeOk a r with
  | done x => exact ⟨x, rfl⟩
  | raised e => exact absurd hx treeLoop_not_raised
  | broken f => exact absurd hx (treeLoop_not_broken h)

/-- Settles O22: a forest is visited within the loop's turns, and what the loop has visited is one. -/
theorem treeOkDecidesValidity : Obligations.TreeOkDecidesValidity := by
  refine ⟨fun a r hcan => ⟨fun n => treeOk_eq_some_iff, fun hnone ⟨n, hn⟩ => ?_, fun hno => ?_⟩, fun a r T hT =>
    ⟨hT.length_leaves_le, hT.length_indices_le, Nat.le_sub_one_of_lt T.depth_lt_length_leaves⟩⟩
  · rw [treeOk_complete hn] at hnone
    cases hnone
  · obtain ⟨x, hx⟩ := treeOk_answers hcan r
    cases x with
    | none => exact hx
    | some n => exact absurd ⟨n, treeOk_sound hx⟩ hno

end Sys2Proof.Machine
end

section
/-! The leaves of BUILD (spec/42_tree_builder.md R142, R148): build_leaves() lays out the counted symbols' leaves and
leaves every other entry NONE. -/

namespace Sys2Proof.Machine

/-! ### The list of leaves -/

/-- The leaf of symbol `s` with count `f`, if it is counted. -/
def leafOf (s : Nat) (f : Word) : Option Node := if f = 0#32 then none else some (Node.mkLeaf f (BitVec.ofNat 8 s))

@[simp] theorem leafOf_zero (s : Nat) : leafOf s 0#32 = none := rfl

theorem leafOf_ne_zero {s : Nat} {f : Word} (hf : f ≠ 0#32) :
    leafOf s f = some (Node.mkLeaf f (BitVec.ofNat 8 s)) := if_neg hf

/-- The leaves of the counted symbols among s, s + 1, … with these counts. -/
def leavesFrom (s : Nat) (fs : List Word) : List Node := (fs.zipIdx s).filterMap fun p => leafOf p.2 p.1

@[simp] theorem leavesFrom_nil (s : Nat) : leavesFrom s [] = [] := rfl

theorem leavesFrom_cons_zero (s : Nat) (fs : List Word) : leavesFrom s (0#32 :: fs) = leavesFrom (s + 1) fs := rfl

theorem leavesFrom_cons_ne_zero {s : Nat} {f : Word} {fs : List Word} (hf : f ≠ 0#32) :
    leavesFrom s (f :: fs) = Node.mkLeaf f (BitVec.ofNat 8 s) :: leavesFrom (s + 1) fs := by
  rw [leavesFrom, List.zipIdx_cons, List.filterMap_cons, leafOf_ne_zero hf]
  rfl

theorem length_leavesFrom (s : Nat) (fs : List Word) : (leavesFrom s fs).length = fs.countP (· != 0#32) := by
  induction fs generalizing s with
  | nil => rfl
  | cons f fs ih =>
    by_cases hf : f = 0#32
    · rw [hf, leavesFrom_cons_zero, ih, List.countP_cons_of_neg (by simp)]
    · rw [leavesFrom_cons_ne_zero hf, List.length_cons, ih, List.countP_cons_of_pos (by simpa using hf)]

theorem countedLeaves_eq_filterMap (hist : Vector Word 256) :
    countedLeaves hist = (List.range 256).filterMap fun s => leafOf s ((hist[s]?).getD 0#32) := rfl

theorem countedLeaves_eq_leavesFrom (hist : Vector Word 256) : countedLeaves hist = leavesFrom 0 hist.toList := by
  have hzip : hist.toList.zipIdx 0 = (List.range 256).map fun s => ((hist[s]?).getD 0#32, s) :=
    List.ext_getElem (by simp) fun s hs _ => by
      have hs : s < 256 := by simpa using hs
      simp [hs]
  rw [leavesFrom, hzip, List.filterMap_map]
  rfl

theorem length_countedLeaves (hist : Vector Word 256) : (countedLeaves hist).length = countedSymbols hist := by
  rw [countedLeaves_eq_leavesFrom, length_leavesFrom, countedSymbols]

/-! ### build_leaves() -/

/-- The loop of build_leaves() writes the leaves in order from the next free index on, and nothing else (R142). -/
theorem layLeaves_eq {fs : List Word} {s n : Nat} {a : Arena} (hn : n + fs.length ≤ 511) :
    (layLeaves fs s n a).2 = n + (leavesFrom s fs).length
    ∧ (layLeaves fs s n a).1.toList
        = a.toList.take n ++ leavesFrom s fs ++ a.toList.drop (n + (leavesFrom s fs).length) := by
  induction fs generalizing s n a with
  | nil => simp [layLeaves]
  | cons f fs ih =>
    rw [List.length_cons] at hn
    rw [layLeaves]
    split
    · rename_i hf
      rw [hf, leavesFrom_cons_zero]
      exact ih (by omega)
    · rename_i hf
      obtain ⟨hcount, hlist⟩ := ih (s := s + 1) (n := n + 1)
        (a := a.setIfInBounds n (Node.mkLeaf f (BitVec.ofNat 8 s))) (by omega)
      rw [Vector.toList_setIfInBounds, List.drop_set_of_lt (by omega),
        List.take_succ_eq_append_getElem (by simp; omega), List.take_set_of_le le_rfl, List.getElem_set_self] at hlist
      rw [leavesFrom_cons_ne_zero hf, List.length_cons, hcount, hlist, List.append_assoc (a.toList.take n)]
      exact ⟨Nat.succ_add_eq_add_succ _ _, by rw [Nat.succ_add_eq_add_succ, List.singleton_append]⟩

/-- build_leaves() lays out the counted symbols' leaves on a cleared arena (R142). -/
theorem buildLeaves_eq (hist : Vector Word 256) :
    (buildLeaves hist).2 = countedSymbols hist
    ∧ (buildLeaves hist).1.toList
        = countedLeaves hist ++ List.replicate (511 - countedSymbols hist) Node.blank := by
  obtain ⟨hcount, hlist⟩ := layLeaves_eq (fs := hist.toList) (s := 0) (n := 0)
    (a := Vector.replicate 511 Node.blank) (by simp)
  rw [← countedLeaves_eq_leavesFrom, length_countedLeaves, Nat.zero_add] at hcount hlist
  refine ⟨hcount, hlist.trans ?_⟩
  rw [List.take_zero, List.nil_append, Vector.toList_replicate, List.drop_replicate]

/-! ### One leaf or none -/

theorem getElem?_getD_eq_zero {hist : Vector Word 256} {s : Nat} (hs : s < 256)
    (h : ∀ u : Byte, u.toNat = s → hist[u.toNat] = 0#32) : (hist[s]?).getD 0#32 = 0#32 := by
  have hu : (BitVec.ofNat 8 s).toNat = s := by rw [BitVec.toNat_ofNat]; omega
  simpa [hs, hu] using h (BitVec.ofNat 8 s) hu

/-- When only v is counted its leaf is the only one. -/
theorem countedLeaves_of_single {hist : Vector Word 256} {v : Byte} (hv : hist[v.toNat] ≠ 0#32)
    (hu : ∀ u : Byte, u ≠ v → hist[u.toNat] = 0#32) : countedLeaves hist = [Node.mkLeaf hist[v.toNat] v] := by
  obtain ⟨us, vs, hsplit⟩ := List.append_of_mem (List.mem_range.mpr v.isLt : v.toNat ∈ List.range 256)
  have hnotin : v.toNat ∉ us ++ vs := List.Nodup.notMem (List.nodup_middle.mp (hsplit ▸ List.nodup_range))
  have hnone : ∀ s ∈ us ++ vs, leafOf s ((hist[s]?).getD 0#32) = none := fun s hs => by
    have hrange : s ∈ List.range 256 := by
      rw [hsplit, List.perm_middle.mem_iff]
      exact List.mem_cons_of_mem _ hs
    rw [getElem?_getD_eq_zero (List.mem_range.mp hrange) fun u hus => hu u fun huv => hnotin (huv ▸ hus ▸ hs),
      leafOf_zero]
  have hleaf : leafOf v.toNat ((hist[v.toNat]?).getD 0#32) = some (Node.mkLeaf hist[v.toNat] v) := by
    rw [Vector.getElem?_eq_getElem v.isLt, Option.getD_some, leafOf_ne_zero hv, BitVec.ofNat_toNat, BitVec.setWidth_eq]
  obtain ⟨hus, hvs⟩ := List.forall_mem_append.mp hnone
  rw [countedLeaves_eq_filterMap, hsplit, List.filterMap_append, List.filterMap_cons, hleaf,
    List.filterMap_eq_nil_iff.mpr hus, List.filterMap_eq_nil_iff.mpr hvs]
  rfl

theorem countedLeaves_of_none {hist : Vector Word 256} (hu : ∀ u : Byte, hist[u.toNat] = 0#32) :
    countedLeaves hist = [] := by
  rw [countedLeaves_eq_filterMap, List.filterMap_eq_nil_iff]
  intro s hs
  rw [getElem?_getD_eq_zero (List.mem_range.mp hs) fun u _ => hu u, leafOf_zero]

theorem buildLeaves_of_single {hist : Vector Word 256} {e : Node} (h : countedLeaves hist = [e]) :
    buildLeaves hist = ((Vector.replicate 511 Node.blank).set 0 e, 1) := by
  obtain ⟨hcount, hlist⟩ := buildLeaves_eq hist
  rw [← length_countedLeaves, h] at hcount hlist
  refine Prod.ext (Vector.toList_inj.mp (hlist.trans ?_)) hcount
  rw [Vector.toList_set, Vector.toList_replicate, List.replicate_succ (n := 510), List.set_cons_zero]
  rfl

theorem buildLeaves_of_none {hist : Vector Word 256} (h : countedLeaves hist = []) :
    buildLeaves hist = (Vector.replicate 511 Node.blank, 0) := by
  obtain ⟨hcount, hlist⟩ := buildLeaves_eq hist
  rw [← length_countedLeaves, h] at hcount hlist
  exact Prod.ext (Vector.toList_inj.mp (hlist.trans (by rw [Vector.toList_replicate]; rfl))) hcount

theorem buildBody_of_one {s : State} {a : Arena} (h : buildLeaves s.counter.hist = (a, 1)) :
    buildBody s = .done (installBuilt 1 0#9 a s.heap s) := by
  simp [buildBody, h]

theorem buildBody_of_none {s : State} {a : Arena} (h : buildLeaves s.counter.hist = (a, 0)) :
    buildBody s = .done (installBuilt 0 Config.noneIdx a s.heap s) := by
  simp [buildBody, h]

/-- Settles O17: with one leaf or none there is nothing to merge. -/
theorem buildDegenerateCases : Obligations.BuildDegenerateCases :=
  ⟨fun _ _ hv hu => complete_of_done rfl
      (buildBody_of_one (buildLeaves_of_single (countedLeaves_of_single hv hu))),
    fun _ hu => complete_of_done rfl (buildBody_of_none (buildLeaves_of_none (countedLeaves_of_none hu)))⟩

end Sys2Proof.Machine
end

section
/-! What BUILD leaves (spec/42_tree_builder.md R141 to R147): the merge writes 2n - 2 as the last entry, which is ROOT,
and leaves the leaves below n and the NONE entries past it. -/

namespace Sys2Proof.Machine

/-! ### The merge -/

/-- How far the merge of n leaves on `a₀` is when the next free entry is `next` (R143): every turn writes one entry and
takes one element from the heap, and what it has written last is in the heap. -/
structure MergeProgress (n : Nat) (a₀ : Arena) (next : Nat) (a : Arena) (h : Heap) : Prop where
  started : n ≤ next
  count : next + h.count.toNat = 2 * n
  frame : ∀ k, k < n ∨ next ≤ k → a[k]? = a₀[k]?
  last : n < next → BitVec.ofNat 9 (next - 1) ∈ heapElems h

theorem mergeProgress_heapify {n : Nat} (a : Arena) (h : Heap) (hn : n ≤ 256) :
    MergeProgress n a n a (heapify a (firstIndices n) h) where
  started := le_rfl
  count := by rw [heapify_count (by simpa using hn), length_firstIndices]; omega
  frame _ _ := rfl
  last hlt := absurd hlt (Nat.lt_irrefl n)

theorem MergeProgress.of_mergeOnce {n next : Nat} {a₀ a a' : Arena} {h h' : Heap} (hn : n ≤ 256)
    (hp : MergeProgress n a₀ next a h) (hm : mergeOnce next a h = .done (a', h')) :
    MergeProgress n a₀ (next + 1) a' h' := by
  obtain ⟨hstart, hcount, hframe, -⟩ := hp
  obtain ⟨x, h1, y, h2, hx, hy, -, rfl, hpush⟩ := mergeOnce_done hm
  obtain ⟨hc1, -⟩ := heapElems_popMin (by omega) hx
  obtain ⟨hc2, -⟩ := heapElems_popMin (by omega) hy
  obtain ⟨hc3, hperm⟩ := heapElems_push hpush
  exact {
    started := by omega
    count := by omega
    frame := fun k hk => by
      rw [Vector.getElem?_setIfInBounds_ne (by omega)]
      exact hframe k (by omega)
    last := fun _ => hperm.mem_iff.mpr List.mem_cons_self }

theorem heapElems_of_count_one {a : Arena} {h h' : Heap} {r : NodeIdx} (h1 : h.count = 1#9)
    (hp : popMin a h = .done (r, h')) : heapElems h = [r] := by
  obtain ⟨hcount, hperm⟩ := heapElems_popMin (by rw [h1]; decide) hp
  have hzero : h'.count.toNat = 0 := by rw [h1] at hcount; exact (Nat.succ.inj hcount).symm
  rw [show heapElems h' = [] by rw [heapElems_eq, hzero]; rfl] at hperm
  exact hperm.eq_singleton

/-- The merge of n ≥ 2 leaves writes the entries n, …, 2n - 2, and its root is the last one (R143, R145). -/
theorem mergeLeaves_frame {n : Nat} {a a' : Arena} {h h' : Heap} {r : NodeIdx} (h2 : 2 ≤ n) (hn : n ≤ 256)
    (hm : mergeLeaves n a h = .done (a', h', r)) :
    r.toNat = 2 * n - 2 ∧ ∀ k, k < n ∨ 2 * n - 1 ≤ k → a'[k]? = a[k]? := by
  obtain ⟨-, next, h₁, ⟨-, hcount, hframe, hlast⟩, hone, hpop⟩ := mergeLeaves_invariant (P := MergeProgress n a)
    (fun _ _ _ _ _ hp => hp.of_mergeOnce hn) (by omega) hn (mergeProgress_heapify a h hn) hm
  rw [hone, BitVec.toNat_ofNat] at hcount
  obtain rfl : next = 2 * n - 1 := by omega
  have hroot := hlast (by omega)
  rw [heapElems_of_count_one hone hpop, List.mem_singleton] at hroot
  exact ⟨by rw [← hroot, BitVec.toNat_ofNat]; omega, hframe⟩

/-- A turn that runs keeps the sum of the elements' FREQs (R144). -/
theorem Merging.of_mergeOnce {total next : Nat} {a a' : Arena} {h h' : Heap} (ht : total < 2 ^ 32)
    (hp : Merging total next a h) (hm : mergeOnce next a h = .done (a', h')) : Merging total (next + 1) a' h' := by
  obtain ⟨x, h1, y, h2, hx, hy, -⟩ := mergeOnce_done hm
  have htwo : 2 ≤ h.count.toNat := by
    have hc1 := (heapElems_popMin hp.atMost hx).1
    have hc2 := (heapElems_popMin (by have := hp.atMost; omega) hy).1
    omega
  obtain ⟨a₁, h₁, hone, hp'⟩ := mergeOnce_completes hp ht htwo
  cases hm.symm.trans hone
  exact hp'

/-- The root's FREQ is the sum of the leaves' (R144). -/
theorem mergeLeaves_freq {n : Nat} {a a' : Arena} {h h' : Heap} {r : NodeIdx} (h1 : 1 ≤ n) (hn : n ≤ 256)
    (ht : freqSum a (firstIndices n) < 2 ^ 32) (hm : mergeLeaves n a h = .done (a', h', r)) :
    (freqAt a' r).toNat = freqSum a (firstIndices n) := by
  obtain ⟨-, next, h₁, hp, hone, hpop⟩ := mergeLeaves_invariant (P := Merging (freqSum a (firstIndices n)))
    (fun _ _ _ _ _ hp => hp.of_mergeOnce ht) h1 hn (merging_heapify h h1 hn) hm
  have hsum := hp.sum
  rwa [heapElems_of_count_one hone hpop] at hsum

/-! ### BUILD -/

theorem buildBody_of_exec {s t : State} (h : exec .build s = .next t) :
    ∃ u, buildBody s = .done u ∧ t = clearBusy u := by
  rcases complete_next ((exec_build s).symm.trans h) with ⟨-, u, hu, rfl⟩ | ⟨-, e, -, ⟨hp, -⟩ | ⟨-, hr⟩⟩
  · exact ⟨u, hu, rfl⟩
  · cases hp
  · exact absurd hr buildBody_not_raised

/-- What BUILD leaves on n counted symbols (R147): the installed registers, ROOT at the last entry, the leaves below n
and the entries from 2n - 1 on as build_leaves() left them. -/
theorem buildBody_installs {s u : State} (h : buildBody s = .done u) :
    ∃ a hp r, u = installBuilt (countedSymbols s.counter.hist) r a hp s
      ∧ (countedSymbols s.counter.hist = 0 → r = 511#9)
      ∧ (1 ≤ countedSymbols s.counter.hist → r.toNat = 2 * countedSymbols s.counter.hist - 2)
      ∧ ∀ k, k < countedSymbols s.counter.hist ∨ 2 * countedSymbols s.counter.hist - 1 ≤ k →
          a[k]? = (buildLeaves s.counter.hist).1[k]? := by
  obtain ⟨hcount, -⟩ := buildLeaves_eq s.counter.hist
  have hle := buildLeaves_le s.counter.hist
  have hdone := buildBody_done h
  rw [hcount] at hdone hle
  rcases hdone with ⟨h0, rfl⟩ | ⟨h1, rfl⟩ | ⟨h2, a, hp, r, hm, rfl⟩
  · rw [h0]
    exact ⟨_, _, _, rfl, fun _ => rfl, nofun, fun _ _ => rfl⟩
  · rw [h1]
    exact ⟨_, _, _, rfl, nofun, fun _ => rfl, fun _ _ => rfl⟩
  · obtain ⟨hroot, hframe⟩ := mergeLeaves_frame h2 hle hm
    exact ⟨a, hp, r, rfl, fun h0 => by omega, fun _ => hroot, hframe⟩

/-- Settles O15: the list is what the loop lays out, and the merge writes past it. -/
theorem buildLaysLeavesInOrder : Obligations.BuildLaysLeavesInOrder := by
  refine ⟨buildLeaves_eq, fun s t h => ?_⟩
  obtain ⟨u, hu, rfl⟩ := buildBody_of_exec h
  obtain ⟨a, hp, r, rfl, -, -, hframe⟩ := buildBody_installs hu
  obtain ⟨-, hlist⟩ := buildLeaves_eq s.counter.hist
  have htake : (buildLeaves s.counter.hist).1.toList.take (countedSymbols s.counter.hist)
      = countedLeaves s.counter.hist := by
    rw [hlist, ← length_countedLeaves, List.take_left]
  rw [← htake]
  refine List.ext_getElem? fun k => ?_
  by_cases hk : k < countedSymbols s.counter.hist
  · simpa [List.getElem?_take_of_lt hk] using hframe k (.inl hk)
  · simp [List.getElem?_take_eq_none (Nat.le_of_not_lt hk)]

/-- Settles O16, register by register. -/
theorem buildWritesState : Obligations.BuildWritesState := by
  intro s t h
  obtain ⟨u, hu, rfl⟩ := buildBody_of_exec h
  obtain ⟨a, hp, r, rfl, hempty, hroot, -⟩ := buildBody_installs hu
  have hle := buildLeaves_le s.counter.hist
  rw [(buildLeaves_eq s.counter.hist).1] at hle
  have hnleaf : (BitVec.ofNat 9 (countedSymbols s.counter.hist)).toNat = countedSymbols s.counter.hist := by
    rw [BitVec.toNat_ofNat]
    omega
  refine ⟨fun h0 => ⟨hempty h0, beq_iff_eq.mpr h0, ?_⟩, fun h1 => ⟨?_, ?_, beq_iff_eq.mpr h1⟩,
    fun h2 => ⟨hroot (by omega), beq_eq_false_iff_ne.mpr (by omega), beq_eq_false_iff_ne.mpr (by omega)⟩, hnleaf,
    rfl, rfl, rfl, rfl, rfl, rfl, rfl, rfl, rfl, rfl, rfl, rfl, rfl⟩
  · exact beq_eq_false_iff_ne.mpr (by omega)
  · exact BitVec.eq_of_toNat_eq ((hroot h1.ge).trans (by rw [h1]; rfl))
  · exact beq_eq_false_iff_ne.mpr (by omega)

/-- On n ≥ 1 counted symbols BUILD makes a valid tree whose root's FREQ is TOTAL (R145). -/
theorem buildBody_validTree {s u : State} (hc : CounterExact s.counter) (h : buildBody s = .done u)
    (h1 : 1 ≤ countedSymbols s.counter.hist) :
    ValidTree u.tree.arena u.tree.root (countedSymbols s.counter.hist)
    ∧ freqAt u.tree.arena u.tree.root = s.counter.total := by
  obtain ⟨hcount, -⟩ := buildLeaves_eq s.counter.hist
  obtain ⟨hle, hsum⟩ := buildLeaves_sum hc
  have hlaid := buildLeaves_laid s.counter.hist
  have hdone := buildBody_done h
  rw [hcount] at hle hsum hlaid hdone
  rcases hdone with ⟨h0, -⟩ | ⟨hone, rfl⟩ | ⟨h2, a, hp, r, hm, rfl⟩
  · omega
  · rw [hone] at hlaid hsum ⊢
    exact ⟨hlaid.validTree_one, BitVec.eq_of_toNat_eq hsum⟩
  · exact ⟨mergeLeaves_validTree hlaid h1 hle hm,
      BitVec.eq_of_toNat_eq ((mergeLeaves_freq h1 hle (hsum ▸ s.counter.total.isLt) hm).trans hsum)⟩

/-- The leaves end where the NONE entries begin, and BUILD writes none from 2n - 1 on (R146). -/
theorem buildBody_blank {s u : State} (h : buildBody s = .done u) {i : NodeIdx} (hi : i ≠ 511#9)
    (hle : 2 * countedSymbols s.counter.hist - 1 ≤ i.toNat) : nodeAt u.tree.arena i = some Node.blank := by
  obtain ⟨a, hp, r, rfl, -, -, hframe⟩ := buildBody_installs h
  obtain ⟨-, hlist⟩ := buildLeaves_eq s.counter.hist
  have hcount := length_countedLeaves s.counter.hist
  have hi511 : i.toNat < 511 := by bv_omega
  refine (hframe i.toNat (.inr hle)).trans ?_
  rw [← Vector.getElem?_toList, hlist, List.getElem?_append_right (by omega), List.getElem?_replicate,
    if_pos (by omega)]

/-- Settles O18: the merge runs on an exact counter, its forest ends as one tree, and the tree's FREQ is the sum of the
leaves'. -/
theorem buildMakesValidTree : Obligations.BuildMakesValidTree := by
  intro s hc
  obtain ⟨u, hu⟩ := buildBody_completes hc
  have hheap : s.heap.count = 0#9 → u.heap.count = 0#9 := fun h0 => buildBody_heapAtRest h0 hu
  have hblank : ∀ i : NodeIdx, i ≠ 511#9 → 2 * countedSymbols s.counter.hist - 1 ≤ i.toNat →
      nodeAt u.tree.arena i = some Node.blank := fun _ => buildBody_blank hu
  have hvalid := buildBody_validTree hc hu
  obtain ⟨a, hp, r, rfl, -, hroot, -⟩ := buildBody_installs hu
  refine ⟨_, complete_of_done rfl hu, rfl, rfl, rfl, hheap, fun h1 => ?_, hblank⟩
  obtain ⟨htree, hfreq⟩ := hvalid h1
  exact ⟨htree, hroot h1, hfreq⟩

end Sys2Proof.Machine
end

section
/-! Reading the code table (spec/43_code_table.md R175 to R178): where codew_layout puts the bits of a code word,
GETCODE and GETENTRY case by case, and their words. -/

namespace Sys2Proof.Machine

/-! ### The layout of a code word -/

/-- One bit placed at bit 31 - j. -/
theorem getLsbD_placedBit (b : Bool) {i j : Nat} (hi : i < 32) (hj : j < 32) :
    (BitVec.setWidth 32 (BitVec.ofBool b) <<< (31 - j)).getLsbD (31 - i) = (decide (i = j) && b) := by
  rw [BitVec.getLsbD_shiftLeft, BitVec.getLsbD_setWidth, BitVec.getLsbD_ofBool]
  by_cases h : i = j
  · subst h
    simp [show 31 - i < 32 by omega]
  · by_cases hlt : i < j
    · simp [h, show 31 - i - (31 - j) ≠ 0 by omega]
    · simp [h, show 31 - i < 31 - j by omega]

/-- Bits placed from bit 31 - j on fill no bit above, and bit 31 - i holds the one of index i - j. -/
theorem getLsbD_placeBits {bs : BitString} {i j : Nat} (hi : i < 32) (hlen : j + bs.length ≤ 32) :
    (placeBits j bs).getLsbD (31 - i) = (decide (j ≤ i) && (bs[i - j]?).getD false) := by
  induction bs generalizing j with
  | nil => simp [placeBits]
  | cons b bs ih =>
    rw [List.length_cons] at hlen
    rw [placeBits, BitVec.getLsbD_or, getLsbD_placedBit b hi (by omega), ih (by omega)]
    rcases Nat.lt_trichotomy i j with hlt | rfl | hgt
    · simp [show i ≠ j by omega, show ¬ j ≤ i by omega, show ¬ j + 1 ≤ i by omega]
    · simp
    · obtain ⟨d, rfl⟩ := Nat.exists_eq_add_of_lt hgt
      simp [show j + d + 1 - j = d + 1 by omega, show j + d + 1 - (j + 1) = d by omega,
        show j + d + 1 ≠ j by omega, show j ≤ j + d + 1 by omega]

theorem getElem_codewLayout (p : BitString) {k : Nat} (hk : k < 8) : (codewLayout p)[k] = codewWord p k := by
  interval_cases k <;> rfl

/-- Settles O29: CODEWk takes the 32 bits of the code word from 32k on, first bit in bit 31. -/
theorem codewLayoutBits : Obligations.CodewLayoutBits := by
  intro p k j _ hj
  have hlen : ((p.drop (32 * k.toNat)).take 32).length ≤ 32 := List.length_take_le _ _
  rw [getElem_codewLayout p k.isLt, codewWord, getLsbD_placeBits hj (by omega), Nat.sub_zero,
    List.getElem?_take_of_lt hj, List.getElem?_drop]
  simp

/-! ### GETCODE and GETENTRY -/

theorem codewLayout_nil : codewLayout [] = Vector.replicate 8 0#32 := by decide

theorem exec_getcode_of_codes {s : State} (sym : Byte) (hv : s.codes.valid = true) :
    exec (.getcode sym) s = .next (clearBusy { s with results := getcodeResults s.codes sym }) :=
  (exec_getcode sym s).trans (complete_of_done hv rfl)

theorem exec_getentry_of_codes {s : State} (rank : Byte) (hv : s.codes.valid = true) :
    exec (.getentry rank) s = .next (clearBusy { s with results := getentryResults s.codes rank }) :=
  (exec_getentry rank s).trans (complete_of_done hv rfl)

theorem getcodeResults_of_present {c : Codes} {sym : Byte} (h : (c.ct[sym.toNat]).bits ≠ []) :
    getcodeResults c sym
      = putEntry true sym (c.ct[sym.toNat]).freq (c.ct[sym.toNat]).bits (c.ct[sym.toNat]).rank :=
  if_neg (mt List.length_eq_zero_iff.mp h)

theorem getcodeResults_of_absent {c : Codes} {sym : Byte} (h : (c.ct[sym.toNat]).bits = []) :
    getcodeResults c sym = putEntry false sym 0 [] 0 :=
  if_pos (List.length_eq_zero_iff.mpr h)

theorem getentryResults_of_lt {c : Codes} {rank : Byte} (h : rank.toNat < c.count.toNat) :
    getentryResults c rank
      = putEntry true c.order[rank.toNat] (c.ct[(c.order[rank.toNat]).toNat]).freq
          (c.ct[(c.order[rank.toNat]).toNat]).bits rank :=
  if_neg (Nat.not_le.mpr h)

theorem getentryResults_of_ge {c : Codes} {rank : Byte} (h : c.count.toNat ≤ rank.toNat) :
    getentryResults c rank
      = { res0 := 0, res1 := 0, res2 := rank.setWidth 32, codew := Vector.replicate 8 0 } :=
  if_pos h

/-- Settles O27: a symbol has an entry exactly when its BITS are not empty. -/
theorem getcodeReadsEntry : Obligations.GetcodeReadsEntry := by
  refine ⟨fun s sym hv => ⟨fun h => ?_, fun h => ?_⟩,
    fun s sym hv he => (exec_getcode sym s).trans (complete_of_not_pre hv he),
    fun w hop => decode_or_rejects_of_op (i := .getcode 0) hop rfl⟩
  · rw [exec_getcode_of_codes sym hv, getcodeResults_of_present h]
    rfl
  · rw [exec_getcode_of_codes sym hv, getcodeResults_of_absent h, putEntry, codewLayout_nil]
    rfl

/-- Settles O28: CT_COUNT tells the ranks with an entry from the others. -/
theorem getentryReadsRank : Obligations.GetentryReadsRank := by
  refine ⟨fun s rank hv => ⟨fun h => ?_, fun h => ?_⟩,
    fun s rank hv he => (exec_getentry rank s).trans (complete_of_not_pre hv he),
    fun w hop => decode_or_rejects_of_op (i := .getentry 0) hop rfl⟩
  · rw [exec_getentry_of_codes rank hv, getentryResults_of_lt h]
    rfl
  · rw [exec_getentry_of_codes rank hv, getentryResults_of_ge h]
    rfl

end Sys2Proof.Machine
end

section
/-! GENCODES makes a table whose code words part (spec/43_code_table.md R170 to R174): the triples it records are the
leaves' in the order of the walk, and the paths of two leaves part where the walk turns LEFT to one and RIGHT to the
other. -/

namespace Sys2Proof.Machine

/-! ### Records one by one -/

theorem holds_cleared (c : Codes) : c.cleared.Holds [] :=
  ⟨rfl, nofun, fun k _ hk => by simp [Codes.cleared, hk], fun v _ => by simp [Codes.cleared]⟩

/-- A record of a new symbol adds its triple at the next rank (R170). -/
theorem Codes.Holds.snoc_of_record {c c' : Codes} {es : List (Byte × Word × BitString)} {x : Byte × Word × BitString}
    (h : c.Holds es) (hnew : x.1 ∉ es.map Prod.fst) (hr : recordEntry x c = .done c') : c'.Holds (es ++ [x]) := by
  obtain ⟨hcount, hentry, horder, hblank⟩ := h
  obtain ⟨-, hroom, rfl⟩ := record_done.mp hr
  refine ⟨?_, fun k hk => ?_, fun k hk hlt => ?_, fun v hv => ?_⟩ <;> dsimp only
  · rw [List.length_append, List.length_singleton]
    bv_omega
  · by_cases hlast : k < es.length
    · obtain ⟨hk1, hk2⟩ := hentry k hlast
      have hne : x.1 ≠ es[k].1 := fun e => hnew (e ▸ List.mem_map_of_mem (List.getElem_mem hlast))
      simp only [List.getElem_append_left hlast]
      rw [Vector.getElem?_setIfInBounds_ne (by omega),
        Vector.getElem_set_ne _ _ (mt BitVec.eq_of_toNat_eq hne)]
      exact ⟨hk1, hk2⟩
    · obtain rfl : k = es.length := by rw [List.length_append, List.length_singleton] at hk; omega
      have hrank : c.count.setWidth 8 = BitVec.ofNat 8 es.length := by rw [← hcount]; rfl
      simp only [List.getElem_concat_length]
      refine ⟨?_, ?_⟩
      · rw [← hcount, Vector.getElem?_setIfInBounds_self_of_lt hroom]
      · rw [Vector.getElem_set_self, hrank]
  · rw [List.length_append, List.length_singleton] at hk
    rw [Vector.getElem?_setIfInBounds_ne (by omega)]
    exact horder k (by omega) hlt
  · rw [List.map_append, List.mem_append, not_or] at hv
    have hne : x.1 ≠ v := fun e => hv.2 (by simp [e])
    rw [Vector.getElem_set_ne _ _ (mt BitVec.eq_of_toNat_eq hne)]
    exact hblank v hv.1

/-- Records of distinct new symbols add their triples in order. -/
theorem Codes.Holds.append_of_forEach {c c' : Codes} {es xs : List (Byte × Word × BitString)} (h : c.Holds es)
    (hnodup : ((es ++ xs).map Prod.fst).Nodup) (hr : forEach recordEntry xs c = .done c') : c'.Holds (es ++ xs) := by
  induction xs generalizing es c with
  | nil =>
    cases hr
    rwa [List.append_nil]
  | cons x xs ih =>
    obtain ⟨c₁, hx, hxs⟩ := Body.andThen_eq_done.mp hr
    have hnew : x.1 ∉ es.map Prod.fst := by
      rw [List.map_append, List.map_cons, List.nodup_middle, List.nodup_cons, List.mem_append, not_or] at hnodup
      exact hnodup.1.1
    rw [List.append_cons] at hnodup ⊢
    exact ih (h.snoc_of_record hnew hx) hnodup hxs

/-! ### The triples GENCODES records -/

/-- GENCODES on `t` records exactly `es`, of distinct symbols and with paths a code word can have. -/
structure TableOf (t : Tree) (es : List (Byte × Word × BitString)) : Prop where
  records : ∀ c, genCodes t c = forEach recordEntry es c.cleared
  short : ∀ x ∈ es, x.2.2.length ≤ 255
  distinct : (es.map Prod.fst).Nodup

/-- Distinct symbols have at most 256 triples. -/
theorem TableOf.length_le {t : Tree} {es : List (Byte × Word × BitString)} (h : TableOf t es) : es.length ≤ 256 := by
  have hcard := h.distinct.length_le_card
  rwa [List.length_map, ← FinEnum.card_eq_fintypeCard, FinEnum.card_bitVec] at hcard

theorem TableOf.exec_gencodes {s : State} {es : List (Byte × Word × BitString)} (h : TableOf s.tree es)
    (hv : s.tree.valid = true) :
    ∃ c, exec .gencodes s = .next (clearBusy { s with codes := c }) ∧ c.valid = true ∧ c.Holds es := by
  have hroom : s.codes.cleared.count.toNat + es.length ≤ 256 := (Nat.zero_add _).trans_le h.length_le
  obtain ⟨c, hc⟩ := forEach_record_completes h.short hroom
  have hholds : c.Holds es := (holds_cleared s.codes).append_of_forEach h.distinct hc
  have hbody : gencodesBody s = .done { s with codes := { c with valid := true } } := by
    rw [gencodesBody, h.records, hc, Body.andThen_done]
  exact ⟨_, complete_of_done (pre := needsTree s) hv hbody, rfl, hholds⟩

theorem tableOf_empty {t : Tree} (he : t.empty = true) : TableOf t [] where
  records c := by rw [genCodes, if_pos he, forEach_nil]
  short := nofun
  distinct := .nil

theorem tableOf_single {t : Tree} (he : t.empty = false) (hs : t.single = true) (hk : kindAt t.arena t.root = .leaf) :
    TableOf t [(valueAt t.arena t.root, freqAt t.arena t.root, [false])] where
  records c := by
    obtain ⟨e, hn, hk⟩ := (kindAt_eq_iff (by simp)).mp hk
    rw [forEach_singleton, recordEntry, valueAt_eq hn, freqAt_eq hn]
    simp [genCodes, he, hs, liveNode_eq_done.mpr ⟨hn, .inl hk⟩]
  short := by simp
  distinct := by simp

/-- Where symbols and FREQs agree in order, so do the symbols. -/
theorem map_fst_of_map_pairs {α : Type} {es : List (Byte × Word × BitString)} {is : List α} {f : α → Byte}
    {g : α → Word} (h : es.map (fun x => (x.1, x.2.1)) = is.map fun i => (f i, g i)) : es.map Prod.fst = is.map f := by
  simpa [Function.comp_def] using congrArg (List.map Prod.fst) h

/-- The symbols and FREQs of the triples are the leaves', in their order. -/
theorem IdxTree.map_table (a : Arena) (T : IdxTree) (p : BitString) :
    (T.table a p).map (fun x => (x.1, x.2.1)) = T.leaves.map fun i => (valueAt a i, freqAt a i) := by
  induction T generalizing p with
  | leaf i => rfl
  | node i l r ihl ihr => rw [table, leaves, List.map_append, List.map_append, ihl, ihr]

theorem tableOf_tree {t : Tree} {T : IdxTree} (he : t.empty = false) (hs : t.single = false)
    (h : IsTree t.arena t.root T) : TableOf t (T.table t.arena []) := by
  have hleaves := h.length_leaves_le
  have hdepth := T.depth_lt_length_leaves
  obtain ⟨hroot, hfits, -, hvalues⟩ := h
  refine ⟨fun c => ?_, fun x hx => ?_, by rwa [map_fst_of_map_pairs (T.map_table _ _)]⟩
  · rw [← walk_eq_forEach_record hfits (show T.depth < 256 by omega), hroot]
    simp [genCodes, he, hs]
  · have hpath := IdxTree.length_path_le hx
    rw [List.length_nil] at hpath
    omega

/-- Settles O24: the walk records the tree's table. -/
theorem gencodesWalksTree : Obligations.GencodesWalksTree :=
  fun _ _ hv he hs hT => (tableOf_tree he hs hT).exec_gencodes hv

/-- Settles O25: the trees without a walk record one triple or none. -/
theorem gencodesSpecialTrees : Obligations.GencodesSpecialTrees :=
  ⟨fun _ hv he hs hk => (tableOf_single he hs hk).exec_gencodes hv,
    fun _ hv he => (tableOf_empty he).exec_gencodes hv,
    fun s hv he => complete_of_not_pre (pre := needsTree s) hv he,
    fun _ hop => decode_or_rejects_of_op (i := .gencodes) hop rfl⟩

/-! ### Paths part -/

/-- Neither triple's path begins with the other's. -/
def PathsPart (x y : Byte × Word × BitString) : Prop := ¬ x.2.2 <+: y.2.2 ∧ ¬ y.2.2 <+: x.2.2

theorem pathsPart_symm : Std.Symm PathsPart := ⟨fun _ _ => And.symm⟩

theorem IdxTree.path_extends {a : Arena} {T : IdxTree} {p : BitString} {x : Byte × Word × BitString}
    (hx : x ∈ T.table a p) : p <+: x.2.2 := by
  induction T generalizing p with
  | leaf i =>
    rw [table, List.mem_singleton] at hx
    rw [hx]
  | node i l r ihl ihr =>
    rcases List.mem_append.mp hx with hx | hx
    · exact (List.prefix_append p _).trans (ihl hx)
    · exact (List.prefix_append p _).trans (ihr hx)

/-- No path goes LEFT and RIGHT at one point. -/
theorem not_prefix_both {p q : BitString} (hl : p ++ [false] <+: q) (hr : p ++ [true] <+: q) : False := by
  have heq := List.IsPrefix.eq_of_length (List.prefix_of_prefix_length_le hl hr (by simp)) (by simp)
  simp at heq

/-- A path of the left subtree and one of the right part (R173). -/
theorem pathsPart_of_branches {p : BitString} {x y : Byte × Word × BitString} (hx : p ++ [false] <+: x.2.2)
    (hy : p ++ [true] <+: y.2.2) : PathsPart x y :=
  ⟨fun h => not_prefix_both (hx.trans h) hy, fun h => not_prefix_both hx (hy.trans h)⟩

theorem IdxTree.pairwise_pathsPart (a : Arena) (T : IdxTree) (p : BitString) :
    (T.table a p).Pairwise PathsPart := by
  induction T generalizing p with
  | leaf i => exact List.pairwise_singleton _ _
  | node i l r ihl ihr =>
    exact List.pairwise_append.mpr
      ⟨ihl _, ihr _, fun x hx y hy => pathsPart_of_branches (path_extends hx) (path_extends hy)⟩

/-! ### One tree below an index -/

/-- The entries determine the tree. -/
theorem IdxTree.eq_of_fits {a : Arena} {T U : IdxTree} (hT : T.fits a = true) (hU : U.fits a = true)
    (hroot : T.root = U.root) : T = U := by
  induction T generalizing U with
  | leaf i =>
    obtain ⟨e, he, hk, -⟩ := fits_leaf.mp hT
    cases U with
    | leaf j => rw [show i = j from hroot]
    | node j l r =>
      obtain ⟨⟨e', -, -, he', -, -, hk', -⟩, -⟩ := fits_node.mp hU
      obtain rfl : i = j := hroot
      obtain rfl := Option.some.inj (he.symm.trans he')
      cases hk.symm.trans hk'
  | node i l r ihl ihr =>
    obtain ⟨⟨e, -, -, he, -, -, hk, hleft, hright, -⟩, hl, hr⟩ := fits_node.mp hT
    cases U with
    | leaf j =>
      obtain ⟨e', he', hk', -⟩ := fits_leaf.mp hU
      obtain rfl : i = j := hroot
      obtain rfl := Option.some.inj (he.symm.trans he')
      cases hk.symm.trans hk'
    | node j l' r' =>
      obtain ⟨⟨e', -, -, he', -, -, -, hleft', hright', -⟩, hl', hr'⟩ := fits_node.mp hU
      obtain rfl : i = j := hroot
      obtain rfl := Option.some.inj (he.symm.trans he')
      rw [ihl hl hl' (hleft.symm.trans hleft'), ihr hr hr' (hright.symm.trans hright')]

theorem IsTree.unique {a : Arena} {r : NodeIdx} {T U : IdxTree} (hT : IsTree a r T) (hU : IsTree a r U) : T = U := by
  obtain ⟨hroot, hfits, -⟩ := hT
  obtain ⟨hroot', hfits', -⟩ := hU
  exact IdxTree.eq_of_fits hfits hfits' (hroot.trans hroot'.symm)

/-- No tree hangs from index 511. -/
theorem IsTree.root_ne_none {a : Arena} {r : NodeIdx} {T : IdxTree} (h : IsTree a r T) : r ≠ 511#9 := by
  obtain ⟨rfl, hfits, -⟩ := h
  obtain ⟨e, he, -⟩ := IdxTree.root_landsIn_inner hfits
  exact nodeAt_isSome.mp (by rw [he]; rfl)

/-- A tree with a LEAF at its root is that leaf. -/
theorem IsTree.eq_leaf {a : Arena} {r : NodeIdx} {T : IdxTree} (h : IsTree a r T) (hk : kindAt a r = .leaf) :
    T = .leaf r := by
  obtain ⟨rfl, hfits, -⟩ := h
  cases T with
  | leaf i => rfl
  | node i L R =>
    obtain ⟨⟨e, -, -, he, -, -, hk', -⟩, -⟩ := IdxTree.fits_node.mp hfits
    cases hk.symm.trans ((kindAt_eq_iff (by simp)).mpr ⟨e, he, hk'⟩)

/-! ### The table of a consistent tree -/

/-- The triples of a consistent tree: NLEAF code words, none empty, none that begins with another, one per leaf of the
tree that hangs from ROOT. -/
structure CodeTableOf (t : Tree) (es : List (Byte × Word × BitString)) : Prop extends TableOf t es where
  ofEmpty : t.empty = true → es = []
  length_eq : es.length = t.nleaf.toNat
  nonempty : ∀ x ∈ es, x.2.2 ≠ []
  part : es.Pairwise PathsPart
  leaves : ∀ T, IsTree t.arena t.root T →
    es.map (fun x => (x.1, x.2.1)) = T.leaves.map fun i => (valueAt t.arena i, freqAt t.arena i)

/-- In a tree with an INTERNAL root every leaf lies below one edge or more. -/
theorem IsTree.path_ne_nil {a : Arena} {r : NodeIdx} {T : IdxTree} (h : IsTree a r T) (hk : kindAt a r = .internal)
    {x : Byte × Word × BitString} (hx : x ∈ T.table a []) : x.2.2 ≠ [] := by
  obtain ⟨rfl, hfits, -⟩ := h
  cases T with
  | leaf i =>
    obtain ⟨e, he, hk', -⟩ := IdxTree.fits_leaf.mp hfits
    cases hk.symm.trans ((kindAt_eq_iff (by simp)).mpr ⟨e, he, hk'⟩)
  | node i L R =>
    rcases List.mem_append.mp hx with hx | hx <;> exact (IdxTree.path_extends hx).ne_nil (by simp)

/-- Every consistent tree has such triples, by the three cases of R32. -/
theorem TreeConsistent.codeTable {t : Tree} (h : TreeConsistent t) (hv : t.valid = true) :
    ∃ es, CodeTableOf t es := by
  rw [TreeConsistent, if_pos hv] at h
  rcases h with ⟨he, -, hroot, hn⟩ | ⟨he, hs, hk, hn⟩ | ⟨he, hs, hk, ⟨T, hT, hn⟩, -⟩
  · refine ⟨_, tableOf_empty he, fun _ => rfl, by rw [hn]; rfl, nofun, .nil, fun T hT => ?_⟩
    exact absurd hroot hT.root_ne_none
  · refine ⟨_, tableOf_single he hs hk, by simp [he], by rw [hn]; rfl, by simp,
      List.pairwise_singleton _ _, fun T hT => ?_⟩
    rw [hT.eq_leaf hk]
    rfl
  · refine ⟨_, tableOf_tree he hs hT, by simp [he], by rw [IdxTree.length_table, hn], fun _ => hT.path_ne_nil hk,
      T.pairwise_pathsPart _ _, fun U hU => ?_⟩
    rw [hT.unique hU, IdxTree.map_table]

/-! ### Reading a held table -/

theorem Codes.Holds.count_eq {c : Codes} {es : List (Byte × Word × BitString)} (h : c.Holds es) :
    c.count.toNat = es.length := h.1

theorem Codes.Holds.entry {c : Codes} {es : List (Byte × Word × BitString)} {x : Byte × Word × BitString}
    (h : c.Holds es) (hx : x ∈ es) : (c.ct[x.1.toNat]).bits = x.2.2 ∧ (c.ct[x.1.toNat]).freq = x.2.1 := by
  obtain ⟨-, hentry, -⟩ := h
  obtain ⟨k, hk, rfl⟩ := List.mem_iff_getElem.mp hx
  rw [(hentry k hk).2]
  exact ⟨rfl, rfl⟩

/-- A symbol with a code word is the symbol of a triple. -/
theorem Codes.Holds.exists_of_bits {c : Codes} {es : List (Byte × Word × BitString)} {v : Byte} (h : c.Holds es)
    (hb : (c.ct[v.toNat]).bits ≠ []) : ∃ x ∈ es, x.1 = v := by
  obtain ⟨-, -, -, hblank⟩ := h
  by_contra hno
  refine hb ?_
  rw [hblank v fun hv => hno (List.mem_map.mp hv)]
  rfl

theorem Codes.Holds.bits_ne_nil_iff {c : Codes} {es : List (Byte × Word × BitString)} (h : c.Holds es)
    (hne : ∀ x ∈ es, x.2.2 ≠ []) (v : Byte) : (c.ct[v.toNat]).bits ≠ [] ↔ v ∈ es.map Prod.fst := by
  refine ⟨fun hb => List.mem_map.mpr (h.exists_of_bits hb), fun hv => ?_⟩
  obtain ⟨x, hx, rfl⟩ := List.mem_map.mp hv
  rw [(h.entry hx).1]
  exact hne x hx

theorem Codes.Holds.length_bits_le {c : Codes} {es : List (Byte × Word × BitString)} (h : c.Holds es)
    (hshort : ∀ x ∈ es, x.2.2.length ≤ 255) (v : Byte) : (c.ct[v.toNat]).bits.length ≤ 255 := by
  by_cases hb : (c.ct[v.toNat]).bits = []
  · simp [hb]
  · obtain ⟨x, hx, rfl⟩ := h.exists_of_bits hb
    rw [(h.entry hx).1]
    exact hshort x hx

theorem Codes.Holds.not_prefix {c : Codes} {es : List (Byte × Word × BitString)} (h : c.Holds es)
    (hpart : es.Pairwise PathsPart) {u v : Byte} (huv : u ≠ v) (hu : (c.ct[u.toNat]).bits ≠ [])
    (hv : (c.ct[v.toNat]).bits ≠ []) : ¬ (c.ct[u.toNat]).bits <+: (c.ct[v.toNat]).bits := by
  obtain ⟨x, hx, rfl⟩ := h.exists_of_bits hu
  obtain ⟨y, hy, rfl⟩ := h.exists_of_bits hv
  have hsymm := pathsPart_symm
  have hxy : x ≠ y := fun e => huv (congrArg Prod.fst e)
  rw [(h.entry hx).1, (h.entry hy).1]
  exact (hpart.forall hx hy hxy).1

/-- Settles O26: GENCODES holds the triples of the consistent tree, and each part is one of theirs. -/
theorem gencodesPrefixFree : Obligations.GencodesPrefixFree := by
  intro s hv ht
  obtain ⟨es, htable, hempty, hlength, hne, hpart, hleaves⟩ := ht.codeTable hv
  obtain ⟨c, hexec, -, hc⟩ := htable.exec_gencodes hv
  refine ⟨c, hexec, BitVec.eq_of_toNat_eq (hc.count_eq.trans hlength), fun he v => ?_, fun T hT v => ?_,
    hc.length_bits_le htable.short, fun u v => hc.not_prefix hpart, fun T hT i hi => ?_⟩
  · rw [← not_ne_iff, hc.bits_ne_nil_iff hne, hempty he]
    exact List.not_mem_nil
  · rw [hc.bits_ne_nil_iff hne, map_fst_of_map_pairs (hleaves T hT)]
  · have hmem := List.mem_map_of_mem (f := fun i => (valueAt s.tree.arena i, freqAt s.tree.arena i)) hi
    rw [← hleaves T hT] at hmem
    obtain ⟨x, hx, hxi⟩ := List.mem_map.mp hmem
    obtain ⟨hvalue, hfreq⟩ := Prod.mk.inj hxi
    simpa only [hvalue, hfreq] using (hc.entry hx).2

end Sys2Proof.Machine
end

section
/-! The encoder (spec/44_encoder.md R190 to R195): append_bit writes the next bit of the stream, and a list of bits runs
to its end exactly when its completed words fit in OUT. ENC and ENCW append the bits of their symbols' code words. -/

namespace Sys2Proof.Machine

/-! ### One bit -/

@[simp] theorem wordBits_zero (w : Word) : wordBits 0 w = [] := rfl

theorem wordBits_succ_assignBit {n : Nat} (w : Word) (b : Bool) (hn : n < 32) :
    wordBits (n + 1) (assignBit w (31 - n) b) = wordBits n w ++ [b] := by
  unfold wordBits
  rw [List.range_succ, List.map_append, List.map_singleton, assignBit_getLsbD _ _ _ _ (by omega), if_pos rfl]
  congr 1
  refine List.map_congr_left fun k hk => ?_
  have hk := List.mem_range.mp hk
  rw [assignBit_getLsbD _ _ _ _ (by omega), if_neg (by omega)]

theorem appendBit_of_full {depth : Nat} {b : Bool} {p : Packer} (hc : p.packcnt.toNat = 31)
    (hfull : p.out.length = depth) : appendBit depth b p = .raised .outFull :=
  appendBit_raised.mpr ⟨hc, hfull, rfl⟩

theorem appendBit_of_last {depth : Nat} {b : Bool} {p : Packer} (hc : p.packcnt.toNat = 31)
    (hroom : p.out.length ≠ depth) :
    appendBit depth b p = .done { pack := 0#32, packcnt := 0#5, bitcnt := p.bitcnt + 1#64
                                  out := p.out ++ [assignBit p.pack (31 - p.packcnt.toNat) b] } :=
  (if_pos (congrArg (· + 1) hc)).trans (if_neg hroom)

theorem appendBit_of_not_last {depth : Nat} {b : Bool} {p : Packer} (hc : p.packcnt.toNat ≠ 31) :
    appendBit depth b p = .done { pack := assignBit p.pack (31 - p.packcnt.toNat) b, packcnt := p.packcnt + 1#5
                                  bitcnt := p.bitcnt + 1#64, out := p.out } :=
  if_neg (mt Nat.succ.inj hc)

theorem toNat_packcnt_succ {c : BitVec 5} (hc : c.toNat ≠ 31) : (c + 1#5).toNat = c.toNat + 1 := by bv_omega

theorem streamOf_of_appendBit {depth : Nat} {b : Bool} {p p' : Packer} (h : appendBit depth b p = .done p') :
    streamOf p' = streamOf p ++ [b] := by
  have hbits := wordBits_succ_assignBit p.pack b p.packcnt.isLt
  rcases appendBit_done h with ⟨hc, -, rfl⟩ | ⟨hc, rfl⟩
  · rw [hc] at hbits
    simpa [streamOf, hc] using hbits
  · simp [streamOf, toNat_packcnt_succ hc, hbits]

/-- A bit that completes no word does not depend on OUT_DEPTH, so the invariant of the packer serves at any depth. -/
theorem packClean_of_appendBit {depth : Nat} {b : Bool} {p p' : Packer} (h : appendBit depth b p = .done p')
    (hp : PackClean p) : PackClean p' := by
  rcases appendBit_done h with ⟨-, -, rfl⟩ | ⟨hc, rfl⟩
  · exact fun _ _ => BitVec.getLsbD_zero
  · exact (appendBit_keeps_packerGood ⟨le_rfl, hp⟩ (appendBit_of_not_last hc)).clean

/-- Settles O30: the word is PACK with the bit assigned. -/
theorem appendBitPacks : Obligations.AppendBitPacks := fun _ b p =>
  ⟨assignBit p.pack (31 - p.packcnt.toNat) b, fun _ hj => assignBit_getLsbD _ _ _ _ hj, appendBit_of_full,
    appendBit_of_last, appendBit_of_not_last,
    fun _ h => ⟨streamOf_of_appendBit h, packClean_of_appendBit h⟩⟩

/-! ### A list of bits -/

/-- How many bits OUT and PACK hold. -/
def Packer.fill (p : Packer) : Nat := 32 * p.out.length + p.packcnt.toNat

theorem Packer.length_out (p : Packer) : p.out.length = p.fill / 32 := by
  have := p.packcnt.isLt
  unfold Packer.fill
  omega

theorem Packer.packcnt_eq (p : Packer) : p.packcnt.toNat = p.fill % 32 := by
  have := p.packcnt.isLt
  unfold Packer.fill
  omega

/-- `n` more bits fit: the words they complete find room in OUT (R193, R197). -/
def Packer.Fits (depth n : Nat) (p : Packer) : Prop := (p.packcnt.toNat + n) / 32 + p.out.length ≤ depth

theorem Packer.fits_iff {depth n : Nat} {p : Packer} : p.Fits depth n ↔ p.fill + n < 32 * (depth + 1) := by
  unfold Packer.Fits Packer.fill
  omega

theorem Packer.not_fits_iff {depth n : Nat} {p : Packer} : ¬ p.Fits depth n ↔ 32 * (depth + 1) ≤ p.fill + n := by
  rw [Packer.fits_iff, Nat.not_lt]

theorem Packer.fits_zero_iff {depth : Nat} {p : Packer} : p.Fits depth 0 ↔ p.out.length ≤ depth := by
  have := p.packcnt.isLt
  unfold Packer.Fits
  omega

/-- What appending the bits makes of the packer. -/
structure Appended (bits : BitString) (p p' : Packer) : Prop where
  stream : streamOf p' = streamOf p ++ bits
  bitcnt : p'.bitcnt = p.bitcnt + BitVec.ofNat 64 bits.length
  fill : p'.fill = p.fill + bits.length
  out_prefix : p.out <+: p'.out
  clean : PackClean p → PackClean p'

theorem Appended.nil (p : Packer) : Appended [] p p where
  stream := (List.append_nil _).symm
  bitcnt := (BitVec.add_zero _).symm
  fill := rfl
  out_prefix := List.prefix_rfl
  clean := id

theorem Appended.trans {bs cs : BitString} {p q r : Packer} (h : Appended bs p q) (h' : Appended cs q r) :
    Appended (bs ++ cs) p r where
  stream := by rw [h'.stream, h.stream, List.append_assoc]
  bitcnt := by rw [h'.bitcnt, h.bitcnt, List.length_append, BitVec.ofNat_add, BitVec.add_assoc]
  fill := by rw [h'.fill, h.fill, List.length_append, Nat.add_assoc]
  out_prefix := h.out_prefix.trans h'.out_prefix
  clean := h'.clean ∘ h.clean

theorem appended_of_appendBit {depth : Nat} {b : Bool} {p p' : Packer} (h : appendBit depth b p = .done p') :
    Appended [b] p p' where
  stream := streamOf_of_appendBit h
  bitcnt := by rcases appendBit_done h with ⟨-, -, rfl⟩ | ⟨-, rfl⟩ <;> rfl
  fill := by
    rcases appendBit_done h with ⟨hc, -, rfl⟩ | ⟨hc, rfl⟩
    · simp [Packer.fill, hc, Nat.mul_add]
    · simp only [Packer.fill, toNat_packcnt_succ hc, List.length_singleton, Nat.add_assoc]
  out_prefix := appendBit_out_prefix h
  clean := packClean_of_appendBit h

theorem appendBit_of_fits {depth : Nat} (b : Bool) {p : Packer} (h : p.Fits depth 1) :
    ∃ p', appendBit depth b p = .done p' := by
  by_cases hc : p.packcnt.toNat = 31
  · exact ⟨_, appendBit_of_last hc (by unfold Packer.Fits at h; omega)⟩
  · exact ⟨_, appendBit_of_not_last hc⟩

theorem appendBit_of_not_fits {depth : Nat} (b : Bool) {p : Packer} (hp : p.Fits depth 0) (h : ¬ p.Fits depth 1) :
    appendBit depth b p = .raised .outFull := by
  have := p.packcnt.isLt
  unfold Packer.Fits at hp h
  exact appendBit_of_full (by omega) (by omega)

/-- Bits that fit are all appended. -/
theorem appendBits_of_fits {depth : Nat} {bits : BitString} {p : Packer} (h : p.Fits depth bits.length) :
    ∃ p', forEach (appendBit depth) bits p = .done p' ∧ Appended bits p p' := by
  induction bits generalizing p with
  | nil => exact ⟨p, rfl, .nil p⟩
  | cons b bs ih =>
    rw [Packer.fits_iff, List.length_cons] at h
    obtain ⟨q, hb⟩ := appendBit_of_fits (depth := depth) b (Packer.fits_iff.mpr (by omega : p.fill + 1 < _))
    have hq := appended_of_appendBit hb
    obtain ⟨p', hbs, hp'⟩ := ih (Packer.fits_iff.mpr (by rw [hq.fill, List.length_singleton]; omega))
    exact ⟨p', by rw [forEach_cons, hb, Body.andThen_done, hbs], hq.trans hp'⟩

/-- Of bits that do not fit, one completes a word while OUT is full (R193). -/
theorem appendBits_of_not_fits {depth : Nat} {bits : BitString} {p : Packer} (hp : p.Fits depth 0)
    (h : ¬ p.Fits depth bits.length) : forEach (appendBit depth) bits p = .raised .outFull := by
  induction bits generalizing p with
  | nil => exact absurd hp h
  | cons b bs ih =>
    rw [forEach_cons]
    by_cases h1 : p.Fits depth 1
    · obtain ⟨q, hb⟩ := appendBit_of_fits b h1
      have hq := (appended_of_appendBit hb).fill
      rw [List.length_singleton] at hq
      rw [hb, Body.andThen_done]
      refine ih (Packer.fits_iff.mpr (hq ▸ Packer.fits_iff.mp h1)) (Packer.not_fits_iff.mpr ?_)
      rw [Packer.not_fits_iff, List.length_cons] at h
      omega
    · rw [appendBit_of_not_fits b hp h1, Body.andThen_raised]

/-! ### Symbols -/

/-- The code words of the symbols, one after another (R199). -/
def codeWords (c : Codes) (syms : List Byte) : BitString := syms.flatMap fun x => (c.ct[x.toNat]).bits

theorem codeWords_singleton (c : Codes) (sym : Byte) : codeWords c [sym] = (c.ct[sym.toNat]).bits :=
  List.flatMap_singleton _ _

/-- Encoding symbols that have entries is appending the bits of their code words (R191). -/
theorem encodeSymbols_eq_appendBits {depth : Nat} {c : Codes} {syms : List Byte} {p : Packer}
    (h : ∀ x ∈ syms, (c.ct[x.toNat]).bits ≠ []) :
    forEach (encodeSymbol depth c) syms p = forEach (appendBit depth) (codeWords c syms) p := by
  induction syms generalizing p with
  | nil => rfl
  | cons x xs ih =>
    obtain ⟨hx, hxs⟩ := List.forall_mem_cons.mp h
    rw [codeWords, List.flatMap_cons, forEach_append, forEach_cons, encodeSymbol_eq, if_neg hx]
    exact congrArg _ (funext fun _ => ih hxs)

theorem encodeSymbols_of_fits {depth : Nat} {c : Codes} {syms : List Byte} {p : Packer}
    (h : ∀ x ∈ syms, (c.ct[x.toNat]).bits ≠ []) (hfits : p.Fits depth (codeWords c syms).length) :
    ∃ p', forEach (encodeSymbol depth c) syms p = .done p' ∧ Appended (codeWords c syms) p p' := by
  rw [encodeSymbols_eq_appendBits h]
  exact appendBits_of_fits hfits

theorem encodeSymbols_of_not_fits {depth : Nat} {c : Codes} {syms : List Byte} {p : Packer}
    (h : ∀ x ∈ syms, (c.ct[x.toNat]).bits ≠ []) (hp : p.out.length ≤ depth)
    (hfits : ¬ p.Fits depth (codeWords c syms).length) :
    forEach (encodeSymbol depth c) syms p = .raised .outFull := by
  rw [encodeSymbols_eq_appendBits h]
  exact appendBits_of_not_fits (Packer.fits_zero_iff.mpr hp) hfits

/-- A symbol without an entry raises LOOKUP_ERROR once the symbols before it are encoded. -/
theorem encodeSymbols_of_absent {depth : Nat} {c : Codes} {pre : List Byte} {x : Byte} {p : Packer}
    (h : ∀ y ∈ pre, (c.ct[y.toNat]).bits ≠ []) (hfits : p.Fits depth (codeWords c pre).length)
    (hx : (c.ct[x.toNat]).bits = []) : forEach (encodeSymbol depth c) (pre ++ [x]) p = .raised .lookupError := by
  obtain ⟨q, hpre, -⟩ := encodeSymbols_of_fits h hfits
  rw [forEach_append, hpre, Body.andThen_done, forEach_singleton, encodeSymbol_eq, if_pos hx]

theorem forEach_append_of_raised {α β : Type} {f : β → α → Body α} {xs : List β} {a : α} {e : ErrCode}
    (h : forEach f xs a = .raised e) (ys : List β) : forEach f (xs ++ ys) a = .raised e := by
  rw [forEach_append, h, Body.andThen_raised]

/-! ### ENC and ENCW -/

theorem encodeBody_of_done {syms : List Byte} {s : State} {p : Packer}
    (h : forEach (encodeSymbol s.params.outDepth s.codes) syms s.packer = .done p) :
    encodeBody syms s = .done { s with packer := p } := by
  rw [encodeBody, h, Body.andThen_done]

theorem encodeBody_of_raised {syms : List Byte} {s : State} {e : ErrCode}
    (h : forEach (encodeSymbol s.params.outDepth s.codes) syms s.packer = .raised e) :
    encodeBody syms s = .raised e := by
  rw [encodeBody, h, Body.andThen_raised]

theorem exec_enc_of_done {sym : Byte} {s : State} {p : Packer} (hv : s.codes.valid = true)
    (h : forEach (encodeSymbol s.params.outDepth s.codes) [sym] s.packer = .done p) :
    exec (.enc sym) s = .next (clearBusy { s with packer := p }) :=
  complete_of_done hv (encodeBody_of_done h)

theorem exec_enc_of_raised {sym : Byte} {s : State} {e : ErrCode} (hv : s.codes.valid = true) (he : s.port.err = .none)
    (h : forEach (encodeSymbol s.params.outDepth s.codes) [sym] s.packer = .raised e) :
    exec (.enc sym) s = .next (latched e s) :=
  complete_of_raised hv (encodeBody_of_raised h) he

/-- One ENC per symbol is the loop over the symbols: BUSY is all the completions in between write besides the packer. -/
theorem execAll_enc_of_done {x : Byte} {xs : List Byte} {s : State} {p : Packer} (hv : s.codes.valid = true)
    (h : forEach (encodeSymbol s.params.outDepth s.codes) (x :: xs) s.packer = .done p) :
    execAll ((x :: xs).map .enc) s = .next (clearBusy { s with packer := p }) := by
  obtain ⟨q, hx, hxs⟩ := Body.andThen_eq_done.mp h
  rw [List.map_cons, execAll, exec_enc_of_done hv (by rwa [forEach_singleton])]
  cases xs with
  | nil => cases hxs; rfl
  | cons y ys => exact execAll_enc_of_done (s := clearBusy { s with packer := q }) hv hxs

/-- Settles O31: ENC is the loop over the one symbol, and its code word fits or does not. -/
theorem encAppendsCodeWord : Obligations.EncAppendsCodeWord := by
  refine ⟨fun s sym hv hbits hlevel => ?_, fun s sym hv hbits he => ?_,
    fun s sym hv he => (exec_enc sym s).trans (complete_of_not_pre hv he),
    fun w hop => decode_or_rejects_of_op (i := .enc 0) hop rfl⟩
  · have hentry : ∀ x ∈ [sym], (s.codes.ct[x.toNat]).bits ≠ [] := List.forall_mem_singleton.mpr hbits
    rw [← codeWords_singleton]
    refine ⟨fun hfits => ?_, fun hfull he => ?_⟩
    · obtain ⟨p, hp, happ⟩ := encodeSymbols_of_fits hentry hfits
      refine ⟨p, exec_enc_of_done hv hp, happ.stream, happ.bitcnt, ?_, ?_, happ.out_prefix, happ.clean⟩
      · rw [p.packcnt_eq, happ.fill, Packer.fill]
        omega
      · rw [p.length_out, happ.fill, Packer.fill]
        omega
    · exact exec_enc_of_raised hv he (encodeSymbols_of_not_fits hentry hlevel (Nat.not_le.mpr hfull))
  · refine exec_enc_of_raised hv he ?_
    rw [forEach_singleton, encodeSymbol_eq, if_pos hbits]

/-- Settles O32: ENCW is the loop over the lanes, which runs to its end as one ENC per lane, or ends at the first lane
that fails. -/
theorem encwAppendsLanes : Obligations.EncwAppendsLanes := by
  refine ⟨fun w nb => rfl, fun s nb hv hlevel => ⟨fun hentries hfits => ?_, fun pre x post hlanes hpre hfits he => ?_⟩,
    fun s nb hv he => (exec_encw nb s).trans (complete_of_not_pre hv he),
    fun w hop => decode_or_rejects_of_op (i := .encw 0) hop rfl⟩
  · obtain ⟨p, hp, happ⟩ := encodeSymbols_of_fits hentries hfits
    have hexec : exec (.encw nb) s = .next (clearBusy { s with packer := p }) :=
      complete_of_done hv (encodeBody_of_done hp)
    refine ⟨⟨p, hexec, happ.stream, happ.bitcnt, ?_, happ.out_prefix, happ.clean⟩, ?_⟩
    · rw [p.length_out, happ.fill, Packer.fill, codeWords]
      omega
    · obtain ⟨x, xs, hlanes⟩ := List.exists_cons_of_length_eq_add_one (length_lanes s.port.arg0 nb)
      rw [hlanes] at hp ⊢
      rw [hexec, execAll_enc_of_done hv hp]
  · have hraise {e : ErrCode}
        (h : forEach (encodeSymbol s.params.outDepth s.codes) (pre ++ [x]) s.packer = .raised e) :
        exec (.encw nb) s = .next (latched e s) := by
      refine complete_of_raised hv (encodeBody_of_raised ?_) he
      rw [hlanes, List.append_cons]
      exact forEach_append_of_raised h post
    refine ⟨fun hx => hraise (encodeSymbols_of_absent hpre hfits hx), fun hx hfull => ?_⟩
    have hentries : ∀ y ∈ pre ++ [x], (s.codes.ct[y.toNat]).bits ≠ [] :=
      List.forall_mem_append.mpr ⟨hpre, List.forall_mem_singleton.mpr hx⟩
    exact hraise (encodeSymbols_of_not_fits hentries hlevel (Nat.not_le.mpr hfull))

/-! ### FLUSH -/

theorem flushBody_of_empty {s : State} (hc : s.packer.packcnt = 0#5) : flushBody s = .done s := if_pos hc

theorem flushBody_of_room {s : State} (hc : s.packer.packcnt ≠ 0#5)
    (hroom : s.packer.out.length ≠ s.params.outDepth) :
    flushBody s = .done { s with packer :=
      { s.packer with pack := 0#32, packcnt := 0#5, out := s.packer.out ++ [s.packer.pack] } } :=
  (if_neg hc).trans (if_neg hroom)

theorem flushBody_of_full {s : State} (hc : s.packer.packcnt ≠ 0#5)
    (hfull : s.packer.out.length = s.params.outDepth) : flushBody s = .raised .outFull :=
  (if_neg hc).trans (if_pos hfull)

/-- Settles O33: without a partial word, with room for it, and with OUT full. -/
theorem flushPushesPartialWord : Obligations.FlushPushesPartialWord :=
  ⟨fun _ => ⟨fun hc => complete_of_done rfl (flushBody_of_empty hc),
      fun hc hroom => complete_of_done rfl (flushBody_of_room hc hroom),
      fun hc hfull he => complete_of_raised rfl (flushBody_of_full hc hfull) he⟩,
    fun _ hop => decode_or_rejects_of_op (i := .flush) hop rfl⟩

end Sys2Proof.Machine
end

section
/-! The decoder (spec/45_decoder.md R210 to R219): each bit arrives at a leaf, which it emits, or at an
INTERNAL entry. So a leaf's path decodes to its symbol, and the code words of a list of symbols decode to the list. -/

namespace Sys2Proof.Machine

/-! ### What a run of bits leaves -/

/-- The decoder once DEC_PTR stands at `i` and the symbols `vs` have been emitted. -/
def Decoder.after (i : NodeIdx) (vs : List Byte) (d : Decoder) : Decoder where
  ptr := i
  count := d.count + BitVec.ofNat 32 vs.length
  sym := d.sym ++ vs

@[simp] theorem Decoder.after_ptr (i : NodeIdx) (vs : List Byte) (d : Decoder) : (d.after i vs).ptr = i := rfl

@[simp] theorem Decoder.length_sym_after (i : NodeIdx) (vs : List Byte) (d : Decoder) :
    (d.after i vs).sym.length = d.sym.length + vs.length := List.length_append

theorem Decoder.after_nil (i : NodeIdx) (d : Decoder) : d.after i [] = { d with ptr := i } := by simp [after]

theorem Decoder.after_after (i j : NodeIdx) (vs ws : List Byte) (d : Decoder) :
    (d.after i vs).after j ws = d.after j (vs ++ ws) := by
  simp [after, BitVec.ofNat_add, BitVec.add_assoc]

theorem emit_of_room {depth : Nat} {v : Byte} {d : Decoder} (h : d.sym.length ≠ depth) :
    emit depth v d = .done (d.after d.ptr [v]) := if_neg h

/-! ### One bit -/

/-- A LEAF or an INTERNAL entry stands at `i`. -/
abbrev LiveAt (a : Arena) (i : NodeIdx) : Prop := kindAt a i = .leaf ∨ kindAt a i = .internal

theorem liveNode_of_liveAt {off : Fault} {a : Arena} {i : NodeIdx} (h : LiveAt a i) :
    ∃ e, liveNode off a i = .done e ∧ e.kind = kindAt a i ∧ e.value = valueAt a i := by
  have hsome : kindAt a i ≠ .none := by rcases h with h | h <;> simp [h]
  obtain ⟨e, hn, hk⟩ := (kindAt_eq_iff hsome).mp rfl
  exact ⟨e, liveNode_eq_done.mpr ⟨hn, by rwa [hk]⟩, hk, (valueAt_eq hn).symm⟩

/-- Where a bit on a tree of two or more leaves ends: a LEAF is emitted and the walk restarts at ROOT, an INTERNAL entry
becomes DEC_PTR (R212). -/
def arriveAt (depth : Nat) (t : Tree) (i : NodeIdx) (d : Decoder) : Body Decoder :=
  if kindAt t.arena i = .leaf then emit depth (valueAt t.arena i) { d with ptr := t.root }
  else .done { d with ptr := i }

theorem arriveAt_leaf {depth : Nat} {t : Tree} {i : NodeIdx} {d : Decoder} (h : kindAt t.arena i = .leaf) :
    arriveAt depth t i d = emit depth (valueAt t.arena i) { d with ptr := t.root } := if_pos h

theorem arriveAt_internal {depth : Nat} {t : Tree} {i : NodeIdx} {d : Decoder} (h : kindAt t.arena i = .internal) :
    arriveAt depth t i d = .done { d with ptr := i } := if_neg (by simp [h])

theorem decodeBit_of_empty {depth : Nat} {t : Tree} {b : Bool} {d : Decoder} (he : t.empty = true) :
    decodeBit depth t b d = .raised .malformedBitstream := if_pos he

theorem decodeBit_single_one {depth : Nat} {t : Tree} {d : Decoder} (he : t.empty = false) (hs : t.single = true) :
    decodeBit depth t true d = .raised .malformedBitstream := by simp [decodeBit, singleBit, he, hs]

theorem decodeBit_single_zero {depth : Nat} {t : Tree} {d : Decoder} (he : t.empty = false) (hs : t.single = true)
    (hk : kindAt t.arena t.root = .leaf) : decodeBit depth t false d = emit depth (valueAt t.arena t.root) d := by
  obtain ⟨e, hlive, -, hvalue⟩ := liveNode_of_liveAt (off := .decodeOffTree) (.inl hk)
  simp [decodeBit, singleBit, he, hs, hlive, hvalue]

theorem decodeBit_of_tree {depth : Nat} {t : Tree} {b : Bool} {d : Decoder} (he : t.empty = false)
    (hs : t.single = false) : decodeBit depth t b d = stepBit depth t b d := by simp [decodeBit, he, hs]

theorem decodeBit_of_none {depth : Nat} {t : Tree} {b : Bool} {d : Decoder} {e : Node} (he : t.empty = false)
    (hs : t.single = false) (hn : nodeAt t.arena d.ptr = some e) (hk : e.kind = .none) :
    decodeBit depth t b d = .broken .decodeOffTree := by
  simp [decodeBit_of_tree he hs, stepBit, liveNode, hn, hk]

/-- A bit at an INTERNAL entry goes to the child it names (R212). -/
theorem decodeBit_of_internal {depth : Nat} {t : Tree} {b : Bool} {d : Decoder} {e : Node} (he : t.empty = false)
    (hs : t.single = false) (hn : nodeAt t.arena d.ptr = some e) (hk : e.kind = .internal)
    (hchild : LiveAt t.arena (if b then e.right else e.left)) :
    decodeBit depth t b d = arriveAt depth t (if b then e.right else e.left) d := by
  obtain ⟨e', hlive, hkind, hvalue⟩ := liveNode_of_liveAt hchild
  rw [decodeBit_of_tree he hs, stepBit, liveNode_eq_done.mpr ⟨hn, .inr hk⟩, Body.andThen_done, if_neg (by simp [hk]),
    hlive, Body.andThen_done, arriveAt, hkind, hvalue]

/-- Settles O34, on each kind of tree and at each kind of entry. -/
theorem decodeBitWalks : Obligations.DecodeBitWalks :=
  ⟨fun _ _ _ _ => decodeBit_of_empty,
    fun _ _ _ he hs => ⟨decodeBit_single_one he hs, decodeBit_single_zero he hs⟩,
    fun _ _ _ _ _ he hs hn =>
      ⟨fun hk => ⟨fun hleaf => (decodeBit_of_internal he hs hn hk (.inl hleaf)).trans (arriveAt_leaf hleaf),
          fun hinner => (decodeBit_of_internal he hs hn hk (.inr hinner)).trans (arriveAt_internal hinner)⟩,
        decodeBit_of_none he hs hn⟩,
    fun _ _ _ => ⟨fun hfull => emit_raised.mpr ⟨hfull, rfl⟩, emit_of_room⟩⟩

/-! ### Bits that are sure to run -/

theorem IdxTree.LandsIn.liveAt {a : Arena} {is : List NodeIdx} {i : NodeIdx} (h : LandsIn a is i) : LiveAt a i := by
  obtain ⟨e, hn, hk⟩ := h
  simpa [LiveAt, kindAt, hn] using hk.imp_right And.left

/-- With room in SYM, arriving at a node emits one symbol or none. -/
theorem arriveAt_completes {depth : Nat} {t : Tree} {i : NodeIdx} {d : Decoder} (hroom : d.sym.length < depth) :
    ∃ j new, new.length ≤ 1 ∧ arriveAt depth t i d = .done (d.after j new) := by
  by_cases hk : kindAt t.arena i = .leaf
  · exact ⟨t.root, [valueAt t.arena i], le_rfl, (arriveAt_leaf hk).trans (emit_of_room hroom.ne)⟩
  · exact ⟨i, [], Nat.zero_le 1, by rw [arriveAt, if_neg hk, Decoder.after_nil]⟩

/-- On a consistent tree that is not empty a bit runs when SYM has room for a symbol and a single leaf gets a 0. -/
theorem decodeBit_completes {depth : Nat} {t : Tree} {b : Bool} {d : Decoder} (hv : t.valid = true)
    (ht : TreeConsistent t) (he : t.empty = false) (hd : DecoderOnTree t d) (hb : t.single = true → b = false)
    (hroom : d.sym.length < depth) : ∃ i new, new.length ≤ 1 ∧ decodeBit depth t b d = .done (d.after i new) := by
  cases hs : t.single with
  | true =>
    obtain rfl := hb hs
    have hleaf := (kindAt_eq_iff (by simp)).mpr (ht.leaf_of_single hs)
    exact ⟨d.ptr, [valueAt t.arena t.root], le_rfl, (decodeBit_single_zero he hs hleaf).trans (emit_of_room hroom.ne)⟩
  | false =>
    obtain ⟨-, -, htree⟩ := hd hv
    obtain ⟨T, ⟨-, hfits, -⟩, hptr⟩ := htree he hs
    obtain ⟨e, hn, hk, hleft, hright⟩ := IdxTree.entry_of_mem_inner hfits hptr
    have hchild : IdxTree.LandsIn t.arena T.inner (if b then e.right else e.left) := by
      cases b
      · exact hleft
      · exact hright
    rw [decodeBit_of_internal he hs hn hk hchild.liveAt]
    exact arriveAt_completes hroom

/-- A list of bits runs when SYM has room for a symbol per bit, and emits no more than that. -/
theorem decodeBits_complete {depth : Nat} {t : Tree} {bits : BitString} {d : Decoder} (hv : t.valid = true)
    (ht : TreeConsistent t) (he : t.empty = false) (hd : DecoderOnTree t d)
    (hbits : t.single = true → ∀ b ∈ bits, b = false) (hroom : d.sym.length + bits.length ≤ depth) :
    ∃ i new, new.length ≤ bits.length ∧ forEach (decodeBit depth t) bits d = .done (d.after i new) := by
  induction bits generalizing d with
  | nil => exact ⟨d.ptr, [], le_rfl, by rw [forEach_nil, Decoder.after_nil]⟩
  | cons b bits ih =>
    rw [List.length_cons] at hroom ⊢
    obtain ⟨i, new, hnew, hbit⟩ := decodeBit_completes hv ht he hd (fun hs => hbits hs b List.mem_cons_self)
      (show d.sym.length < depth by omega)
    obtain ⟨j, more, hmore, hrest⟩ := ih (decodeBit_keeps_onTree hd hbit)
      (fun hs b' hb' => hbits hs b' (List.mem_cons_of_mem b hb')) (by rw [Decoder.length_sym_after]; omega)
    refine ⟨j, new ++ more, by rw [List.length_append]; omega, ?_⟩
    rw [forEach_cons, hbit, Body.andThen_done, hrest, Decoder.after_after]

/-! ### DEC -/

theorem decodeBody_of_done {bits : BitString} {s : State} {d : Decoder}
    (h : forEach (decodeBit s.params.symDepth s.tree) bits s.decoder = .done d) :
    decodeBody bits s = .done { s with decoder := d } := by
  rw [decodeBody, h, Body.andThen_done]

theorem decodeBody_of_raised {bits : BitString} {s : State} {e : ErrCode}
    (h : forEach (decodeBit s.params.symDepth s.tree) bits s.decoder = .raised e) : decodeBody bits s = .raised e := by
  rw [decodeBody, h, Body.andThen_raised]

theorem exec_dec_of_done {nb : BitVec 5} {s : State} {d : Decoder} (hv : s.tree.valid = true)
    (h : forEach (decodeBit s.params.symDepth s.tree) (argBits s.port.arg0 nb) s.decoder = .done d) :
    exec (.dec nb) s = .next (clearBusy { s with decoder := d }) :=
  complete_of_done hv (decodeBody_of_done h)

theorem length_argBits (w : Word) (nb : BitVec 5) : (argBits w nb).length = nb.toNat + 1 := by simp [argBits]

/-- Settles O35: DEC is the loop over the bits, which runs when there is room, and ends at the first bit that raises. -/
theorem decRunsBits : Obligations.DecRunsBits := by
  refine ⟨fun s nb hv ht hd he hbits hroom => ?_, fun s nb d hv => exec_dec_of_done hv,
    fun s nb e hv herr h => complete_of_raised hv (decodeBody_of_raised h) herr,
    fun s nb hv herr => (exec_dec nb s).trans (complete_of_not_pre hv herr),
    fun w hop => decode_or_rejects_of_op (i := .dec 0) hop rfl⟩
  have hzero : s.tree.single = true → ∀ b ∈ argBits s.port.arg0 nb, b = false := by
    intro hs b hb
    obtain ⟨k, hk, rfl⟩ := List.mem_map.mp hb
    exact hbits hs k (Nat.le_of_lt_succ (List.mem_range.mp hk))
  obtain ⟨i, new, hnew, hrun⟩ := decodeBits_complete (depth := s.params.symDepth) hv ht he hd hzero
    (by rwa [length_argBits])
  rw [length_argBits] at hnew
  exact ⟨_, new, exec_dec_of_done hv hrun, hrun, rfl, hnew, rfl⟩

/-! ### DECEND and DECRST -/

theorem decendBody_of_inside {s : State} (he : s.tree.empty = false) (hs : s.tree.single = false)
    (hptr : s.decoder.ptr ≠ s.tree.root) : decendBody s = .raised .truncatedStream :=
  if_pos (by simp [he, hs, hptr])

theorem decendBody_of_atEnd {s : State}
    (h : s.tree.empty = true ∨ s.tree.single = true ∨ s.decoder.ptr = s.tree.root) : decendBody s = .done s :=
  if_neg (by rcases h with h | h | h <;> simp [h])

/-- Settles O36: inside a tree, at an end, and without a tree. -/
theorem decendChecksEnd : Obligations.DecendChecksEnd :=
  ⟨fun _ hv => ⟨fun he hs hptr herr => complete_of_raised hv (decendBody_of_inside he hs hptr) herr,
      fun h => complete_of_done hv (decendBody_of_atEnd h)⟩,
    fun s hv herr => (exec_decend s).trans (complete_of_not_pre hv herr),
    fun _ hop => decode_or_rejects_of_op (i := .decend) hop rfl⟩

/-- Settles O37, with a tree and without one. -/
theorem decrstRestartsWalk : Obligations.DecrstRestartsWalk :=
  ⟨fun s hv => (exec_decrst s).trans (complete_of_done hv rfl),
    fun s hv herr => (exec_decrst s).trans (complete_of_not_pre hv herr),
    fun _ hop => decode_or_rejects_of_op (i := .decrst) hop rfl⟩

/-! ### Decoding code words -/

/-- A bit after arriving at an INTERNAL entry arrives at the child it names. -/
theorem arriveAt_then_bit {depth : Nat} {t : Tree} {i : NodeIdx} {e : Node} {b : Bool} {bits : BitString} {d : Decoder}
    (he : t.empty = false) (hs : t.single = false) (hn : nodeAt t.arena i = some e) (hk : e.kind = .internal)
    (hchild : LiveAt t.arena (if b then e.right else e.left)) :
    (arriveAt depth t i d).andThen (forEach (decodeBit depth t) (b :: bits))
      = (arriveAt depth t (if b then e.right else e.left) { d with ptr := i }).andThen
          (forEach (decodeBit depth t) bits) := by
  rw [arriveAt_internal ((kindAt_eq_iff (by simp)).mpr ⟨e, hn, hk⟩), Body.andThen_done, forEach_cons,
    decodeBit_of_internal he hs hn hk hchild]

/-- From the root of a subtree the rest of a leaf's path leads to the leaf, which is emitted (R173, R212). -/
theorem IdxTree.decode_path {depth : Nat} {t : Tree} (he : t.empty = false) (hs : t.single = false) {T : IdxTree}
    (hfits : T.fits t.arena = true) {p : BitString} {x : Byte × Word × BitString} (hx : x ∈ T.table t.arena p) :
    ∃ q, x.2.2 = p ++ q ∧ ∀ d, (arriveAt depth t T.root d).andThen (forEach (decodeBit depth t) q)
      = emit depth x.1 { d with ptr := t.root } := by
  induction T generalizing p with
  | leaf i =>
    obtain rfl := List.mem_singleton.mp hx
    obtain ⟨e, hn, hk, -⟩ := fits_leaf.mp hfits
    refine ⟨[], (List.append_nil p).symm, fun d => ?_⟩
    rw [IdxTree.root, arriveAt_leaf ((kindAt_eq_iff (by simp)).mpr ⟨e, hn, hk⟩)]
    cases emit depth (valueAt t.arena i) { d with ptr := t.root } <;> rfl
  | node i l r ihl ihr =>
    obtain ⟨⟨e, -, -, hn, -, -, hk, hleft, hright, -⟩, hl, hr⟩ := fits_node.mp hfits
    rcases List.mem_append.mp hx with hx | hx
    · obtain ⟨q, hq, hrun⟩ := ihl hl hx
      refine ⟨false :: q, by rw [hq, List.append_assoc]; rfl, fun d => ?_⟩
      rw [IdxTree.root, arriveAt_then_bit he hs hn hk (hleft ▸ (root_landsIn_inner hl).liveAt)]
      exact hleft ▸ hrun _
    · obtain ⟨q, hq, hrun⟩ := ihr hr hx
      refine ⟨true :: q, by rw [hq, List.append_assoc]; rfl, fun d => ?_⟩
      rw [IdxTree.root, arriveAt_then_bit he hs hn hk (hright ▸ (root_landsIn_inner hr).liveAt)]
      exact hright ▸ hrun _

theorem codeWords_cons (c : Codes) (x : Byte) (xs : List Byte) :
    codeWords c (x :: xs) = (c.ct[x.toNat]).bits ++ codeWords c xs := List.flatMap_cons

/-- From ROOT these bits decode to exactly this symbol. -/
def DecodesTo (depth : Nat) (t : Tree) (bits : BitString) (v : Byte) : Prop :=
  ∀ d : Decoder, d.ptr = t.root → forEach (decodeBit depth t) bits d = emit depth v d

/-- GENCODES on a consistent tree that is not empty gives every symbol bits that decode to it. -/
theorem TreeConsistent.decodesTo {t : Tree} (ht : TreeConsistent t) (hv : t.valid = true) (he : t.empty = false)
    (depth : Nat) : ∃ es, TableOf t es ∧ ∀ x ∈ es, DecodesTo depth t x.2.2 x.1 := by
  rw [TreeConsistent, if_pos hv] at ht
  rcases ht with ⟨he', -⟩ | ⟨-, hs, hk, -⟩ | ⟨-, hs, hk, ⟨T, hT, -⟩, -⟩
  · cases he.symm.trans he'
  · refine ⟨_, tableOf_single he hs hk, fun x hx d _ => ?_⟩
    obtain rfl := List.mem_singleton.mp hx
    rw [forEach_singleton, decodeBit_single_zero he hs hk]
  · refine ⟨_, tableOf_tree he hs hT, fun x hx d hd => ?_⟩
    obtain ⟨hroot, hfits, -⟩ := hT
    obtain ⟨q, hq, hrun⟩ := IdxTree.decode_path he hs hfits hx (depth := depth)
    have hstart : arriveAt depth t T.root d = .done d := by rw [hroot, arriveAt_internal hk, ← hd]
    have hdecode := hrun d
    rwa [hstart, Body.andThen_done, ← hd, ← List.nil_append q, ← hq] at hdecode

/-- Bits that decode symbol by symbol decode to the list, with room in SYM, and end at ROOT (R219). -/
theorem decode_codeWords {depth : Nat} {t : Tree} {c : Codes} {xs : List Byte} {d : Decoder}
    (h : ∀ x ∈ xs, DecodesTo depth t (c.ct[x.toNat]).bits x) (hd : d.ptr = t.root)
    (hroom : d.sym.length + xs.length ≤ depth) :
    forEach (decodeBit depth t) (codeWords c xs) d = .done (d.after t.root xs) := by
  induction xs generalizing d with
  | nil => rw [Decoder.after_nil, ← hd]; rfl
  | cons x xs ih =>
    obtain ⟨hx, hxs⟩ := List.forall_mem_cons.mp h
    rw [List.length_cons] at hroom
    have hnext : forEach (decodeBit depth t) (codeWords c xs) (d.after d.ptr [x])
        = .done ((d.after d.ptr [x]).after t.root xs) :=
      ih hxs hd (by rw [Decoder.length_sym_after, List.length_singleton]; omega)
    rw [codeWords_cons, forEach_append, hx d hd, emit_of_room (by omega), Body.andThen_done, hnext,
      Decoder.after_after, List.singleton_append]

/-- Settles O38: the table GENCODES holds is the tree's, so each code word decodes to its symbol, and so do they all. -/
theorem decodeInvertsEncode : Obligations.DecodeInvertsEncode := by
  intro s t xs d hv he ht hexec hcodes hd hroom
  obtain ⟨es, htable, hdecodes⟩ := ht.decodesTo hv he s.params.symDepth
  obtain ⟨c, hexec', -, hc⟩ := htable.exec_gencodes hv
  obtain rfl := Host.Outcome.next.inj (hexec.symm.trans hexec')
  refine decode_codeWords (c := c) (fun x hx => ?_) hd hroom
  obtain ⟨y, hy, rfl⟩ := hc.exists_of_bits (hcodes x hx)
  rw [(hc.entry hy).1]
  exact hdecodes y hy

end Sys2Proof.Machine
end

section
/-! NOP, CLEAR and ERRCLR (spec/46_control.md R230 to R233): none has an operand, so one word of its OP is the command's,
and none fails. -/

namespace Sys2Proof.Machine

/-! ### Words of a command without operand -/

/-- A command without operand leaves its OP no other legal word (R91, R98). -/
theorem rejects_of_op_of_ne_pattern {i : Instr} {w : Word} (hwidth : operandWidth i = 0)
    (hop : opOf w = opOf (rowOf i).pattern) (hne : w ≠ (rowOf i).pattern) : Rejects w := by
  have hres : reservedField (operandWidth i) w ≠ 0 := fun hres => hne <|
    eq_of_fields_eq (operandWidth_le i) hop (hres.trans (reservedField_pattern i).symm)
      (by rw [hwidth]; exact Subsingleton.elim (α := BitVec 0) _ _)
  exact rejects_of_decode_error ((decode_of_op hop).trans (if_neg hres))

/-- While an error is latched CMD ignores every word but CLEAR's and ERRCLR's (R68, R233). -/
theorem writeCmd_of_error {s : State} {w : Word} (he : s.port.err ≠ .none) (hclear : w ≠ 0x01000000#32)
    (herrclr : w ≠ 0x02000000#32) : writeCmd w s = s :=
  writeCmd_of_refused he (Bool.eq_false_iff.mpr (mt acceptedInError_iff.mp (not_or.mpr ⟨hclear, herrclr⟩)))

/-! ### The arena after CLEAR -/

theorem nodeAt_resetElements (s : State) {i : NodeIdx} (hi : i ≠ 511#9) :
    nodeAt (resetElements s).tree.arena i = some Node.blank := by
  have hlt : i.toNat < 511 := by bv_omega
  exact Vector.getElem?_replicate.trans (if_pos hlt)

/-! ### The obligations -/

/-- Settles O7: the body of NOP answers its state, and its word is not one of the two an error lets through. -/
theorem nopDoesNothing : Obligations.NopDoesNothing :=
  ⟨fun s => (exec_nop s).trans (complete_of_done rfl rfl),
    fun _ => rejects_of_op_of_ne_pattern (i := .nop) rfl,
    fun _ he => writeCmd_of_error he (by decide) (by decide)⟩

/-- Settles O8: every RAM is the constant vector of its reset value, and every other element is a field of the reset
state. -/
theorem clearResetsEverything : Obligations.ClearResetsEverything := by
  refine ⟨fun s => ⟨clearBusy (resetElements s), (exec_clear s).trans (complete_of_done rfl rfl), ?_⟩,
    fun s => writeCmd_of_accepted (.inr (by decide)), fun w hop hne => ?_⟩
  · exact ⟨fun _ => Vector.getElem_replicate _, rfl,
      fun _ => nodeAt_resetElements s, rfl, rfl, rfl, rfl, rfl,
      fun _ => Vector.getElem_replicate _, fun _ => Vector.getElem_replicate _, rfl, rfl,
      fun _ => Vector.getElem_replicate _, rfl,
      rfl, rfl, rfl, rfl, rfl, rfl,
      fun _ => Vector.getElem_replicate _, rfl, rfl⟩
  · have herrclr : w ≠ 0x02000000#32 := by rintro rfl; exact absurd hop (by decide)
    exact ⟨rejects_of_op_of_ne_pattern (i := .clear) rfl hop hne, fun s he => writeCmd_of_error he hne herrclr⟩

/-- Settles O9: the body of ERRCLR writes ERR and ERRCMD alone. -/
theorem errclrAcknowledges : Obligations.ErrclrAcknowledges := by
  refine ⟨fun s => (exec_errclr s).trans (complete_of_done rfl rfl),
    fun s => writeCmd_of_accepted (.inr (by decide)), fun w hop hne => ?_⟩
  have hclear : w ≠ 0x01000000#32 := by rintro rfl; exact absurd hop (by decide)
  exact ⟨rejects_of_op_of_ne_pattern (i := .errclr) rfl hop hne, fun s he => writeCmd_of_error he hclear hne⟩

end Sys2Proof.Machine
end

section
/-! Errors (spec/60_exceptions.md R244 to R249, R259): what a failed command leaves, which commands have a precondition, and
what moves the error latch. -/

namespace Sys2Proof.Machine

/-! ### The error registers under a command -/

/-- Only CLEAR and ERRCLR write ERR and ERRCMD when they run to their end (R246). -/
theorem Effect.errorRegs_eq {i : Instr} {s u : State} (h : Effect i s u) (hclear : i ≠ .clear) (herrclr : i ≠ .errclr) :
    u.port.err = s.port.err ∧ u.port.errcmd = s.port.errcmd := by
  cases h with
  | clear => exact absurd rfl hclear
  | errclr => exact absurd rfl herrclr
  | _ => exact ⟨rfl, rfl⟩

/-- A body that runs to its end latches nothing. -/
theorem Effect.noError {i : Instr} {s u : State} (h : Effect i s u) (he : s.port.err = .none) : u.port.err = .none := by
  cases h with
  | clear | errclr => rfl
  | _ => exact he

/-- Settles O39: an effect leaves no error, so what answers with one is a latch over the state before. -/
theorem failedCommandHasNoEffect : Obligations.FailedCommandHasNoEffect := by
  intro i s t he h hne
  rcases exec_completed h with ⟨u, hu, rfl⟩ | ⟨-, e, -, rfl⟩
  · exact absurd (hu.noError he) hne
  · rw [latched_err]

/-! ### SEQUENCE is the precondition's code alone -/

theorem countBody_raised {syms : List Byte} {s : State} {e : ErrCode} (h : countBody syms s = .raised e) :
    e = .countOverflow :=
  forEach_raised (fun _ _ _ hone => (countOne_raised.mp hone).2) (raised_of_andThen_done h)

theorem flushBody_raised {s : State} {e : ErrCode} (h : flushBody s = .raised e) : e = .outFull := by
  unfold flushBody at h
  split at h
  · cases h
  · split at h <;> cases h
    rfl

theorem noderdBody_raised {idx : NodeIdx} {s : State} {e : ErrCode} (h : noderdBody idx s = .raised e) :
    e = .illegalCmd := by
  unfold noderdBody at h
  split at h
  · cases h
    rfl
  · split at h <;> cases h

theorem nodewrBody_raised {idx : NodeIdx} {s : State} {e : ErrCode} (h : nodewrBody idx s = .raised e) :
    e = .illegalCmd := by
  unfold nodewrBody at h
  split at h
  · cases h
    rfl
  · split at h <;> cases h
    rfl

theorem setrootBody_raised {idx : NodeIdx} {s : State} {e : ErrCode} (h : setrootBody idx s = .raised e) :
    e = .badTree := by
  unfold setrootBody at h
  split at h
  · cases h
  · rcases Body.andThen_eq_raised.mp h with h | ⟨x, -, h⟩
    · exact absurd h treeLoop_not_raised
    · cases x with
      | none => cases h; rfl
      | some n => cases h

/-- A command without precondition whose body raises no SEQUENCE does not latch it. -/
theorem not_sequence_of_unguarded {i : Instr} {body : State → Body State} {s t : State}
    (hexec : exec i s = complete true body s) (hdone : ∀ u, body s = .done u → Effect i s u)
    (hraised : body s ≠ .raised .sequence) (he : s.port.err = .none) (h : exec i s = .next t) :
    t.port.err ≠ .sequence := by
  rcases complete_next (hexec.symm.trans h) with ⟨-, u, hu, rfl⟩ | ⟨-, e, rfl, ⟨hpre, -⟩ | ⟨-, hb⟩⟩
  · rw [clearBusy_err, (hdone u hu).noError he]
    decide
  · cases hpre
  · rintro rfl
    exact hraised hb

/-- The commands R259 lists with no precondition. -/
theorem exec_not_sequence {i : Instr} {s t : State}
    (hi : i = .nop ∨ i = .clear ∨ i = .errclr ∨ (∃ x, i = .cnt x) ∨ (∃ nb, i = .cntw nb) ∨ i = .build ∨ i = .flush
      ∨ (∃ x, i = .noderd x) ∨ (∃ x, i = .nodewr x) ∨ ∃ x, i = .setroot x)
    (he : s.port.err = .none) (h : exec i s = .next t) : t.port.err ≠ .sequence := by
  rcases hi with rfl | rfl | rfl | ⟨x, rfl⟩ | ⟨nb, rfl⟩ | rfl | rfl | ⟨x, rfl⟩ | ⟨x, rfl⟩ | ⟨x, rfl⟩
  · exact not_sequence_of_unguarded (exec_nop s) (fun _ hu => by cases hu; exact .nop) nofun he h
  · exact not_sequence_of_unguarded (exec_clear s) (fun _ hu => by cases hu; exact .clear) nofun he h
  · exact not_sequence_of_unguarded (exec_errclr s) (fun _ hu => by cases hu; exact .errclr) nofun he h
  · refine not_sequence_of_unguarded (exec_cnt x s) (fun _ hu => ?_) (fun hr => nomatch countBody_raised hr) he h
    obtain ⟨c, hc, rfl⟩ := countBody_done hu
    exact .cnt hc
  · refine not_sequence_of_unguarded (exec_cntw nb s) (fun _ hu => ?_) (fun hr => nomatch countBody_raised hr) he h
    obtain ⟨c, hc, rfl⟩ := countBody_done hu
    exact .cntw hc
  · exact not_sequence_of_unguarded (exec_build s) (fun _ => buildBody_effect) buildBody_not_raised he h
  · exact not_sequence_of_unguarded (exec_flush s) (fun _ => flushBody_effect)
      (fun hr => nomatch flushBody_raised hr) he h
  · exact not_sequence_of_unguarded (exec_noderd x s) (fun _ => noderdBody_effect)
      (fun hr => nomatch noderdBody_raised hr) he h
  · refine not_sequence_of_unguarded (exec_nodewr x s) (fun _ hu => ?_) (fun hr => nomatch nodewrBody_raised hr) he h
    obtain ⟨hx, hl, rfl⟩ := nodewrBody_done hu
    exact .nodewr hx hl
  · exact not_sequence_of_unguarded (exec_setroot x s) (fun _ => setrootBody_effect)
      (fun hr => nomatch setrootBody_raised hr) he h

/-- CODES_VALID = 1 needs TREE_VALID = 1, over every step (R259). -/
theorem step_keeps_codesNeedTree {s t : State} (hs : s.codes.valid = true → s.tree.valid = true)
    (h : step s = .next t) : t.codes.valid = true → t.tree.valid = true := by
  refine step_invariant_of_stores (P := fun s => s.codes.valid = true → s.tree.valid = true) (fun _ => nofun) ?_
    (fun _ _ _ => Effect.codesNeedTree) hs h
  rintro s t ⟨-, -, -, ht, hc, -⟩ - hs
  rwa [ht, hc]

/-- Settles O40, row by row of R259's table. -/
theorem preconditionsRaiseSequence : Obligations.PreconditionsRaiseSequence := by
  refine ⟨fun s i hi hv he => ?_, fun s i hi hv he => ?_, fun _ _ _ => exec_not_sequence,
    fun _ _ => step_keeps_codesNeedTree⟩
  · rcases hi with rfl | ⟨nb, rfl⟩ | rfl | rfl
    · exact (exec_gencodes s).trans (complete_of_not_pre hv he)
    · exact (exec_dec nb s).trans (complete_of_not_pre hv he)
    · exact (exec_decend s).trans (complete_of_not_pre hv he)
    · exact (exec_decrst s).trans (complete_of_not_pre hv he)
  · rcases hi with ⟨x, rfl⟩ | ⟨x, rfl⟩ | ⟨x, rfl⟩ | ⟨nb, rfl⟩
    · exact (exec_getcode x s).trans (complete_of_not_pre hv he)
    · exact (exec_getentry x s).trans (complete_of_not_pre hv he)
    · exact (exec_enc x s).trans (complete_of_not_pre hv he)
    · exact (exec_encw nb s).trans (complete_of_not_pre hv he)

/-! ### The latch is sticky -/

theorem readOut_nil_of_error {s : State} (he : s.port.err ≠ .none) (h : s.packer.out = []) :
    readOut s = (0#32, s) := by
  rw [readOut_nil h, latchRead_of_error he]

theorem readSym_nil_of_error {s : State} (he : s.port.err ≠ .none) (h : s.decoder.sym = []) :
    readSym s = (0#32, s) := by
  rw [readSym_nil h, latchRead_of_error he]

/-- While an error is latched no read touches the port (R246). -/
theorem readReg_port_of_error {s : State} {r : Reg} (he : s.port.err ≠ .none) : (readReg s r).2.port = s.port := by
  cases r with
  | status =>
    rw [readReg, readStatus]
    split <;> rfl
  | outData =>
    rw [readReg]
    cases ho : s.packer.out with
    | nil => rw [readOut_nil_of_error he ho]
    | cons w ws => rw [readOut_cons ho]
  | symData =>
    rw [readReg]
    cases ho : s.decoder.sym with
    | nil => rw [readSym_nil_of_error he ho]
    | cons b bs => rw [readSym_cons ho]
  | _ => rfl

/-- While an error is latched no access changes ERR or ERRCMD. -/
theorem serveAccess_errorRegs {a : Access} {s : State} (he : s.port.err ≠ .none) :
    (serveAccess a s).port.err = s.port.err ∧ (serveAccess a s).port.errcmd = s.port.errcmd := by
  rcases serveAccess_cases a s with ⟨-, h⟩ | ⟨-, -, h⟩ | ⟨-, -, r, ⟨-, h⟩ | ⟨v, -, h⟩⟩ <;> rw [h, answer_port]
  · exact ⟨rfl, rfl⟩
  · exact ⟨rfl, rfl⟩
  · rw [readReg_port_of_error he]
    exact ⟨rfl, rfl⟩
  · exact writeReg_err

/-- While an error is latched only the completion of CLEAR or ERRCLR changes ERR or ERRCMD. -/
theorem completeStep_errorRegs {s t : State} (he : s.port.err ≠ .none) (h : completeStep s = .next t) :
    (t.port.err = s.port.err ∧ t.port.errcmd = s.port.errcmd)
    ∨ decode s.port.pending = .ok .clear ∨ decode s.port.pending = .ok .errclr := by
  rcases completeStep_completed h with ⟨i, hd, ⟨u, hu, rfl⟩ | ⟨hnone, -⟩⟩ | ⟨hnone, -⟩
  · rw [hd]
    by_cases hclear : i = .clear
    · exact .inr (.inl (congrArg _ hclear))
    · by_cases herrclr : i = .errclr
      · exact .inr (.inr (congrArg _ herrclr))
      · exact .inl (hu.errorRegs_eq hclear herrclr)
  · exact absurd hnone he
  · exact absurd hnone he

/-- Settles O41, move by move. -/
theorem errorIsSticky : Obligations.ErrorIsSticky := by
  refine ⟨fun s t he h => ?_, fun s w => writeCmd_of_error,
    fun s he => ⟨readOut_nil_of_error he, readSym_nil_of_error he⟩⟩
  rcases step_next h with ⟨hm, -⟩ | ⟨a, -, rfl⟩ | ⟨a, -, rfl⟩ | ⟨hm, h⟩ | ⟨-, rfl⟩
  · exact .inr (.inl hm)
  · exact .inl ⟨rfl, rfl⟩
  · exact .inl (serveAccess_errorRegs (s := freeBus (takeInput s)) he)
  · exact (completeStep_errorRegs (s := takeInput s) he h).imp_right fun hd => .inr ⟨hm, hd⟩
  · exact .inl ⟨rfl, rfl⟩

end Sys2Proof.Machine
end

section
/-! Reset (spec/70_reset_and_hazards.md R270 to R274): what a reset step leaves, that the CLEAR it leaves pending only
clears BUSY, and that the reset state is good. -/

namespace Sys2Proof.Machine

/-! ### The reset step -/

theorem step_of_reset_event {s : State} {rest : List Event} (h : s.outside.inputs = .reset :: rest) :
    step s = .next (resetStep (takeInput s)) :=
  step_of_reset (by rw [nextMove, h])

/-- The platform answers the access a reset abandons, if one is held (log 8). -/
theorem resetStep_responses (s : State) : (resetStep s).outside.responses
    = s.outside.responses ++ if s.outside.held.isSome then [BusResponse.byPlatform] else [] := by
  rw [resetStep]
  cases s.outside.held with
  | none => exact (List.append_nil _).symm
  | some a => rfl

/-! ### The CLEAR after a reset -/

theorem completeStep_of_clear {s : State} (h : s.port.pending = resetPending) :
    completeStep s = .next (clearBusy (resetElements s)) := by
  have hd : decode s.port.pending = .ok .clear := by
    rw [h]
    rfl
  rw [completeStep_of_decode hd, exec_clear]
  exact complete_of_done rfl rfl

/-- The values CLEAR writes are the reset values (R270). -/
theorem resetElements_resetStep (s : State) : resetElements (resetStep s) = resetStep s := rfl

theorem completeStep_resetStep (s : State) : completeStep (resetStep s) = .next (clearBusy (resetStep s)) := by
  rw [completeStep_of_clear rfl, resetElements_resetStep]

/-- CLEAR leaves what a reset leaves, but for PENDING, BUSY and the other side of the bus (R274). -/
theorem clearBusy_resetElements {s : State} (h : s.port.pending = resetPending) :
    clearBusy (resetElements s) = { clearBusy (resetStep s) with outside := s.outside } := by
  rw [clearBusy, resetElements, h]
  rfl

/-- Settles O49: element by element, then by the CLEAR that a reset leaves pending. -/
theorem resetStepState : Obligations.ResetStepState := by
  refine ⟨fun s rest h => ⟨_, step_of_reset_event h, rfl, rfl, rfl, rfl, rfl, rfl, rfl, rfl, rfl, ?_, rfl,
    resetStep_responses _, completeStep_resetStep _⟩, by decide, by decide, fun s hp => ?_⟩
  · rw [resetStep_inputs, takeInput_inputs, inputsLeft, h]
  · exact ⟨_, _, completeStep_of_clear hp, completeStep_resetStep s, clearBusy_resetElements hp⟩

/-! ### The reset state -/

/-- The reset state is what a reset makes of itself. -/
theorem resetStep_reset : resetStep State.reset = State.reset := rfl

theorem resetStep_good (s : State) : Good (resetStep s) := by
  obtain ⟨htree, hdecoder, hcodes⟩ := resetStep_treeSide s
  exact ⟨resetStep_unitsGood s, reset_counterExact, arenaCanonical_blank, htree, hdecoder, hcodes⟩

/-- Settles O57: every reset makes a good state, and the defaults lie in their ranges. -/
theorem resetIsGood : Obligations.ResetIsGood :=
  ⟨resetStep_reset ▸ resetStep_good State.reset, by decide⟩

end Sys2Proof.Machine
end
